-- ==== Sys2Proof/Word.lean ====
section
/-! DEFINITION. The word types: XLEN = 32 and 8-bit bytes (00_scope.md R5, R7; 20_memory.md R50). -/

namespace Sys2Proof

/-- A `bits32` value: a register value, the pc, an effective address (R7). -/
abbrev Word := BitVec 32

/-- One byte of Memory (R50). -/
abbrev Byte := BitVec 8

/-- A 5-bit register field of an instruction word (R81). -/
abbrev RegIdx := BitVec 5

end Sys2Proof
end

