-- ==== Sys2Proof/Syntax.lean ====
section
/-! DEFINITION. The 45 instructions of the CORE, one constructor per row of spec/opcode_table.json, each with the
operands 30_encoding.md R96 gives it: register fields and the immediate already built (R95). -/

namespace Sys2Proof

/-- A decoded instruction (R93, R96). An immediate is the `bits32` value R82 to R87 build; a shift amount has 5 bits
(R88). `WellFormed.lean` says which immediates an encoding admits. -/
inductive Instr where
  /-- LUI (R210). -/
  | lui (rd : RegIdx) (imm : Word)
  /-- AUIPC (R211). -/
  | auipc (rd : RegIdx) (imm : Word)
  /-- JAL (R230). -/
  | jal (rd : RegIdx) (imm : Word)
  /-- JALR (R231). -/
  | jalr (rd rs1 : RegIdx) (imm : Word)
  /-- BEQ (R215). -/
  | beq (rs1 rs2 : RegIdx) (imm : Word)
  /-- BNE (R216). -/
  | bne (rs1 rs2 : RegIdx) (imm : Word)
  /-- BLT (R217). -/
  | blt (rs1 rs2 : RegIdx) (imm : Word)
  /-- BGE (R218). -/
  | bge (rs1 rs2 : RegIdx) (imm : Word)
  /-- BLTU (R219). -/
  | bltu (rs1 rs2 : RegIdx) (imm : Word)
  /-- BGEU (R220). -/
  | bgeu (rs1 rs2 : RegIdx) (imm : Word)
  /-- LB (R180). -/
  | lb (rd rs1 : RegIdx) (imm : Word)
  /-- LH (R181). -/
  | lh (rd rs1 : RegIdx) (imm : Word)
  /-- LW (R182). -/
  | lw (rd rs1 : RegIdx) (imm : Word)
  /-- LBU (R183). -/
  | lbu (rd rs1 : RegIdx) (imm : Word)
  /-- LHU (R184). -/
  | lhu (rd rs1 : RegIdx) (imm : Word)
  /-- SB (R195). -/
  | sb (rs1 rs2 : RegIdx) (imm : Word)
  /-- SH (R196). -/
  | sh (rs1 rs2 : RegIdx) (imm : Word)
  /-- SW (R197). -/
  | sw (rs1 rs2 : RegIdx) (imm : Word)
  /-- ADDI (R120). -/
  | addi (rd rs1 : RegIdx) (imm : Word)
  /-- SLTI (R121). -/
  | slti (rd rs1 : RegIdx) (imm : Word)
  /-- SLTIU (R122). -/
  | sltiu (rd rs1 : RegIdx) (imm : Word)
  /-- XORI (R123). -/
  | xori (rd rs1 : RegIdx) (imm : Word)
  /-- ORI (R124). -/
  | ori (rd rs1 : RegIdx) (imm : Word)
  /-- ANDI (R125). -/
  | andi (rd rs1 : RegIdx) (imm : Word)
  /-- SLLI (R126). -/
  | slli (rd rs1 : RegIdx) (shamt : BitVec 5)
  /-- SRLI (R127). -/
  | srli (rd rs1 : RegIdx) (shamt : BitVec 5)
  /-- SRAI (R128). -/
  | srai (rd rs1 : RegIdx) (shamt : BitVec 5)
  /-- ADD (R140). -/
  | add (rd rs1 rs2 : RegIdx)
  /-- SUB (R141). -/
  | sub (rd rs1 rs2 : RegIdx)
  /-- SLL (R142). -/
  | sll (rd rs1 rs2 : RegIdx)
  /-- SLT (R143). -/
  | slt (rd rs1 rs2 : RegIdx)
  /-- SLTU (R144). -/
  | sltu (rd rs1 rs2 : RegIdx)
  /-- XOR (R145). -/
  | xor (rd rs1 rs2 : RegIdx)
  /-- SRL (R146). -/
  | srl (rd rs1 rs2 : RegIdx)
  /-- SRA (R147). -/
  | sra (rd rs1 rs2 : RegIdx)
  /-- OR (R148). -/
  | or (rd rs1 rs2 : RegIdx)
  /-- AND (R149). -/
  | and (rd rs1 rs2 : RegIdx)
  /-- MUL (R160). -/
  | mul (rd rs1 rs2 : RegIdx)
  /-- MULH (R161). -/
  | mulh (rd rs1 rs2 : RegIdx)
  /-- MULHSU (R162). -/
  | mulhsu (rd rs1 rs2 : RegIdx)
  /-- MULHU (R163). -/
  | mulhu (rd rs1 rs2 : RegIdx)
  /-- DIV (R164). -/
  | div (rd rs1 rs2 : RegIdx)
  /-- DIVU (R165). -/
  | divu (rd rs1 rs2 : RegIdx)
  /-- REM (R166). -/
  | rem (rd rs1 rs2 : RegIdx)
  /-- REMU (R167). -/
  | remu (rd rs1 rs2 : RegIdx)
  deriving DecidableEq, Repr

end Sys2Proof
end

