-- ==== Sys2Proof/WellFormed.lean ====
section
/-! DEFINITION. Which instructions an encoding admits: the range of each immediate (30_encoding.md R82 to R87). Register
fields and shift amounts have 5 bits by type (R81, R88), so only immediates are checked. A register index at or beyond
REG_COUNT is no matter of form: it is checked when the instruction runs (R94). -/

namespace Sys2Proof

/-- imm_I and imm_S lie in -2048 to 2047 (R82, R83). -/
def immFits12 (imm : Word) : Bool := decide (-2048 ≤ imm.toInt) && decide (imm.toInt ≤ 2047)

/-- imm_B is even and lies in -4096 to 4094 (R85). -/
def immFitsB (imm : Word) : Bool :=
  decide (imm.toNat % 2 = 0) && (decide (-4096 ≤ imm.toInt) && decide (imm.toInt ≤ 4094))

/-- imm_U has its low 12 bits zero (R86). -/
def immFitsU (imm : Word) : Bool := decide (imm.toNat % 4096 = 0)

/-- imm_J is even and lies in -1048576 to 1048574 (R87). -/
def immFitsJ (imm : Word) : Bool :=
  decide (imm.toNat % 2 = 0) && (decide (-1048576 ≤ imm.toInt) && decide (imm.toInt ≤ 1048574))

/-- An instruction is well formed when its immediate is one its format can carry. -/
def Instr.wf : Instr → Bool
  | .lui _ imm => immFitsU imm
  | .auipc _ imm => immFitsU imm
  | .jal _ imm => immFitsJ imm
  | .jalr _ _ imm => immFits12 imm
  | .beq _ _ imm => immFitsB imm
  | .bne _ _ imm => immFitsB imm
  | .blt _ _ imm => immFitsB imm
  | .bge _ _ imm => immFitsB imm
  | .bltu _ _ imm => immFitsB imm
  | .bgeu _ _ imm => immFitsB imm
  | .lb _ _ imm => immFits12 imm
  | .lh _ _ imm => immFits12 imm
  | .lw _ _ imm => immFits12 imm
  | .lbu _ _ imm => immFits12 imm
  | .lhu _ _ imm => immFits12 imm
  | .sb _ _ imm => immFits12 imm
  | .sh _ _ imm => immFits12 imm
  | .sw _ _ imm => immFits12 imm
  | .addi _ _ imm => immFits12 imm
  | .slti _ _ imm => immFits12 imm
  | .sltiu _ _ imm => immFits12 imm
  | .xori _ _ imm => immFits12 imm
  | .ori _ _ imm => immFits12 imm
  | .andi _ _ imm => immFits12 imm
  | .slli _ _ _ => true
  | .srli _ _ _ => true
  | .srai _ _ _ => true
  | .add _ _ _ => true
  | .sub _ _ _ => true
  | .sll _ _ _ => true
  | .slt _ _ _ => true
  | .sltu _ _ _ => true
  | .xor _ _ _ => true
  | .srl _ _ _ => true
  | .sra _ _ _ => true
  | .or _ _ _ => true
  | .and _ _ _ => true
  | .mul _ _ _ => true
  | .mulh _ _ _ => true
  | .mulhsu _ _ _ => true
  | .mulhu _ _ _ => true
  | .div _ _ _ => true
  | .divu _ _ _ => true
  | .rem _ _ _ => true
  | .remu _ _ _ => true

end Sys2Proof
end

