-- ==== Sys2Proof/Decode.lean ====
section
/-! DEFINITION. Decoding (30_encoding.md R80 to R100), total on every word, and the encoder written from the same tables.
PRESUMED (log entry 10): the numeric opcode, funct3 and funct7 values are those of R91, R92 and opcode_table.json, which
the spec itself marks as general knowledge. -/

namespace Sys2Proof

/-! ### Bytes and words (R51) -/

/-- Byte `k` of a word: bits 8k+7 to 8k (R52). -/
def byteOf (v : Word) (k : Nat) : Byte := v.extractLsb' (8 * k) 8

/-- The word whose byte at the lowest address is `b0` (R51, R56). -/
def wordOfBytes (b0 b1 b2 b3 : Byte) : Word := b3 ++ b2 ++ b1 ++ b0

/-! ### Fixed fields (R81) -/

/-- `w[6:0]` (R81). -/
def opcodeOf (w : Word) : BitVec 7 := w.extractLsb' 0 7

/-- `w[11:7]` (R81). -/
def rdOf (w : Word) : RegIdx := w.extractLsb' 7 5

/-- `w[14:12]` (R81). -/
def funct3Of (w : Word) : BitVec 3 := w.extractLsb' 12 3

/-- `w[19:15]` (R81). -/
def rs1Of (w : Word) : RegIdx := w.extractLsb' 15 5

/-- `w[24:20]` (R81). -/
def rs2Of (w : Word) : RegIdx := w.extractLsb' 20 5

/-- `w[31:25]` (R81). -/
def funct7Of (w : Word) : BitVec 7 := w.extractLsb' 25 7

/-! ### Immediates (R82 to R88) -/

/-- imm_I = sext_12(w[31:20]) (R82). -/
def immI (w : Word) : Word := (w.extractLsb' 20 12).signExtend 32

/-- imm_S = sext_12(w[31:25], w[11:7]) (R83). -/
def immS (w : Word) : Word := (w.extractLsb' 25 7 ++ w.extractLsb' 7 5).signExtend 32

/-- imm_B = sext_13(w[31], w[7], w[30:25], w[11:8], 0) (R84). -/
def immB (w : Word) : Word :=
  (w.extractLsb' 31 1 ++ w.extractLsb' 7 1 ++ w.extractLsb' 25 6 ++ w.extractLsb' 8 4 ++ 0#1).signExtend 32

/-- imm_U = w[31:12] above twelve zero bits (R86). -/
def immU (w : Word) : Word := w.extractLsb' 12 20 ++ 0#12

/-- imm_J = sext_21(w[31], w[19:12], w[20], w[30:21], 0) (R87). -/
def immJ (w : Word) : Word :=
  (w.extractLsb' 31 1 ++ w.extractLsb' 12 8 ++ w.extractLsb' 20 1 ++ w.extractLsb' 21 10 ++ 0#1).signExtend 32

/-- The shift amount of SLLI, SRLI, SRAI: `w[24:20]` (R88). -/
def shamtOf (w : Word) : BitVec 5 := w.extractLsb' 20 5

/-! ### The decoder (R96) -/

/-- What decoding a word gives: an instruction, or the InvalidOp rejection with its payload (R94, R97). -/
inductive Decoded where
  /-- One of the 45 instructions. -/
  | ok (i : Instr)
  /-- No instruction: opcode, funct3 and funct7 as extracted, whatever the format (R97). -/
  | invalidOp (opcode : BitVec 7) (funct3 : BitVec 3) (funct7 : BitVec 7)
  deriving DecidableEq, Repr

/-- BRANCH[funct3] of R92. -/
def branchRow (f3 : BitVec 3) (rs1 rs2 : RegIdx) (imm : Word) : Option Instr :=
  if f3 = 0#3 then some (.beq rs1 rs2 imm)
  else if f3 = 1#3 then some (.bne rs1 rs2 imm)
  else if f3 = 4#3 then some (.blt rs1 rs2 imm)
  else if f3 = 5#3 then some (.bge rs1 rs2 imm)
  else if f3 = 6#3 then some (.bltu rs1 rs2 imm)
  else if f3 = 7#3 then some (.bgeu rs1 rs2 imm)
  else none

/-- LOAD[funct3] of R92. -/
def loadRow (f3 : BitVec 3) (rd rs1 : RegIdx) (imm : Word) : Option Instr :=
  if f3 = 0#3 then some (.lb rd rs1 imm)
  else if f3 = 1#3 then some (.lh rd rs1 imm)
  else if f3 = 2#3 then some (.lw rd rs1 imm)
  else if f3 = 4#3 then some (.lbu rd rs1 imm)
  else if f3 = 5#3 then some (.lhu rd rs1 imm)
  else none

/-- STORE[funct3] of R92. -/
def storeRow (f3 : BitVec 3) (rs1 rs2 : RegIdx) (imm : Word) : Option Instr :=
  if f3 = 0#3 then some (.sb rs1 rs2 imm)
  else if f3 = 1#3 then some (.sh rs1 rs2 imm)
  else if f3 = 2#3 then some (.sw rs1 rs2 imm)
  else none

/-- OPIMM[funct3] of R92, with the funct7 check of the shifts; for the others bits 31:25 belong to the immediate. -/
def opImmRow (f3 : BitVec 3) (f7 : BitVec 7) (rd rs1 : RegIdx) (imm : Word) (shamt : BitVec 5) : Option Instr :=
  if f3 = 0#3 then some (.addi rd rs1 imm)
  else if f3 = 2#3 then some (.slti rd rs1 imm)
  else if f3 = 3#3 then some (.sltiu rd rs1 imm)
  else if f3 = 4#3 then some (.xori rd rs1 imm)
  else if f3 = 6#3 then some (.ori rd rs1 imm)
  else if f3 = 7#3 then some (.andi rd rs1 imm)
  else if f3 = 1#3 ∧ f7 = 0x00#7 then some (.slli rd rs1 shamt)
  else if f3 = 5#3 ∧ f7 = 0x00#7 then some (.srli rd rs1 shamt)
  else if f3 = 5#3 ∧ f7 = 0x20#7 then some (.srai rd rs1 shamt)
  else none

/-- OP0[funct3] of R92: OP with funct7 = 0x00. -/
def op0Row (f3 : BitVec 3) (rd rs1 rs2 : RegIdx) : Option Instr :=
  if f3 = 0#3 then some (.add rd rs1 rs2)
  else if f3 = 1#3 then some (.sll rd rs1 rs2)
  else if f3 = 2#3 then some (.slt rd rs1 rs2)
  else if f3 = 3#3 then some (.sltu rd rs1 rs2)
  else if f3 = 4#3 then some (.xor rd rs1 rs2)
  else if f3 = 5#3 then some (.srl rd rs1 rs2)
  else if f3 = 6#3 then some (.or rd rs1 rs2)
  else if f3 = 7#3 then some (.and rd rs1 rs2)
  else none

/-- MULDIV[funct3] of R92: OP with funct7 = 0x01. -/
def mulDivRow (f3 : BitVec 3) (rd rs1 rs2 : RegIdx) : Option Instr :=
  if f3 = 0#3 then some (.mul rd rs1 rs2)
  else if f3 = 1#3 then some (.mulh rd rs1 rs2)
  else if f3 = 2#3 then some (.mulhsu rd rs1 rs2)
  else if f3 = 3#3 then some (.mulhu rd rs1 rs2)
  else if f3 = 4#3 then some (.div rd rs1 rs2)
  else if f3 = 5#3 then some (.divu rd rs1 rs2)
  else if f3 = 6#3 then some (.rem rd rs1 rs2)
  else if f3 = 7#3 then some (.remu rd rs1 rs2)
  else none

/-- The OP rows of R92: funct7 0x00, 0x20 with funct3 0 or 5, or 0x01. -/
def opRow (f3 : BitVec 3) (f7 : BitVec 7) (rd rs1 rs2 : RegIdx) : Option Instr :=
  if f7 = 0x00#7 then op0Row f3 rd rs1 rs2
  else if f7 = 0x20#7 ∧ f3 = 0#3 then some (.sub rd rs1 rs2)
  else if f7 = 0x20#7 ∧ f3 = 5#3 then some (.sra rd rs1 rs2)
  else if f7 = 0x01#7 then mulDivRow f3 rd rs1 rs2
  else none

/-- The case on the opcode of R96, before the final `raise`. -/
def decodeRow (w : Word) : Option Instr :=
  if opcodeOf w = 0x37#7 then some (.lui (rdOf w) (immU w))
  else if opcodeOf w = 0x17#7 then some (.auipc (rdOf w) (immU w))
  else if opcodeOf w = 0x6F#7 then some (.jal (rdOf w) (immJ w))
  else if opcodeOf w = 0x67#7 then
    if funct3Of w = 0#3 then some (.jalr (rdOf w) (rs1Of w) (immI w)) else none
  else if opcodeOf w = 0x63#7 then branchRow (funct3Of w) (rs1Of w) (rs2Of w) (immB w)
  else if opcodeOf w = 0x03#7 then loadRow (funct3Of w) (rdOf w) (rs1Of w) (immI w)
  else if opcodeOf w = 0x23#7 then storeRow (funct3Of w) (rs1Of w) (rs2Of w) (immS w)
  else if opcodeOf w = 0x13#7 then opImmRow (funct3Of w) (funct7Of w) (rdOf w) (rs1Of w) (immI w) (shamtOf w)
  else if opcodeOf w = 0x33#7 then opRow (funct3Of w) (funct7Of w) (rdOf w) (rs1Of w) (rs2Of w)
  else none

/-- Decode (R94, R96): every word gives an instruction or InvalidOp with the fields of R81 (R97). -/
def decode (w : Word) : Decoded :=
  match decodeRow w with
  | some i => .ok i
  | none => .invalidOp (opcodeOf w) (funct3Of w) (funct7Of w)

/-- The decoder on bytes as Memory holds them, the lowest address first: the instruction or rejection of the first four,
and the bytes after them (R80, R51). Fewer than four bytes hold no instruction: `none`. -/
def decodeBytes : List Byte → Option (Decoded × List Byte)
  | b0 :: b1 :: b2 :: b3 :: rest => some (decode (wordOfBytes b0 b1 b2 b3), rest)
  | _ => none

/-- What the decoder reads from an instruction whose bits are `w`, numbered as spec/opcode_table.json numbers them; bits at
and above `nbits` are 0. The word is laid out little-endian and given to `decodeBytes`. -/
def decodeTableWord (nbits w : Nat) : Option Instr :=
  let v : Word := BitVec.ofNat 32 (w % 2 ^ nbits)
  match decodeBytes [byteOf v 0, byteOf v 1, byteOf v 2, byteOf v 3] with
  | some (.ok i, _) => some i
  | some (.invalidOp _ _ _, _) => none
  | none => none

/-! ### The encoder: the formats of R80 -/

/-- R-type (R80). -/
def encR (f7 : BitVec 7) (f3 : BitVec 3) (op : BitVec 7) (rd rs1 rs2 : RegIdx) : Word :=
  f7 ++ rs2 ++ rs1 ++ f3 ++ rd ++ op

/-- I-type (R80, R82). -/
def encI (f3 : BitVec 3) (op : BitVec 7) (rd rs1 : RegIdx) (imm : Word) : Word :=
  imm.extractLsb' 0 12 ++ rs1 ++ f3 ++ rd ++ op

/-- The shift-immediate form of the I-type: funct7 above the shift amount (R80, R88). -/
def encShift (f7 : BitVec 7) (f3 : BitVec 3) (op : BitVec 7) (rd rs1 : RegIdx) (shamt : BitVec 5) : Word :=
  f7 ++ shamt ++ rs1 ++ f3 ++ rd ++ op

/-- S-type (R80, R83). -/
def encS (f3 : BitVec 3) (op : BitVec 7) (rs1 rs2 : RegIdx) (imm : Word) : Word :=
  imm.extractLsb' 5 7 ++ rs2 ++ rs1 ++ f3 ++ imm.extractLsb' 0 5 ++ op

/-- B-type (R80, R84). -/
def encB (f3 : BitVec 3) (op : BitVec 7) (rs1 rs2 : RegIdx) (imm : Word) : Word :=
  imm.extractLsb' 12 1 ++ imm.extractLsb' 5 6 ++ rs2 ++ rs1 ++ f3 ++ imm.extractLsb' 1 4 ++ imm.extractLsb' 11 1 ++ op

/-- U-type (R80, R86). -/
def encU (op : BitVec 7) (rd : RegIdx) (imm : Word) : Word :=
  imm.extractLsb' 12 20 ++ rd ++ op

/-- J-type (R80, R87). -/
def encJ (op : BitVec 7) (rd : RegIdx) (imm : Word) : Word :=
  imm.extractLsb' 20 1 ++ imm.extractLsb' 1 10 ++ imm.extractLsb' 11 1 ++ imm.extractLsb' 12 8 ++ rd ++ op

/-- The word of an instruction (R80, R91, R92). It is the instruction's encoding when the instruction is well formed. -/
def encode : Instr → Word
  | .lui rd imm => encU 0x37#7 rd imm
  | .auipc rd imm => encU 0x17#7 rd imm
  | .jal rd imm => encJ 0x6F#7 rd imm
  | .jalr rd rs1 imm => encI 0#3 0x67#7 rd rs1 imm
  | .beq rs1 rs2 imm => encB 0#3 0x63#7 rs1 rs2 imm
  | .bne rs1 rs2 imm => encB 1#3 0x63#7 rs1 rs2 imm
  | .blt rs1 rs2 imm => encB 4#3 0x63#7 rs1 rs2 imm
  | .bge rs1 rs2 imm => encB 5#3 0x63#7 rs1 rs2 imm
  | .bltu rs1 rs2 imm => encB 6#3 0x63#7 rs1 rs2 imm
  | .bgeu rs1 rs2 imm => encB 7#3 0x63#7 rs1 rs2 imm
  | .lb rd rs1 imm => encI 0#3 0x03#7 rd rs1 imm
  | .lh rd rs1 imm => encI 1#3 0x03#7 rd rs1 imm
  | .lw rd rs1 imm => encI 2#3 0x03#7 rd rs1 imm
  | .lbu rd rs1 imm => encI 4#3 0x03#7 rd rs1 imm
  | .lhu rd rs1 imm => encI 5#3 0x03#7 rd rs1 imm
  | .sb rs1 rs2 imm => encS 0#3 0x23#7 rs1 rs2 imm
  | .sh rs1 rs2 imm => encS 1#3 0x23#7 rs1 rs2 imm
  | .sw rs1 rs2 imm => encS 2#3 0x23#7 rs1 rs2 imm
  | .addi rd rs1 imm => encI 0#3 0x13#7 rd rs1 imm
  | .slti rd rs1 imm => encI 2#3 0x13#7 rd rs1 imm
  | .sltiu rd rs1 imm => encI 3#3 0x13#7 rd rs1 imm
  | .xori rd rs1 imm => encI 4#3 0x13#7 rd rs1 imm
  | .ori rd rs1 imm => encI 6#3 0x13#7 rd rs1 imm
  | .andi rd rs1 imm => encI 7#3 0x13#7 rd rs1 imm
  | .slli rd rs1 shamt => encShift 0x00#7 1#3 0x13#7 rd rs1 shamt
  | .srli rd rs1 shamt => encShift 0x00#7 5#3 0x13#7 rd rs1 shamt
  | .srai rd rs1 shamt => encShift 0x20#7 5#3 0x13#7 rd rs1 shamt
  | .add rd rs1 rs2 => encR 0x00#7 0#3 0x33#7 rd rs1 rs2
  | .sub rd rs1 rs2 => encR 0x20#7 0#3 0x33#7 rd rs1 rs2
  | .sll rd rs1 rs2 => encR 0x00#7 1#3 0x33#7 rd rs1 rs2
  | .slt rd rs1 rs2 => encR 0x00#7 2#3 0x33#7 rd rs1 rs2
  | .sltu rd rs1 rs2 => encR 0x00#7 3#3 0x33#7 rd rs1 rs2
  | .xor rd rs1 rs2 => encR 0x00#7 4#3 0x33#7 rd rs1 rs2
  | .srl rd rs1 rs2 => encR 0x00#7 5#3 0x33#7 rd rs1 rs2
  | .sra rd rs1 rs2 => encR 0x20#7 5#3 0x33#7 rd rs1 rs2
  | .or rd rs1 rs2 => encR 0x00#7 6#3 0x33#7 rd rs1 rs2
  | .and rd rs1 rs2 => encR 0x00#7 7#3 0x33#7 rd rs1 rs2
  | .mul rd rs1 rs2 => encR 0x01#7 0#3 0x33#7 rd rs1 rs2
  | .mulh rd rs1 rs2 => encR 0x01#7 1#3 0x33#7 rd rs1 rs2
  | .mulhsu rd rs1 rs2 => encR 0x01#7 2#3 0x33#7 rd rs1 rs2
  | .mulhu rd rs1 rs2 => encR 0x01#7 3#3 0x33#7 rd rs1 rs2
  | .div rd rs1 rs2 => encR 0x01#7 4#3 0x33#7 rd rs1 rs2
  | .divu rd rs1 rs2 => encR 0x01#7 5#3 0x33#7 rd rs1 rs2
  | .rem rd rs1 rs2 => encR 0x01#7 6#3 0x33#7 rd rs1 rs2
  | .remu rd rs1 rs2 => encR 0x01#7 7#3 0x33#7 rd rs1 rs2

/-! ### The opcode table (spec/opcode_table.json) -/

/-- One row of the opcode table: a word belongs to the row when its bits under `mask` are those of `pattern`. -/
structure OpcodeRow where
  /-- The mnemonic as the table spells it. -/
  mnemonic : String
  /-- The table's "match". -/
  pattern : Word
  /-- The table's "mask". -/
  mask : Word
  deriving DecidableEq, Repr

/-- The word has the row's fixed bits. -/
def OpcodeRow.matchesWord (r : OpcodeRow) (w : Word) : Bool := w &&& r.mask == r.pattern

/-- Upper-immediate and jump rows. -/
def uJumpRows : List OpcodeRow :=
  [⟨"LUI", 0x00000037, 0x0000007F⟩,
   ⟨"AUIPC", 0x00000017, 0x0000007F⟩,
   ⟨"JAL", 0x0000006F, 0x0000007F⟩,
   ⟨"JALR", 0x00000067, 0x0000707F⟩]

/-- Branch rows. -/
def branchRows : List OpcodeRow :=
  [⟨"BEQ", 0x00000063, 0x0000707F⟩,
   ⟨"BNE", 0x00001063, 0x0000707F⟩,
   ⟨"BLT", 0x00004063, 0x0000707F⟩,
   ⟨"BGE", 0x00005063, 0x0000707F⟩,
   ⟨"BLTU", 0x00006063, 0x0000707F⟩,
   ⟨"BGEU", 0x00007063, 0x0000707F⟩]

/-- Load and store rows. -/
def memoryRows : List OpcodeRow :=
  [⟨"LB", 0x00000003, 0x0000707F⟩,
   ⟨"LH", 0x00001003, 0x0000707F⟩,
   ⟨"LW", 0x00002003, 0x0000707F⟩,
   ⟨"LBU", 0x00004003, 0x0000707F⟩,
   ⟨"LHU", 0x00005003, 0x0000707F⟩,
   ⟨"SB", 0x00000023, 0x0000707F⟩,
   ⟨"SH", 0x00001023, 0x0000707F⟩,
   ⟨"SW", 0x00002023, 0x0000707F⟩]

/-- Register-immediate rows. -/
def opImmRows : List OpcodeRow :=
  [⟨"ADDI", 0x00000013, 0x0000707F⟩,
   ⟨"SLTI", 0x00002013, 0x0000707F⟩,
   ⟨"SLTIU", 0x00003013, 0x0000707F⟩,
   ⟨"XORI", 0x00004013, 0x0000707F⟩,
   ⟨"ORI", 0x00006013, 0x0000707F⟩,
   ⟨"ANDI", 0x00007013, 0x0000707F⟩,
   ⟨"SLLI", 0x00001013, 0xFE00707F⟩,
   ⟨"SRLI", 0x00005013, 0xFE00707F⟩,
   ⟨"SRAI", 0x40005013, 0xFE00707F⟩]

/-- Register-register rows. -/
def opRows : List OpcodeRow :=
  [⟨"ADD", 0x00000033, 0xFE00707F⟩,
   ⟨"SUB", 0x40000033, 0xFE00707F⟩,
   ⟨"SLL", 0x00001033, 0xFE00707F⟩,
   ⟨"SLT", 0x00002033, 0xFE00707F⟩,
   ⟨"SLTU", 0x00003033, 0xFE00707F⟩,
   ⟨"XOR", 0x00004033, 0xFE00707F⟩,
   ⟨"SRL", 0x00005033, 0xFE00707F⟩,
   ⟨"SRA", 0x40005033, 0xFE00707F⟩,
   ⟨"OR", 0x00006033, 0xFE00707F⟩,
   ⟨"AND", 0x00007033, 0xFE00707F⟩]

/-- Multiply and divide rows. -/
def mulDivRows : List OpcodeRow :=
  [⟨"MUL", 0x02000033, 0xFE00707F⟩,
   ⟨"MULH", 0x02001033, 0xFE00707F⟩,
   ⟨"MULHSU", 0x02002033, 0xFE00707F⟩,
   ⟨"MULHU", 0x02003033, 0xFE00707F⟩,
   ⟨"DIV", 0x02004033, 0xFE00707F⟩,
   ⟨"DIVU", 0x02005033, 0xFE00707F⟩,
   ⟨"REM", 0x02006033, 0xFE00707F⟩,
   ⟨"REMU", 0x02007033, 0xFE00707F⟩]

/-- The whole table, 45 rows (R91, R92). -/
def opcodeTable : List OpcodeRow :=
  uJumpRows ++ branchRows ++ memoryRows ++ opImmRows ++ opRows ++ mulDivRows

/-- The mnemonic of an instruction, as the table spells it. -/
def Instr.mnemonic : Instr → String
  | .lui _ _ => "LUI"
  | .auipc _ _ => "AUIPC"
  | .jal _ _ => "JAL"
  | .jalr _ _ _ => "JALR"
  | .beq _ _ _ => "BEQ"
  | .bne _ _ _ => "BNE"
  | .blt _ _ _ => "BLT"
  | .bge _ _ _ => "BGE"
  | .bltu _ _ _ => "BLTU"
  | .bgeu _ _ _ => "BGEU"
  | .lb _ _ _ => "LB"
  | .lh _ _ _ => "LH"
  | .lw _ _ _ => "LW"
  | .lbu _ _ _ => "LBU"
  | .lhu _ _ _ => "LHU"
  | .sb _ _ _ => "SB"
  | .sh _ _ _ => "SH"
  | .sw _ _ _ => "SW"
  | .addi _ _ _ => "ADDI"
  | .slti _ _ _ => "SLTI"
  | .sltiu _ _ _ => "SLTIU"
  | .xori _ _ _ => "XORI"
  | .ori _ _ _ => "ORI"
  | .andi _ _ _ => "ANDI"
  | .slli _ _ _ => "SLLI"
  | .srli _ _ _ => "SRLI"
  | .srai _ _ _ => "SRAI"
  | .add _ _ _ => "ADD"
  | .sub _ _ _ => "SUB"
  | .sll _ _ _ => "SLL"
  | .slt _ _ _ => "SLT"
  | .sltu _ _ _ => "SLTU"
  | .xor _ _ _ => "XOR"
  | .srl _ _ _ => "SRL"
  | .sra _ _ _ => "SRA"
  | .or _ _ _ => "OR"
  | .and _ _ _ => "AND"
  | .mul _ _ _ => "MUL"
  | .mulh _ _ _ => "MULH"
  | .mulhsu _ _ _ => "MULHSU"
  | .mulhu _ _ _ => "MULHU"
  | .div _ _ _ => "DIV"
  | .divu _ _ _ => "DIVU"
  | .rem _ _ _ => "REM"
  | .remu _ _ _ => "REMU"

end Sys2Proof
end

