-- ==== Sys2Proof/Config.lean ====
section
/-! DEFINITION. The parameters that are fixed when the CORE is constructed (00_scope.md R5, R6). They are OPEN: every
definition takes them from the state, and every statement quantifies over them. -/

namespace Sys2Proof

/-- The OPEN construction parameters (R5, R31; 92_eei_decisions.md D5, D6, D8). -/
structure Config where
  /-- EMBEDDED: 16 registers instead of 32 (R21). -/
  embedded : Bool
  /-- MEM_SIZE, in bytes (R50). -/
  memSize : Nat
  /-- HALT_ON_ZERO_PC: a return of the PC to 0 ends the run (R34). -/
  haltOnZeroPc : Bool
  deriving DecidableEq, Repr

/-- DESIGN CHOICE (log entry 1; unsafe): the parameters `State.reset` is built with. They are the default of
95_test_vectors.md: EMBEDDED = false, MEM_SIZE = 0x10000, HALT_ON_ZERO_PC = false. -/
def Config.default : Config := { embedded := false, memSize := 0x10000, haltOnZeroPc := false }

end Sys2Proof
end

