-- ==== Sys2Proof/Machine/State.lean ====
section
/-! DEFINITION. The state of the CORE (10_state.md R20 to R39), what a fault record holds (60_exceptions.md R250), the
reasons a step can stop, and the state after reset. -/

namespace Sys2Proof.Machine

/-- Memory as the bytes that are not 0: (address, byte) pairs, addresses strictly rising. An unlisted address reads as 0,
the reset content the spec gives (R57). -/
abbrev Memory := List Host.Cell

/-- The canonical form of a memory: addresses strictly rise and no listed byte is 0, what an unlisted address reads as. -/
abbrev Memory.wf (m : Memory) : Prop :=
  List.Pairwise (fun a b : Host.Cell => a.1 < b.1) m ∧ ∀ c ∈ m, c.2 ≠ 0#8

/-- Status (R31): the three run states. -/
inductive RunStatus where
  /-- The next step executes the instruction at the PC (R33). -/
  | running
  /-- Normal end, terminal (R34, R35). -/
  | halted
  /-- Fault end, terminal; the fault record holds the fault (R35, R251). -/
  | faulted
  deriving DecidableEq, Repr

/-- The fault record: a fault kind with its payload (R250). -/
inductive FaultRecord where
  /-- A register index at or beyond REG_COUNT (R252). -/
  | invalidRegister (index : RegIdx)
  /-- A misaligned or out-of-bounds access; width and alignment in bytes (R253). -/
  | invalidMemory (address : Word) (width alignment : Nat)
  /-- The PC after a step is not a multiple of 4 (R254). -/
  | invalidJump (pc : Word)
  /-- No instruction has this opcode, funct3, funct7 (R255). -/
  | invalidOp (opcode : BitVec 7) (funct3 : BitVec 3) (funct7 : BitVec 7)
  deriving DecidableEq, Repr

/-- Why a step stops with no next state. The four faults of the spec are no such reason: raising one is a next state with
Status Faulted (log entry 3). What stops is a step asked of a CORE whose run has ended: no step is defined (R35, 93 I12). -/
inductive Fault where
  /-- Raised by `step` when Status is Halted. Safe: the run has ended, and the state stays readable (R35; log entry 4). -/
  | stuckHalted
  /-- Raised by `step` when Status is Faulted. Safe: the run has ended, and the state stays readable (R35; log entry 4). -/
  | stuckFaulted
  deriving DecidableEq, Repr

/-- Why a step has no meaning. -/
inductive Refusal where
  /-- Raised by `exec` for an instruction with no meaning yet. Safe. -/
  | notModelled (mnemonic : String)
  /-- Raised by `step` when the launch conditions fail: no run is defined (R282; log entry 5). Safe. -/
  | launchRefused
  /-- Raised by `step` in a Running state whose PC is not a multiple of 4 below PROGRAM_LENGTH, which R27 rules out and no run
  of a launched CORE reaches (log entry 6). Safe. -/
  | pcOutsideProgram
  deriving DecidableEq, Repr

/-- Everything the spec gives the machine (R20, R27, R28, R31, R50). -/
structure State where
  /-- EMBEDDED, MEM_SIZE, HALT_ON_ZERO_PC: set at construction, written by nothing (R31; log entry 1). -/
  cfg : Config
  /-- The cells X[0] to X[31] (R20). In embedded mode cells 16 to 31 are out of reach (R21; log entry 8). -/
  regs : Vector Word 32
  /-- The program counter (R27). -/
  pc : Word
  /-- Memory (R50). -/
  mem : Memory
  /-- Status (R31). -/
  status : RunStatus
  /-- The fault record, absent unless Status is Faulted (R31, R251). -/
  fault : Option FaultRecord
  /-- PROGRAM_LENGTH in bytes: set at launch, written by nothing (R31, R66). -/
  programLength : Nat
  /-- Taken and NextPC (R28): absent while Taken is false; absent between steps (R39; log entry 9). -/
  transfer : Option Word
  deriving DecidableEq, Repr

/-- The machine right after reset with no program image (R39): registers and PC 0, memory all zero, no fault record,
PROGRAM_LENGTH = 0 and therefore Status Halted (R281). A program is loaded from outside: `State.launch` in Machine/Ops.lean
is the reset with an image and any parameters (log entry 2). The parameters are a DESIGN CHOICE (log entry 1). -/
def State.reset : State :=
  { cfg := Config.default
    regs := Vector.replicate 32 0#32
    pc := 0#32
    mem := []
    status := .halted
    fault := none
    programLength := 0
    transfer := none }

end Sys2Proof.Machine
end

