-- ==== Sys2Proof/Machine/Ops.lean ====
section
/-! DEFINITION. The shared operations: registers (R20 to R25), memory (R50 to R57), raising a fault (R251), transferring
control (R12, R28), the lines of a step around Execute (R33, R34), launch (R39, R280 to R282) and read-out (R37). -/

namespace Sys2Proof.Machine

/-- What an operation of the machine ends in. -/
abbrev Result := Host.Outcome State Fault Refusal

/-! ### Memory as bytes -/

/-- The byte at address `a`; 0 where nothing is listed (R57). -/
def Memory.read : Memory → Nat → Byte
  | [], _ => 0#8
  | (b, v) :: rest, a => if a = b then v else if a < b then 0#8 else Memory.read rest a

/-- The byte at address `a` becomes `v`; a zero byte is not listed. -/
def Memory.write : Memory → Nat → Byte → Memory
  | [], a, v => if v = 0#8 then [] else [(a, v)]
  | (b, u) :: rest, a, v =>
    if a < b then (if v = 0#8 then (b, u) :: rest else (a, v) :: (b, u) :: rest)
    else if a = b then (if v = 0#8 then rest else (a, v) :: rest)
    else (b, u) :: Memory.write rest a v

/-- `n` bytes from address `a`, the lowest in bits 7:0, as a zero-extended word (R11, R51, R53). -/
def Memory.readLE (m : Memory) (a : Nat) : Nat → Word
  | 0 => 0#32
  | n + 1 => (Memory.read m a).setWidth 32 ||| (Memory.readLE m (a + 1) n <<< 8)

/-- The low `n` bytes of `v`, bits 7:0 to address `a` (R11, R51, R54). -/
def Memory.writeLE (m : Memory) (a : Nat) : Nat → Word → Memory
  | 0, _ => m
  | n + 1, v => Memory.writeLE (Memory.write m a (v.setWidth 8)) (a + 1) n (v >>> 8)

/-- The image at address `k` and up, every other byte 0 (R58). -/
def Memory.ofImage : Nat → List Byte → Memory
  | _, [] => []
  | k, b :: rest => if b = 0#8 then Memory.ofImage (k + 1) rest else (k, b) :: Memory.ofImage (k + 1) rest

/-! ### Raising a fault -/

/-- The numeric code of a fault kind (R250). -/
def FaultRecord.code : FaultRecord → Nat
  | .invalidRegister _ => 1
  | .invalidMemory _ _ _ => 2
  | .invalidJump _ => 3
  | .invalidOp _ _ _ => 4

/-- The numeric code of a fault record that may be absent; 0 means no fault (R250). -/
def faultCode : Option FaultRecord → Nat
  | none => 0
  | some f => f.code

/-- The state in which `raise` leaves the CORE: Status Faulted and the fault recorded, everything else as it stands when
the fault is raised (R251, R260). -/
def State.raised (s : State) (f : FaultRecord) : State := { s with status := .faulted, fault := some f }

/-- `raise K(payload)` (R12, R251): the step goes no further. -/
def raise (s : State) (f : FaultRecord) : Result := .next (s.raised f)

/-- Go on with the value of a checked access, or raise its fault in state `s` (R13, R251). -/
def orRaise {α : Type} (s : State) (r : Except FaultRecord α) (k : α → Result) : Result :=
  match r with
  | .error f => raise s f
  | .ok a => k a

/-! ### Registers -/

/-- REG_COUNT (R5, R21). -/
def regCount (c : Config) : Nat := if c.embedded then 16 else 32

/-- The index names an existing register (R21). -/
abbrev State.hasReg (s : State) (i : RegIdx) : Prop := i.toNat < regCount s.cfg

/-- The value a read of an existing register gives: 0 for x0, else the cell (R22, R23). -/
def State.reg (s : State) (i : RegIdx) : Word := if i = 0#5 then 0#32 else s.regs[i.toNat]'i.isLt

/-- The cell of index `i` becomes `v`, x0's included (R24). -/
def State.setReg (s : State) (i : RegIdx) (v : Word) : State := { s with regs := s.regs.set i.toNat v i.isLt }

/-- RegRead (R23). -/
def regRead (s : State) (i : RegIdx) : Except FaultRecord Word :=
  if s.hasReg i then .ok (s.reg i) else .error (.invalidRegister i)

/-- RegWrite (R24). -/
def regWrite (s : State) (i : RegIdx) (v : Word) : Except FaultRecord State :=
  if s.hasReg i then .ok (s.setReg i v) else .error (.invalidRegister i)

/-! ### Checked memory accesses -/

/-- The access widths (R60). -/
inductive Width where
  /-- 1 byte. -/
  | byte
  /-- 2 bytes. -/
  | half
  /-- 4 bytes. -/
  | word
  deriving DecidableEq, Repr

/-- The width in bytes (R60). -/
def Width.bytes : Width → Nat
  | .byte => 1
  | .half => 2
  | .word => 4

/-- The access is aligned and lies wholly below MEM_SIZE (R53, R54, R55). -/
abbrev State.canAccess (s : State) (a : Word) (n : Width) : Prop :=
  a.toNat % n.bytes = 0 ∧ a.toNat + n.bytes ≤ s.cfg.memSize

/-- MemRead (R53). -/
def memRead (s : State) (a : Word) (n : Width) : Except FaultRecord Word :=
  if s.canAccess a n then .ok (s.mem.readLE a.toNat n.bytes) else .error (.invalidMemory a n.bytes n.bytes)

/-- The memory after the low bytes of `v` are stored at `a` (R54). -/
def State.storeAt (s : State) (a : Word) (n : Width) (v : Word) : State :=
  { s with mem := s.mem.writeLE a.toNat n.bytes v }

/-- MemWrite (R54): a write that raises writes no byte. -/
def memWrite (s : State) (a : Word) (n : Width) (v : Word) : Except FaultRecord State :=
  if s.canAccess a n then .ok (s.storeAt a n v) else .error (.invalidMemory a n.bytes n.bytes)

/-! ### Transfer of control -/

/-- `pc <- target` in an instruction rule: NextPC and the Taken mark (R12, R28). -/
def State.transferTo (s : State) (target : Word) : State := { s with transfer := some target }

/-! ### The lines of a step around Execute (R33) -/

/-- The launch conditions (R282). -/
abbrev State.launchOk (s : State) : Prop :=
  4 ≤ s.cfg.memSize ∧ s.cfg.memSize ≤ 2 ^ 31 ∧ s.cfg.memSize % 4 = 0 ∧
    s.programLength % 4 = 0 ∧ s.programLength ≤ s.cfg.memSize

/-- Where the PC of a Running CORE lies: a multiple of 4 below PROGRAM_LENGTH (R27). -/
abbrev State.pcInProgram (s : State) : Prop := s.pc.toNat % 4 = 0 ∧ s.pc.toNat < s.programLength

/-- Fetch (R56): the word at the PC in the current Memory. -/
def fetch (s : State) : Word := s.mem.readLE s.pc.toNat 4

/-- The step up to the fetch: refused for a refused launch (R282), stuck after the end of a run (R35), refused where the
PC breaks R27; otherwise Taken is false and the step goes on. -/
def beginStep (s : State) (k : State → Result) : Result :=
  if s.launchOk then
    match s.status with
    | .halted => .fault .stuckHalted
    | .faulted => .fault .stuckFaulted
    | .running => if s.pcInProgram then k { s with transfer := none } else .refused .pcOutsideProgram
  else .refused .launchRefused

/-- `X[0] <- 0` (R25). -/
def State.rezero (s : State) : State := s.setReg 0#5 0#32

/-- The PC update: NextPC if a transfer was taken, else PC + 4 modulo 2^32; the marks do not outlive the step (R28, R33). -/
def State.advance (s : State) : State := { s with pc := s.transfer.getD (s.pc + 4#32), transfer := none }

/-- The Status that Terminate leaves (R34). -/
def terminateStatus (s : State) : RunStatus :=
  if s.programLength ≤ s.pc.toNat then .halted
  else if s.cfg.haltOnZeroPc ∧ s.pc = 0#32 then .halted
  else s.status

/-- Terminate (R34). -/
def State.terminate (s : State) : State := { s with status := terminateStatus s }

/-- The alignment check on the new PC, then Terminate (R33, R34, R254). -/
def State.checkPc (s : State) : State :=
  if s.pc.toNat % 4 = 0 then s.terminate else s.raised (.invalidJump s.pc)

/-- The lines after Execute (R33): re-zero X[0], update the PC, check it, Terminate. -/
def State.retire (s : State) : State := s.rezero.advance.checkPc

/-- The end of a step: an instruction that raised ends it at once (R251), any other goes through the lines after Execute.
The Taken mark does not outlive the step (R28). -/
def endStep : Result → Result
  | .next t => if t.status = .faulted then .next { t with transfer := none } else .next t.retire
  | .fault r => .fault r
  | .refused r => .refused r

/-! ### Launch (R39, R280 to R283) -/

/-- The CORE constructed with parameters `c` for the program image `image`: every piece of state at its value of R39, the
image at address 0 and up (R58), Status by R281. -/
def State.launch (c : Config) (image : List Byte) : State :=
  { cfg := c
    regs := Vector.replicate 32 0#32
    pc := 0#32
    mem := Memory.ofImage 0 image
    status := if image.length = 0 then .halted else .running
    fault := none
    programLength := image.length
    transfer := none }

/-- `s` with the word `w` in Memory at the PC, the image reaching at least past it, and Status Running with no fault: what
the load of a program that holds `w` at the PC leaves (log entry 2). -/
def State.withWordAtPc (s : State) (w : Word) : State :=
  { s with
    mem := s.mem.writeLE s.pc.toNat 4 w
    status := .running
    fault := none
    programLength := max s.programLength (s.pc.toNat + 4) }

/-! ### Read-out (R37): functions of the state, without effect on it -/

/-- The registers read out: x0 to x(REG_COUNT-1) (R37, D26). -/
def State.outRegs (s : State) : List Word :=
  (List.range (regCount s.cfg)).map fun k => s.reg (BitVec.ofNat 5 k)

/-- The memory byte read out at `a`, for an address of Memory (R37). -/
def State.outByte (s : State) (a : Nat) : Option Byte :=
  if a < s.cfg.memSize then some (s.mem.read a) else none

/-- The fault record read out: present when Status is Faulted (R37). -/
def State.outFault (s : State) : Option FaultRecord := if s.status = .faulted then s.fault else none

end Sys2Proof.Machine
end

