-- ==== Sys2Proof/Machine/Operands.lean ====
section
/-! DEFINITION. Operand forms: effective addresses (R59), shift amounts (R88), extensions of loaded values (R8), targets (R29),
and the integer readings of a word (R7). -/

namespace Sys2Proof.Machine

/-- EA = x[rs1] + imm modulo 2^32 (R59). -/
def effectiveAddress (base imm : Word) : Word := base + imm

/-- The shift amount of SLL, SRL, SRA: `x[rs2][4:0]` (R88). -/
def shiftAmount (v : Word) : BitVec 5 := v.extractLsb' 0 5

/-- `trunc32(n)`: n modulo 2^32 (R7). -/
def trunc32 (n : Int) : Word := BitVec.ofInt 32 n

/-- sext_8(v[7:0]) (R8, R180). -/
def sext8 (v : Word) : Word := (v.extractLsb' 0 8).signExtend 32

/-- sext_16(v[15:0]) (R8, R181). -/
def sext16 (v : Word) : Word := (v.extractLsb' 0 16).signExtend 32

/-- zext_8(v[7:0]) (R8, R183). -/
def zext8 (v : Word) : Word := (v.extractLsb' 0 8).setWidth 32

/-- zext_16(v[15:0]) (R8, R184). -/
def zext16 (v : Word) : Word := (v.extractLsb' 0 16).setWidth 32

/-- The target of a branch or JAL: pc + offset modulo 2^32 (R29). -/
def pcTarget (s : State) (offset : Word) : Word := s.pc + offset

/-- The target of JALR: (x[rs1] + imm_I) with bit 0 cleared (R231). -/
def jalrTarget (base imm : Word) : Word := (base + imm) &&& 0xFFFFFFFE#32

/-- The link value pc + 4 (R230, R231). -/
def linkValue (s : State) : Word := s.pc + 4#32

end Sys2Proof.Machine
end

