-- ==== Sys2Proof/Machine/Flags.lean ====
section
/-! DEFINITION. The CORE has no flags and no condition codes, and no instruction computes one (10_state.md R30). What stands
here is what it has in their place: the comparisons of branches and of the SLT class (R9). -/

namespace Sys2Proof.Machine

/-- `a <s b`: s(a) < s(b) (R9). -/
def ltS (a b : Word) : Bool := decide (a.toInt < b.toInt)

/-- `a <u b`: u(a) < u(b) (R9). -/
def ltU (a b : Word) : Bool := decide (a.toNat < b.toNat)

/-- `c ? 0x00000001 : 0x00000000` (R121, R122, R143, R144). -/
def setIf (c : Bool) : Word := if c then 1#32 else 0#32

end Sys2Proof.Machine
end

