-- ==== Sys2Proof/Machine/AluImm.lean ====
section
/-! DEFINITION. Register-immediate ALU instructions (40_alu_imm.md R120 to R128). -/

namespace Sys2Proof.Machine

/-- The shape of a register-immediate instruction (R26): read rs1, combine it with the operand, write rd. -/
def aluImm (f : Word → Word) (rd rs1 : RegIdx) (s : State) : Result :=
  orRaise s (regRead s rs1) fun a => orRaise s (regWrite s rd (f a)) .next

/-- ADDI (R120): modulo 2^32. -/
def execAddi (rd rs1 : RegIdx) (imm : Word) (s : State) : Result :=
  aluImm (fun a => a + imm) rd rs1 s

/-- SLTI (R121): signed. -/
def execSlti (rd rs1 : RegIdx) (imm : Word) (s : State) : Result :=
  aluImm (fun a => setIf (ltS a imm)) rd rs1 s

/-- SLTIU (R122): unsigned, the immediate sign-extended first. -/
def execSltiu (rd rs1 : RegIdx) (imm : Word) (s : State) : Result :=
  aluImm (fun a => setIf (ltU a imm)) rd rs1 s

/-- XORI (R123). -/
def execXori (rd rs1 : RegIdx) (imm : Word) (s : State) : Result :=
  aluImm (fun a => a ^^^ imm) rd rs1 s

/-- ORI (R124). -/
def execOri (rd rs1 : RegIdx) (imm : Word) (s : State) : Result :=
  aluImm (fun a => a ||| imm) rd rs1 s

/-- ANDI (R125). -/
def execAndi (rd rs1 : RegIdx) (imm : Word) (s : State) : Result :=
  aluImm (fun a => a &&& imm) rd rs1 s

/-- SLLI (R126). -/
def execSlli (rd rs1 : RegIdx) (shamt : BitVec 5) (s : State) : Result :=
  aluImm (fun a => a <<< shamt.toNat) rd rs1 s

/-- SRLI (R127). -/
def execSrli (rd rs1 : RegIdx) (shamt : BitVec 5) (s : State) : Result :=
  aluImm (fun a => a >>> shamt.toNat) rd rs1 s

/-- SRAI (R128). -/
def execSrai (rd rs1 : RegIdx) (shamt : BitVec 5) (s : State) : Result :=
  aluImm (fun a => a.sshiftRight shamt.toNat) rd rs1 s


end Sys2Proof.Machine
end

