-- ==== Sys2Proof/Machine/AluReg.lean ====
section
/-! DEFINITION. Register-register ALU instructions (41_alu_reg.md R140 to R149). -/

namespace Sys2Proof.Machine

/-- The shape of a register-register instruction (R26): read rs1, then rs2, then write rd. -/
def aluReg (f : Word → Word → Word) (rd rs1 rs2 : RegIdx) (s : State) : Result :=
  orRaise s (regRead s rs1) fun a => orRaise s (regRead s rs2) fun b => orRaise s (regWrite s rd (f a b)) .next

/-- ADD (R140): modulo 2^32. -/
def execAdd (rd rs1 rs2 : RegIdx) (s : State) : Result :=
  aluReg (fun a b => a + b) rd rs1 rs2 s

/-- SUB (R141): modulo 2^32. -/
def execSub (rd rs1 rs2 : RegIdx) (s : State) : Result :=
  aluReg (fun a b => a - b) rd rs1 rs2 s

/-- SLL (R142). -/
def execSll (rd rs1 rs2 : RegIdx) (s : State) : Result :=
  aluReg (fun a b => a <<< (shiftAmount b).toNat) rd rs1 rs2 s

/-- SLT (R143): signed. -/
def execSlt (rd rs1 rs2 : RegIdx) (s : State) : Result :=
  aluReg (fun a b => setIf (ltS a b)) rd rs1 rs2 s

/-- SLTU (R144): unsigned. -/
def execSltu (rd rs1 rs2 : RegIdx) (s : State) : Result :=
  aluReg (fun a b => setIf (ltU a b)) rd rs1 rs2 s

/-- XOR (R145). -/
def execXor (rd rs1 rs2 : RegIdx) (s : State) : Result :=
  aluReg (fun a b => a ^^^ b) rd rs1 rs2 s

/-- SRL (R146). -/
def execSrl (rd rs1 rs2 : RegIdx) (s : State) : Result :=
  aluReg (fun a b => a >>> (shiftAmount b).toNat) rd rs1 rs2 s

/-- SRA (R147). -/
def execSra (rd rs1 rs2 : RegIdx) (s : State) : Result :=
  aluReg (fun a b => a.sshiftRight (shiftAmount b).toNat) rd rs1 rs2 s

/-- OR (R148). -/
def execOr (rd rs1 rs2 : RegIdx) (s : State) : Result :=
  aluReg (fun a b => a ||| b) rd rs1 rs2 s

/-- AND (R149). -/
def execAnd (rd rs1 rs2 : RegIdx) (s : State) : Result :=
  aluReg (fun a b => a &&& b) rd rs1 rs2 s


end Sys2Proof.Machine
end

