-- ==== Sys2Proof/Machine/Branches.lean ====
section
/-! DEFINITION. Conditional branches (46_branches.md R215 to R220). -/

namespace Sys2Proof.Machine

/-- The shape of a branch (R26): read rs1, then rs2; transfer to pc + imm_B when the condition holds. -/
def branch (cond : Word → Word → Bool) (rs1 rs2 : RegIdx) (imm : Word) (s : State) : Result :=
  orRaise s (regRead s rs1) fun a => orRaise s (regRead s rs2) fun b =>
    if cond a b then .next (s.transferTo (pcTarget s imm)) else .next s

/-- BEQ (R215). -/
def execBeq (rs1 rs2 : RegIdx) (imm : Word) (s : State) : Result :=
  branch (fun a b => a == b) rs1 rs2 imm s

/-- BNE (R216). -/
def execBne (rs1 rs2 : RegIdx) (imm : Word) (s : State) : Result :=
  branch (fun a b => a != b) rs1 rs2 imm s

/-- BLT (R217). -/
def execBlt (rs1 rs2 : RegIdx) (imm : Word) (s : State) : Result :=
  branch (fun a b => ltS a b) rs1 rs2 imm s

/-- BGE (R218). -/
def execBge (rs1 rs2 : RegIdx) (imm : Word) (s : State) : Result :=
  branch (fun a b => !ltS a b) rs1 rs2 imm s

/-- BLTU (R219). -/
def execBltu (rs1 rs2 : RegIdx) (imm : Word) (s : State) : Result :=
  branch (fun a b => ltU a b) rs1 rs2 imm s

/-- BGEU (R220). -/
def execBgeu (rs1 rs2 : RegIdx) (imm : Word) (s : State) : Result :=
  branch (fun a b => !ltU a b) rs1 rs2 imm s


end Sys2Proof.Machine
end

