-- ==== Sys2Proof/Machine/Jumps.lean ====
section
/-! DEFINITION. Unconditional jumps (47_jumps.md R230, R231). -/

namespace Sys2Proof.Machine

/-- JAL (R230): link, then transfer. -/
def execJal (rd : RegIdx) (imm : Word) (s : State) : Result :=
  orRaise s (regWrite s rd (linkValue s)) fun s' => .next (s'.transferTo (pcTarget s imm))

/-- JALR (R231): the target is computed from rs1 before rd is written. -/
def execJalr (rd rs1 : RegIdx) (imm : Word) (s : State) : Result :=
  orRaise s (regRead s rs1) fun base =>
    orRaise s (regWrite s rd (linkValue s)) fun s' => .next (s'.transferTo (jalrTarget base imm))


end Sys2Proof.Machine
end

