-- ==== Sys2Proof/Machine/Loads.lean ====
section
/-! DEFINITION. Load instructions (43_loads.md R180 to R184). -/

namespace Sys2Proof.Machine

/-- The shape of a load (R26): read rs1, MemRead at the effective address, extend, write rd. -/
def load (n : Width) (ext : Word → Word) (rd rs1 : RegIdx) (imm : Word) (s : State) : Result :=
  orRaise s (regRead s rs1) fun base =>
    orRaise s (memRead s (effectiveAddress base imm) n) fun v => orRaise s (regWrite s rd (ext v)) .next

/-- LB (R180). -/
def execLb (rd rs1 : RegIdx) (imm : Word) (s : State) : Result :=
  load .byte sext8 rd rs1 imm s

/-- LH (R181). -/
def execLh (rd rs1 : RegIdx) (imm : Word) (s : State) : Result :=
  load .half sext16 rd rs1 imm s

/-- LW (R182). -/
def execLw (rd rs1 : RegIdx) (imm : Word) (s : State) : Result :=
  load .word id rd rs1 imm s

/-- LBU (R183). -/
def execLbu (rd rs1 : RegIdx) (imm : Word) (s : State) : Result :=
  load .byte zext8 rd rs1 imm s

/-- LHU (R184). -/
def execLhu (rd rs1 : RegIdx) (imm : Word) (s : State) : Result :=
  load .half zext16 rd rs1 imm s


end Sys2Proof.Machine
end

