-- ==== Sys2Proof/Machine/MulDiv.lean ====
section
/-! DEFINITION. Multiply and divide instructions (42_muldiv.md R160 to R168). None traps. -/

namespace Sys2Proof.Machine

/-- The low word of the product (R160). -/
def mulLow (a b : Word) : Word := trunc32 (a.toNat * b.toNat)

/-- Bits 63:32 of the signed product (R161); `/` on Int by a positive divisor is the floor. -/
def mulHighSS (a b : Word) : Word := trunc32 (a.toInt * b.toInt / 2 ^ 32)

/-- Bits 63:32 of signed times unsigned (R162). -/
def mulHighSU (a b : Word) : Word := trunc32 (a.toInt * b.toNat / 2 ^ 32)

/-- Bits 63:32 of the unsigned product (R163). -/
def mulHighUU (a b : Word) : Word := trunc32 ((a.toNat * b.toNat / 2 ^ 32 : Nat))

/-- quot_trunc(a, b): a / b rounded toward zero (R9). -/
def quotTrunc (a b : Int) : Int := a.tdiv b

/-- rem_trunc(a, b) = a - b * quot_trunc(a, b) (R9). -/
def remTrunc (a b : Int) : Int := a - b * quotTrunc a b

/-- The quotient DIV writes (R164). -/
def divSigned (a b : Word) : Word :=
  if b.toInt = 0 then 0xFFFFFFFF#32
  else if a.toInt = -2 ^ 31 ∧ b.toInt = -1 then 0x80000000#32
  else trunc32 (quotTrunc a.toInt b.toInt)

/-- The quotient DIVU writes (R165). -/
def divUnsigned (a b : Word) : Word :=
  if b = 0#32 then 0xFFFFFFFF#32 else trunc32 ((a.toNat / b.toNat : Nat))

/-- The remainder REM writes (R166). -/
def remSigned (a b : Word) : Word :=
  if b.toInt = 0 then a
  else if a.toInt = -2 ^ 31 ∧ b.toInt = -1 then 0#32
  else trunc32 (remTrunc a.toInt b.toInt)

/-- The remainder REMU writes (R167). -/
def remUnsigned (a b : Word) : Word :=
  if b = 0#32 then a else trunc32 ((a.toNat % b.toNat : Nat))

/-- MUL (R160). -/
def execMul (rd rs1 rs2 : RegIdx) (s : State) : Result :=
  aluReg mulLow rd rs1 rs2 s

/-- MULH (R161). -/
def execMulh (rd rs1 rs2 : RegIdx) (s : State) : Result :=
  aluReg mulHighSS rd rs1 rs2 s

/-- MULHSU (R162). -/
def execMulhsu (rd rs1 rs2 : RegIdx) (s : State) : Result :=
  aluReg mulHighSU rd rs1 rs2 s

/-- MULHU (R163). -/
def execMulhu (rd rs1 rs2 : RegIdx) (s : State) : Result :=
  aluReg mulHighUU rd rs1 rs2 s

/-- DIV (R164). -/
def execDiv (rd rs1 rs2 : RegIdx) (s : State) : Result :=
  aluReg divSigned rd rs1 rs2 s

/-- DIVU (R165). -/
def execDivu (rd rs1 rs2 : RegIdx) (s : State) : Result :=
  aluReg divUnsigned rd rs1 rs2 s

/-- REM (R166). -/
def execRem (rd rs1 rs2 : RegIdx) (s : State) : Result :=
  aluReg remSigned rd rs1 rs2 s

/-- REMU (R167). -/
def execRemu (rd rs1 rs2 : RegIdx) (s : State) : Result :=
  aluReg remUnsigned rd rs1 rs2 s


end Sys2Proof.Machine
end

