-- ==== Sys2Proof/Machine/Stores.lean ====
section
/-! DEFINITION. Store instructions (44_stores.md R195 to R197). -/

namespace Sys2Proof.Machine

/-- The shape of a store (R26): read rs1, then rs2, MemWrite at the effective address. -/
def store (n : Width) (rs1 rs2 : RegIdx) (imm : Word) (s : State) : Result :=
  orRaise s (regRead s rs1) fun base => orRaise s (regRead s rs2) fun v =>
    orRaise s (memWrite s (effectiveAddress base imm) n v) .next

/-- SB (R195). -/
def execSb (rs1 rs2 : RegIdx) (imm : Word) (s : State) : Result :=
  store .byte rs1 rs2 imm s

/-- SH (R196). -/
def execSh (rs1 rs2 : RegIdx) (imm : Word) (s : State) : Result :=
  store .half rs1 rs2 imm s

/-- SW (R197). -/
def execSw (rs1 rs2 : RegIdx) (imm : Word) (s : State) : Result :=
  store .word rs1 rs2 imm s


end Sys2Proof.Machine
end

