-- ==== Sys2Proof/Machine/UpperImm.lean ====
section
/-! DEFINITION. Upper-immediate instructions (45_upper_imm.md R210, R211). -/

namespace Sys2Proof.Machine

/-- LUI (R210). -/
def execLui (rd : RegIdx) (imm : Word) (s : State) : Result :=
  orRaise s (regWrite s rd imm) .next

/-- AUIPC (R211): pc is the address of this instruction. -/
def execAuipc (rd : RegIdx) (imm : Word) (s : State) : Result :=
  orRaise s (regWrite s rd (pcTarget s imm)) .next


end Sys2Proof.Machine
end

