-- ==== Sys2Proof/Machine/Execute.lean ====
section
/-! DEFINITION. Decode and Execute of a step on a fetched word (10_state.md R33). -/

namespace Sys2Proof.Machine

/-- Decode the fetched word and execute it, or raise InvalidOp before any register or memory access (R33, R96, R255). -/
def execWord (w : Word) (s : State) : Result :=
  match decode w with
  | .ok i => exec i s
  | .invalidOp opcode funct3 funct7 => raise s (.invalidOp opcode funct3 funct7)

end Sys2Proof.Machine
end

