-- ==== Sys2Proof/Machine/Step.lean ====
section
/-! DEFINITION. One step of the control loop (10_state.md R33). Its parts are in Machine/Ops.lean. -/

namespace Sys2Proof.Machine

/-- Step (R33): check that a step is defined, fetch, decode, execute, then the lines after Execute. -/
def step (s : State) : Host.Outcome State Fault Refusal :=
  beginStep s fun s => endStep (execWord (fetch s) s)

/-- `s` with a program word placed where the next step fetches: the instruction whose bits are `w` (bits at and above
`nbits` are 0) at the PC, as the load of an image that holds it there would leave it (log entry 2). The next step runs it
whenever the parameters are lawful, PROGRAM_LENGTH is a multiple of 4 within Memory, and the PC is a multiple of 4 below
MEM_SIZE. -/
def State.withFetchWord (s : State) (nbits w : Nat) : State :=
  s.withWordAtPc (BitVec.ofNat 32 (w % 2 ^ nbits))

end Sys2Proof.Machine
end

