-- ==== Sys2Proof/Machine/Assembler.lean ====
section
/-! DEFINITION. Assembler text and pseudo-instructions (30_encoding.md R101 to R104). The CORE never sees them (R101): nothing
in the step depends on this file. It writes down the operand syntax of R102, the expansions of R103 and the names of R104. -/

namespace Sys2Proof.Machine

/-- The source's name of a register: `x<n>` (R20, R101). -/
def regName (i : RegIdx) : String := "x" ++ toString i.toNat

/-- The alias names of R104, x0 first. -/
def abiNames : List String :=
  ["zero", "ra", "sp", "gp", "tp", "t0", "t1", "t2", "s0", "s1"] ++
  ["a0", "a1", "a2", "a3", "a4", "a5", "a6", "a7"] ++
  ["s2", "s3", "s4", "s5", "s6", "s7", "s8", "s9", "s10", "s11"] ++
  ["t3", "t4", "t5", "t6"]

/-- The alias of a register (R104; s0 is also called fp). -/
def abiName (i : RegIdx) : String := abiNames.getD i.toNat ""

/-- `OP rd, rs1, rs2` (R102). -/
def asmRegs (op : String) (a b c : RegIdx) : String :=
  op ++ " " ++ regName a ++ ", " ++ regName b ++ ", " ++ regName c

/-- `OP rd, rs1, imm`, also `OP rs1, rs2, offset`, the number signed (R102). -/
def asmImm (op : String) (a b : RegIdx) (imm : Word) : String :=
  op ++ " " ++ regName a ++ ", " ++ regName b ++ ", " ++ toString imm.toInt

/-- `OP rd, rs1, shamt` (R102). -/
def asmShift (op : String) (a b : RegIdx) (shamt : BitVec 5) : String :=
  op ++ " " ++ regName a ++ ", " ++ regName b ++ ", " ++ toString shamt.toNat

/-- `OP r, imm(base)`: loads, stores and JALR (R102). -/
def asmBase (op : String) (r base : RegIdx) (imm : Word) : String :=
  op ++ " " ++ regName r ++ ", " ++ toString imm.toInt ++ "(" ++ regName base ++ ")"

/-- `OP rd, imm20`, imm20 the bits 31:12 of imm_U (R102). -/
def asmUpper (op : String) (rd : RegIdx) (imm : Word) : String :=
  op ++ " " ++ regName rd ++ ", " ++ toString (imm.extractLsb' 12 20).toNat

/-- `JAL rd, offset` (R102). -/
def asmJal (op : String) (rd : RegIdx) (imm : Word) : String :=
  op ++ " " ++ regName rd ++ ", " ++ toString imm.toInt

/-- The assembler text of an instruction, by the class table of R102. -/
def asmText : Instr → String
  | .lui rd imm => asmUpper "LUI" rd imm
  | .auipc rd imm => asmUpper "AUIPC" rd imm
  | .jal rd imm => asmJal "JAL" rd imm
  | .jalr rd rs1 imm => asmBase "JALR" rd rs1 imm
  | .beq rs1 rs2 imm => asmImm "BEQ" rs1 rs2 imm
  | .bne rs1 rs2 imm => asmImm "BNE" rs1 rs2 imm
  | .blt rs1 rs2 imm => asmImm "BLT" rs1 rs2 imm
  | .bge rs1 rs2 imm => asmImm "BGE" rs1 rs2 imm
  | .bltu rs1 rs2 imm => asmImm "BLTU" rs1 rs2 imm
  | .bgeu rs1 rs2 imm => asmImm "BGEU" rs1 rs2 imm
  | .lb rd rs1 imm => asmBase "LB" rd rs1 imm
  | .lh rd rs1 imm => asmBase "LH" rd rs1 imm
  | .lw rd rs1 imm => asmBase "LW" rd rs1 imm
  | .lbu rd rs1 imm => asmBase "LBU" rd rs1 imm
  | .lhu rd rs1 imm => asmBase "LHU" rd rs1 imm
  | .sb rs1 rs2 imm => asmBase "SB" rs2 rs1 imm
  | .sh rs1 rs2 imm => asmBase "SH" rs2 rs1 imm
  | .sw rs1 rs2 imm => asmBase "SW" rs2 rs1 imm
  | .addi rd rs1 imm => asmImm "ADDI" rd rs1 imm
  | .slti rd rs1 imm => asmImm "SLTI" rd rs1 imm
  | .sltiu rd rs1 imm => asmImm "SLTIU" rd rs1 imm
  | .xori rd rs1 imm => asmImm "XORI" rd rs1 imm
  | .ori rd rs1 imm => asmImm "ORI" rd rs1 imm
  | .andi rd rs1 imm => asmImm "ANDI" rd rs1 imm
  | .slli rd rs1 shamt => asmShift "SLLI" rd rs1 shamt
  | .srli rd rs1 shamt => asmShift "SRLI" rd rs1 shamt
  | .srai rd rs1 shamt => asmShift "SRAI" rd rs1 shamt
  | .add rd rs1 rs2 => asmRegs "ADD" rd rs1 rs2
  | .sub rd rs1 rs2 => asmRegs "SUB" rd rs1 rs2
  | .sll rd rs1 rs2 => asmRegs "SLL" rd rs1 rs2
  | .slt rd rs1 rs2 => asmRegs "SLT" rd rs1 rs2
  | .sltu rd rs1 rs2 => asmRegs "SLTU" rd rs1 rs2
  | .xor rd rs1 rs2 => asmRegs "XOR" rd rs1 rs2
  | .srl rd rs1 rs2 => asmRegs "SRL" rd rs1 rs2
  | .sra rd rs1 rs2 => asmRegs "SRA" rd rs1 rs2
  | .or rd rs1 rs2 => asmRegs "OR" rd rs1 rs2
  | .and rd rs1 rs2 => asmRegs "AND" rd rs1 rs2
  | .mul rd rs1 rs2 => asmRegs "MUL" rd rs1 rs2
  | .mulh rd rs1 rs2 => asmRegs "MULH" rd rs1 rs2
  | .mulhsu rd rs1 rs2 => asmRegs "MULHSU" rd rs1 rs2
  | .mulhu rd rs1 rs2 => asmRegs "MULHU" rd rs1 rs2
  | .div rd rs1 rs2 => asmRegs "DIV" rd rs1 rs2
  | .divu rd rs1 rs2 => asmRegs "DIVU" rd rs1 rs2
  | .rem rd rs1 rs2 => asmRegs "REM" rd rs1 rs2
  | .remu rd rs1 rs2 => asmRegs "REMU" rd rs1 rs2

/-- The pseudo-instructions of R103. -/
inductive Pseudo where
  /-- `NOP` -/
  | nop
  /-- `MV rd, rs` -/
  | mv (rd rs : RegIdx)
  /-- `NOT rd, rs` -/
  | not (rd rs : RegIdx)
  /-- `NEG rd, rs` -/
  | neg (rd rs : RegIdx)
  /-- `SEQZ rd, rs` -/
  | seqz (rd rs : RegIdx)
  /-- `SNEZ rd, rs` -/
  | snez (rd rs : RegIdx)
  /-- `SLTZ rd, rs` -/
  | sltz (rd rs : RegIdx)
  /-- `SGTZ rd, rs` -/
  | sgtz (rd rs : RegIdx)
  /-- `LI rd, imm` -/
  | li (rd : RegIdx) (imm : Word)
  /-- `LA rd, sym`, `sym` the address -/
  | la (rd : RegIdx) (sym : Word)
  /-- `BEQZ rs, off` -/
  | beqz (rs : RegIdx) (off : Word)
  /-- `BNEZ rs, off` -/
  | bnez (rs : RegIdx) (off : Word)
  /-- `BLEZ rs, off` -/
  | blez (rs : RegIdx) (off : Word)
  /-- `BGEZ rs, off` -/
  | bgez (rs : RegIdx) (off : Word)
  /-- `BLTZ rs, off` -/
  | bltz (rs : RegIdx) (off : Word)
  /-- `BGTZ rs, off` -/
  | bgtz (rs : RegIdx) (off : Word)
  /-- `BGT rs, rt, off` -/
  | bgt (rs rt : RegIdx) (off : Word)
  /-- `BLE rs, rt, off` -/
  | ble (rs rt : RegIdx) (off : Word)
  /-- `BGTU rs, rt, off` -/
  | bgtu (rs rt : RegIdx) (off : Word)
  /-- `BLEU rs, rt, off` -/
  | bleu (rs rt : RegIdx) (off : Word)
  /-- `J off` -/
  | j (off : Word)
  /-- `JAL off` -/
  | jalOff (off : Word)
  /-- `JR rs` -/
  | jr (rs : RegIdx)
  /-- `JALR rs` -/
  | jalrReg (rs : RegIdx)
  /-- `RET` -/
  | ret
  /-- `CALL off` -/
  | call (off : Word)
  /-- `TAIL off` -/
  | tail (off : Word)
  deriving DecidableEq, Repr

/-- lo = sext_12(imm[11:0]) (R103). -/
def loPart (imm : Word) : Word := (imm.extractLsb' 0 12).signExtend 32

/-- imm_U of hi = ((imm - lo) >> 12) & 0xFFFFF (R103): hi in bits 31:12. -/
def hiPart (imm : Word) : Word := (((imm - loPart imm) >>> 12) &&& 0xFFFFF#32) <<< 12

/-- The expansion of a pseudo-instruction that stands at address `pc` (R103; only LA uses the address). -/
def expandPseudo (pc : Word) : Pseudo → List Instr
  | .nop => [.addi 0 0 0]
  | .mv rd rs => [.addi rd rs 0]
  | .not rd rs => [.xori rd rs (-1)]
  | .neg rd rs => [.sub rd 0 rs]
  | .seqz rd rs => [.sltiu rd rs 1]
  | .snez rd rs => [.sltu rd 0 rs]
  | .sltz rd rs => [.slt rd rs 0]
  | .sgtz rd rs => [.slt rd 0 rs]
  | .li rd imm =>
    if immFits12 imm then [.addi rd 0 imm] else [.lui rd (hiPart imm), .addi rd rd (loPart imm)]
  | .la rd sym => [.auipc rd (hiPart (sym - pc)), .addi rd rd (loPart (sym - pc))]
  | .beqz rs off => [.beq rs 0 off]
  | .bnez rs off => [.bne rs 0 off]
  | .blez rs off => [.bge 0 rs off]
  | .bgez rs off => [.bge rs 0 off]
  | .bltz rs off => [.blt rs 0 off]
  | .bgtz rs off => [.blt 0 rs off]
  | .bgt rs rt off => [.blt rt rs off]
  | .ble rs rt off => [.bge rt rs off]
  | .bgtu rs rt off => [.bltu rt rs off]
  | .bleu rs rt off => [.bgeu rt rs off]
  | .j off => [.jal 0 off]
  | .jalOff off => [.jal 1 off]
  | .jr rs => [.jalr 0 rs 0]
  | .jalrReg rs => [.jalr 1 rs 0]
  | .ret => [.jalr 0 1 0]
  | .call off => [.auipc 1 (hiPart off), .jalr 1 1 (loPart off)]
  | .tail off => [.auipc 6 (hiPart off), .jalr 0 6 (loPart off)]

end Sys2Proof.Machine
end

