-- ==== Sys2Proof/Safety.lean ====
section
/-! DEFINITION. What claims are stated in: the invariant of a launched CORE, and safe runs. -/

namespace Sys2Proof.Machine

/-- Every listed byte of memory lies below MEM_SIZE (R50). -/
abbrev State.memInBounds (s : State) : Prop := ∀ c ∈ s.mem, c.1 < s.cfg.memSize

/-- The fault record is present exactly when Status is Faulted (R31, R250). -/
abbrev State.faultMatchesStatus (s : State) : Prop := s.status = .faulted ↔ s.fault ≠ none

/-- Where the PC lies in each run state: R27 while Running; R34 when Halted; R256 when Faulted: the offending PC for
InvalidJump, else the address of the faulting instruction. -/
def State.pcMatchesStatus (s : State) : Prop :=
  match s.status, s.fault with
  | .running, _ => s.pcInProgram
  | .halted, _ => s.pc.toNat % 4 = 0 ∧ (s.programLength ≤ s.pc.toNat ∨ (s.cfg.haltOnZeroPc = true ∧ s.pc = 0#32))
  | .faulted, some (.invalidJump p) => s.pc = p ∧ s.pc.toNat % 4 ≠ 0
  | .faulted, _ => s.pcInProgram

/-- Embedded mode: the cells above x15, which do not exist there, hold 0 (R21; log entry 8). -/
abbrev State.embeddedCellsZero (s : State) : Prop :=
  s.cfg.embedded = true → ∀ k : Fin 32, 16 ≤ k.val → s.regs[k.val]'k.isLt = 0#32

/-- What holds in every state of a launched CORE, between steps. -/
structure State.Inv (s : State) : Prop where
  /-- The launch conditions (R282). -/
  launch : s.launchOk
  /-- Memory keeps its canonical form. -/
  memWf : Memory.wf s.mem
  /-- Memory has no byte at or beyond MEM_SIZE (R50). -/
  memBound : s.memInBounds
  /-- The cell X[0] holds 0 (R22, R25). -/
  zeroCell : s.regs[0] = 0#32
  /-- Cells that do not exist hold 0 (R21). -/
  embedded : s.embeddedCellsZero
  /-- Faulted carries the fault, and no other state does (R31). -/
  faultRec : s.faultMatchesStatus
  /-- The PC is where the run state says (R27, R34, R256). -/
  pcOk : s.pcMatchesStatus
  /-- Taken is false between steps (R28, R39). -/
  noTransfer : s.transfer = none

/-- A state some number of steps from `s`. -/
inductive Reaches (s : State) : State → Prop where
  /-- No step. -/
  | refl : Reaches s s
  /-- One more step. -/
  | tail {t u : State} : Reaches s t → step t = .next u → Reaches s u

/-- No state reached from `s` is Faulted. -/
def State.Safe (s : State) : Prop := ∀ t, Reaches s t → t.status ≠ .faulted

end Sys2Proof.Machine
end

