-- ==== Sys2Proof/Certificates/Slice0/Obligations.lean ====
section
/-! DEFINITION. The statements for the provers, and the vocabulary they are written in. The vocabulary says what the rules of spec/
say in its own words, apart from the model's meanings: which registers a format reads and writes (R26), where an access and
a transfer go, which fault comes first (R257), and what the lines after Execute do (R33, R34). -/

namespace Sys2Proof.Claims

open Sys2Proof.Machine

/-! ### Vocabulary -/

/-- The word whose bytes lie at `a` to `a + 3`, the lowest address in bits 7:0 (R51, R56). -/
def wordAt (m : Memory) (a : Nat) : Word := m.read (a + 3) ++ m.read (a + 2) ++ m.read (a + 1) ++ m.read a

/-- A step is defined: lawful launch (R282), Running (R35), the PC a multiple of 4 below PROGRAM_LENGTH (R27). -/
def StepDefined (s : State) : Prop :=
  (4 ≤ s.cfg.memSize ∧ s.cfg.memSize ≤ 2 ^ 31 ∧ s.cfg.memSize % 4 = 0 ∧ s.programLength % 4 = 0 ∧
    s.programLength ≤ s.cfg.memSize) ∧
  s.status = .running ∧ s.pc.toNat % 4 = 0 ∧ s.pc.toNat < s.programLength

/-- The instruction raises `f` and has no other effect (R251). -/
def Raises (i : Instr) (s : State) (f : FaultRecord) : Prop :=
  exec i s = .next { s with status := .faulted, fault := some f }

/-- Everything but registers, memory and the transfer marks is unchanged: parameters, PC, Status, fault record,
PROGRAM_LENGTH. -/
def SameRest (s t : State) : Prop :=
  t.cfg = s.cfg ∧ t.pc = s.pc ∧ t.status = s.status ∧ t.fault = s.fault ∧ t.programLength = s.programLength

/-- Every register reads as before, except that `rd` reads `v` unless `rd` is x0 (R22 to R24). -/
def RegWritten (s t : State) (rd : RegIdx) (v : Word) : Prop :=
  ∀ j, t.reg j = if j = rd ∧ rd ≠ 0#5 then v else s.reg j

/-- Every byte of memory reads as before. -/
def SameMemory (s t : State) : Prop := ∀ a, t.mem.read a = s.mem.read a

/-- The only effect is that `rd` takes `v`. -/
def WritesOnly (s t : State) (rd : RegIdx) (v : Word) : Prop :=
  RegWritten s t rd v ∧ SameMemory s t ∧ SameRest s t ∧ t.transfer = s.transfer

/-- The only effect is that the `n` bytes at `a` take the low bytes of `v`, bits 7:0 at `a` (R54). -/
def StoresOnly (s t : State) (a n : Nat) (v : Word) : Prop :=
  (∀ c, t.mem.read c = if a ≤ c ∧ c < a + n then (v >>> (8 * (c - a))).setWidth 8 else s.mem.read c) ∧
  (∀ j, t.reg j = s.reg j) ∧ SameRest s t ∧ t.transfer = s.transfer

/-- The only effect is that NextPC is `p` and the Taken mark is set (R12, R28). -/
def TransfersOnly (s t : State) (p : Word) : Prop :=
  t.transfer = some p ∧ (∀ j, t.reg j = s.reg j) ∧ SameMemory s t ∧ SameRest s t

/-- The only effects are that `rd` takes `v` and control transfers to `p`. -/
def LinksOnly (s t : State) (rd : RegIdx) (v p : Word) : Prop :=
  t.transfer = some p ∧ RegWritten s t rd v ∧ SameMemory s t ∧ SameRest s t

/-- The access of `n` bytes at `a` is aligned and below MEM_SIZE (R53, R54, R55). -/
def AccessOk (s : State) (a : Word) (n : Nat) : Prop := a.toNat % n = 0 ∧ a.toNat + n ≤ s.cfg.memSize

/-- A register-immediate rule with an imm_I operand: the words of the row, the result, the faults in order. -/
def AluImmRule (mk : RegIdx → RegIdx → Word → Instr) (pattern : Word) (f : Word → Word → Word) : Prop :=
  (∀ w : Word, w &&& 0x0000707F#32 = pattern → decode w = .ok (mk (rdOf w) (rs1Of w) (immI w))) ∧
  ∀ (s : State) (rd rs1 : RegIdx) (imm : Word),
    (s.hasReg rs1 → s.hasReg rd → ∃ t, exec (mk rd rs1 imm) s = .next t ∧ WritesOnly s t rd (f (s.reg rs1) imm)) ∧
    (¬ s.hasReg rs1 → Raises (mk rd rs1 imm) s (.invalidRegister rs1)) ∧
    (s.hasReg rs1 → ¬ s.hasReg rd → Raises (mk rd rs1 imm) s (.invalidRegister rd))

/-- A shift-immediate rule: the words of the row, the result, the faults in order. -/
def ShiftImmRule (mk : RegIdx → RegIdx → BitVec 5 → Instr) (pattern : Word) (f : Word → Nat → Word) : Prop :=
  (∀ w : Word, w &&& 0xFE00707F#32 = pattern → decode w = .ok (mk (rdOf w) (rs1Of w) (rs2Of w))) ∧
  ∀ (s : State) (rd rs1 : RegIdx) (shamt : BitVec 5),
    (s.hasReg rs1 → s.hasReg rd →
      ∃ t, exec (mk rd rs1 shamt) s = .next t ∧ WritesOnly s t rd (f (s.reg rs1) shamt.toNat)) ∧
    (¬ s.hasReg rs1 → Raises (mk rd rs1 shamt) s (.invalidRegister rs1)) ∧
    (s.hasReg rs1 → ¬ s.hasReg rd → Raises (mk rd rs1 shamt) s (.invalidRegister rd))

/-- A register-register rule: the words of the row, the result, the faults in order. -/
def AluRegRule (mk : RegIdx → RegIdx → RegIdx → Instr) (pattern : Word) (f : Word → Word → Word) : Prop :=
  (∀ w : Word, w &&& 0xFE00707F#32 = pattern → decode w = .ok (mk (rdOf w) (rs1Of w) (rs2Of w))) ∧
  ∀ (s : State) (rd rs1 rs2 : RegIdx),
    (s.hasReg rs1 → s.hasReg rs2 → s.hasReg rd →
      ∃ t, exec (mk rd rs1 rs2) s = .next t ∧ WritesOnly s t rd (f (s.reg rs1) (s.reg rs2))) ∧
    (¬ s.hasReg rs1 → Raises (mk rd rs1 rs2) s (.invalidRegister rs1)) ∧
    (s.hasReg rs1 → ¬ s.hasReg rs2 → Raises (mk rd rs1 rs2) s (.invalidRegister rs2)) ∧
    (s.hasReg rs1 → s.hasReg rs2 → ¬ s.hasReg rd → Raises (mk rd rs1 rs2) s (.invalidRegister rd))

/-- A load rule of `n` bytes, `value` of the bytes at EA and up: the words of the row, the result, the faults in order. -/
def LoadRule (mk : RegIdx → RegIdx → Word → Instr) (pattern : Word) (n : Nat) (value : (Nat → Byte) → Word) : Prop :=
  (∀ w : Word, w &&& 0x0000707F#32 = pattern → decode w = .ok (mk (rdOf w) (rs1Of w) (immI w))) ∧
  ∀ (s : State) (rd rs1 : RegIdx) (imm : Word),
    (s.hasReg rs1 → AccessOk s (s.reg rs1 + imm) n → s.hasReg rd →
      ∃ t, exec (mk rd rs1 imm) s = .next t ∧
        WritesOnly s t rd (value fun k => s.mem.read ((s.reg rs1 + imm).toNat + k))) ∧
    (¬ s.hasReg rs1 → Raises (mk rd rs1 imm) s (.invalidRegister rs1)) ∧
    (s.hasReg rs1 → ¬ AccessOk s (s.reg rs1 + imm) n →
      Raises (mk rd rs1 imm) s (.invalidMemory (s.reg rs1 + imm) n n)) ∧
    (s.hasReg rs1 → AccessOk s (s.reg rs1 + imm) n → ¬ s.hasReg rd → Raises (mk rd rs1 imm) s (.invalidRegister rd))

/-- A store rule of `n` bytes: the words of the row, the bytes stored and nothing else, the faults in order. -/
def StoreRule (mk : RegIdx → RegIdx → Word → Instr) (pattern : Word) (n : Nat) : Prop :=
  (∀ w : Word, w &&& 0x0000707F#32 = pattern → decode w = .ok (mk (rs1Of w) (rs2Of w) (immS w))) ∧
  ∀ (s : State) (rs1 rs2 : RegIdx) (imm : Word), Memory.wf s.mem →
    (s.hasReg rs1 → s.hasReg rs2 → AccessOk s (s.reg rs1 + imm) n →
      ∃ t, exec (mk rs1 rs2 imm) s = .next t ∧ StoresOnly s t (s.reg rs1 + imm).toNat n (s.reg rs2)) ∧
    (¬ s.hasReg rs1 → Raises (mk rs1 rs2 imm) s (.invalidRegister rs1)) ∧
    (s.hasReg rs1 → ¬ s.hasReg rs2 → Raises (mk rs1 rs2 imm) s (.invalidRegister rs2)) ∧
    (s.hasReg rs1 → s.hasReg rs2 → ¬ AccessOk s (s.reg rs1 + imm) n →
      Raises (mk rs1 rs2 imm) s (.invalidMemory (s.reg rs1 + imm) n n))

/-- A branch rule: the words of the row, the transfer exactly when the condition holds, the faults in order. -/
def BranchRule (mk : RegIdx → RegIdx → Word → Instr) (pattern : Word) (cond : Word → Word → Prop) : Prop :=
  (∀ w : Word, w &&& 0x0000707F#32 = pattern → decode w = .ok (mk (rs1Of w) (rs2Of w) (immB w))) ∧
  ∀ (s : State) (rs1 rs2 : RegIdx) (imm : Word),
    (s.hasReg rs1 → s.hasReg rs2 → cond (s.reg rs1) (s.reg rs2) →
      ∃ t, exec (mk rs1 rs2 imm) s = .next t ∧ TransfersOnly s t (s.pc + imm)) ∧
    (s.hasReg rs1 → s.hasReg rs2 → ¬ cond (s.reg rs1) (s.reg rs2) → exec (mk rs1 rs2 imm) s = .next s) ∧
    (¬ s.hasReg rs1 → Raises (mk rs1 rs2 imm) s (.invalidRegister rs1)) ∧
    (s.hasReg rs1 → ¬ s.hasReg rs2 → Raises (mk rs1 rs2 imm) s (.invalidRegister rs2))

/-- An upper-immediate rule: the words of the row, the result, the fault. -/
def UpperRule (mk : RegIdx → Word → Instr) (pattern : Word) (value : State → Word → Word) : Prop :=
  (∀ w : Word, w &&& 0x0000007F#32 = pattern → decode w = .ok (mk (rdOf w) (immU w))) ∧
  ∀ (s : State) (rd : RegIdx) (imm : Word),
    (s.hasReg rd → ∃ t, exec (mk rd imm) s = .next t ∧ WritesOnly s t rd (value s imm)) ∧
    (¬ s.hasReg rd → Raises (mk rd imm) s (.invalidRegister rd))

/-- The registers an instruction reads, in order (the table of R26). -/
def readsOf : Instr → List RegIdx
  | .lui _ _ => []
  | .auipc _ _ => []
  | .jal _ _ => []
  | .jalr _ rs1 _ => [rs1]
  | .beq rs1 rs2 _ => [rs1, rs2]
  | .bne rs1 rs2 _ => [rs1, rs2]
  | .blt rs1 rs2 _ => [rs1, rs2]
  | .bge rs1 rs2 _ => [rs1, rs2]
  | .bltu rs1 rs2 _ => [rs1, rs2]
  | .bgeu rs1 rs2 _ => [rs1, rs2]
  | .lb _ rs1 _ => [rs1]
  | .lh _ rs1 _ => [rs1]
  | .lw _ rs1 _ => [rs1]
  | .lbu _ rs1 _ => [rs1]
  | .lhu _ rs1 _ => [rs1]
  | .sb rs1 rs2 _ => [rs1, rs2]
  | .sh rs1 rs2 _ => [rs1, rs2]
  | .sw rs1 rs2 _ => [rs1, rs2]
  | .addi _ rs1 _ => [rs1]
  | .slti _ rs1 _ => [rs1]
  | .sltiu _ rs1 _ => [rs1]
  | .xori _ rs1 _ => [rs1]
  | .ori _ rs1 _ => [rs1]
  | .andi _ rs1 _ => [rs1]
  | .slli _ rs1 _ => [rs1]
  | .srli _ rs1 _ => [rs1]
  | .srai _ rs1 _ => [rs1]
  | .add _ rs1 rs2 => [rs1, rs2]
  | .sub _ rs1 rs2 => [rs1, rs2]
  | .sll _ rs1 rs2 => [rs1, rs2]
  | .slt _ rs1 rs2 => [rs1, rs2]
  | .sltu _ rs1 rs2 => [rs1, rs2]
  | .xor _ rs1 rs2 => [rs1, rs2]
  | .srl _ rs1 rs2 => [rs1, rs2]
  | .sra _ rs1 rs2 => [rs1, rs2]
  | .or _ rs1 rs2 => [rs1, rs2]
  | .and _ rs1 rs2 => [rs1, rs2]
  | .mul _ rs1 rs2 => [rs1, rs2]
  | .mulh _ rs1 rs2 => [rs1, rs2]
  | .mulhsu _ rs1 rs2 => [rs1, rs2]
  | .mulhu _ rs1 rs2 => [rs1, rs2]
  | .div _ rs1 rs2 => [rs1, rs2]
  | .divu _ rs1 rs2 => [rs1, rs2]
  | .rem _ rs1 rs2 => [rs1, rs2]
  | .remu _ rs1 rs2 => [rs1, rs2]

/-- The register an instruction writes (the table of R26). -/
def writesOf : Instr → Option RegIdx
  | .lui rd _ => some rd
  | .auipc rd _ => some rd
  | .jal rd _ => some rd
  | .jalr rd _ _ => some rd
  | .beq _ _ _ => none
  | .bne _ _ _ => none
  | .blt _ _ _ => none
  | .bge _ _ _ => none
  | .bltu _ _ _ => none
  | .bgeu _ _ _ => none
  | .lb rd _ _ => some rd
  | .lh rd _ _ => some rd
  | .lw rd _ _ => some rd
  | .lbu rd _ _ => some rd
  | .lhu rd _ _ => some rd
  | .sb _ _ _ => none
  | .sh _ _ _ => none
  | .sw _ _ _ => none
  | .addi rd _ _ => some rd
  | .slti rd _ _ => some rd
  | .sltiu rd _ _ => some rd
  | .xori rd _ _ => some rd
  | .ori rd _ _ => some rd
  | .andi rd _ _ => some rd
  | .slli rd _ _ => some rd
  | .srli rd _ _ => some rd
  | .srai rd _ _ => some rd
  | .add rd _ _ => some rd
  | .sub rd _ _ => some rd
  | .sll rd _ _ => some rd
  | .slt rd _ _ => some rd
  | .sltu rd _ _ => some rd
  | .xor rd _ _ => some rd
  | .srl rd _ _ => some rd
  | .sra rd _ _ => some rd
  | .or rd _ _ => some rd
  | .and rd _ _ => some rd
  | .mul rd _ _ => some rd
  | .mulh rd _ _ => some rd
  | .mulhsu rd _ _ => some rd
  | .mulhu rd _ _ => some rd
  | .div rd _ _ => some rd
  | .divu rd _ _ => some rd
  | .rem rd _ _ => some rd
  | .remu rd _ _ => some rd

/-- The effective address and byte count of a memory access (R59, R60). -/
def accessOf (s : State) : Instr → Option (Word × Nat)
  | .lui _ _ => none
  | .auipc _ _ => none
  | .jal _ _ => none
  | .jalr _ _ _ => none
  | .beq _ _ _ => none
  | .bne _ _ _ => none
  | .blt _ _ _ => none
  | .bge _ _ _ => none
  | .bltu _ _ _ => none
  | .bgeu _ _ _ => none
  | .lb _ rs1 imm => some (s.reg rs1 + imm, 1)
  | .lh _ rs1 imm => some (s.reg rs1 + imm, 2)
  | .lw _ rs1 imm => some (s.reg rs1 + imm, 4)
  | .lbu _ rs1 imm => some (s.reg rs1 + imm, 1)
  | .lhu _ rs1 imm => some (s.reg rs1 + imm, 2)
  | .sb rs1 _ imm => some (s.reg rs1 + imm, 1)
  | .sh rs1 _ imm => some (s.reg rs1 + imm, 2)
  | .sw rs1 _ imm => some (s.reg rs1 + imm, 4)
  | .addi _ _ _ => none
  | .slti _ _ _ => none
  | .sltiu _ _ _ => none
  | .xori _ _ _ => none
  | .ori _ _ _ => none
  | .andi _ _ _ => none
  | .slli _ _ _ => none
  | .srli _ _ _ => none
  | .srai _ _ _ => none
  | .add _ _ _ => none
  | .sub _ _ _ => none
  | .sll _ _ _ => none
  | .slt _ _ _ => none
  | .sltu _ _ _ => none
  | .xor _ _ _ => none
  | .srl _ _ _ => none
  | .sra _ _ _ => none
  | .or _ _ _ => none
  | .and _ _ _ => none
  | .mul _ _ _ => none
  | .mulh _ _ _ => none
  | .mulhsu _ _ _ => none
  | .mulhu _ _ _ => none
  | .div _ _ _ => none
  | .divu _ _ _ => none
  | .rem _ _ _ => none
  | .remu _ _ _ => none

/-- Where a taken transfer goes: the branch's condition holds, or the instruction is a jump (R215 to R220, R230, R231). -/
def takenTarget (s : State) : Instr → Option Word
  | .lui _ _ => none
  | .auipc _ _ => none
  | .jal _ imm => some (s.pc + imm)
  | .jalr _ rs1 imm => some ((s.reg rs1 + imm) &&& 0xFFFFFFFE#32)
  | .beq rs1 rs2 imm => if s.reg rs1 = s.reg rs2 then some (s.pc + imm) else none
  | .bne rs1 rs2 imm => if s.reg rs1 ≠ s.reg rs2 then some (s.pc + imm) else none
  | .blt rs1 rs2 imm => if (s.reg rs1).toInt < (s.reg rs2).toInt then some (s.pc + imm) else none
  | .bge rs1 rs2 imm => if ¬ (s.reg rs1).toInt < (s.reg rs2).toInt then some (s.pc + imm) else none
  | .bltu rs1 rs2 imm => if (s.reg rs1).toNat < (s.reg rs2).toNat then some (s.pc + imm) else none
  | .bgeu rs1 rs2 imm => if ¬ (s.reg rs1).toNat < (s.reg rs2).toNat then some (s.pc + imm) else none
  | .lb _ _ _ => none
  | .lh _ _ _ => none
  | .lw _ _ _ => none
  | .lbu _ _ _ => none
  | .lhu _ _ _ => none
  | .sb _ _ _ => none
  | .sh _ _ _ => none
  | .sw _ _ _ => none
  | .addi _ _ _ => none
  | .slti _ _ _ => none
  | .sltiu _ _ _ => none
  | .xori _ _ _ => none
  | .ori _ _ _ => none
  | .andi _ _ _ => none
  | .slli _ _ _ => none
  | .srli _ _ _ => none
  | .srai _ _ _ => none
  | .add _ _ _ => none
  | .sub _ _ _ => none
  | .sll _ _ _ => none
  | .slt _ _ _ => none
  | .sltu _ _ _ => none
  | .xor _ _ _ => none
  | .srl _ _ _ => none
  | .sra _ _ _ => none
  | .or _ _ _ => none
  | .and _ _ _ => none
  | .mul _ _ _ => none
  | .mulh _ _ _ => none
  | .mulhsu _ _ _ => none
  | .mulhu _ _ _ => none
  | .div _ _ _ => none
  | .divu _ _ _ => none
  | .rem _ _ _ => none
  | .remu _ _ _ => none

/-- The fault of the write of rd, if any (R24). -/
def badDestination (s : State) (i : Instr) : Option FaultRecord :=
  match writesOf i with
  | some rd => if s.hasReg rd then none else some (.invalidRegister rd)
  | none => none

/-- The first fault of Execute by the order (2) to (5) of R257: rs1, rs2, memory, rd. -/
def executeFault (s : State) (i : Instr) : Option FaultRecord :=
  match (readsOf i).find? (fun k => !decide (s.hasReg k)) with
  | some k => some (.invalidRegister k)
  | none =>
    match accessOf s i with
    | some (a, n) => if a.toNat % n = 0 ∧ a.toNat + n ≤ s.cfg.memSize then badDestination s i else some (.invalidMemory a n n)
    | none => badDestination s i

/-- The PC after an instruction that did not raise in Execute (R28, R33). -/
def newPc (s : State) (i : Instr) : Word := (takenTarget s i).getD (s.pc + 4#32)

/-- The fault of a step by the whole order (1) to (6) of R257. -/
def stepFault (s : State) : Option FaultRecord :=
  match decode (wordAt s.mem s.pc.toNat) with
  | .invalidOp opcode funct3 funct7 => some (.invalidOp opcode funct3 funct7)
  | .ok i =>
    match executeFault s i with
    | some f => some f
    | none => if (newPc s i).toNat % 4 = 0 then none else some (.invalidJump (newPc s i))

/-- The lines of a step after an Execute that did not raise, written out (R25, R33, R34): X[0] becomes 0; the PC becomes
NextPC if a transfer was taken, else PC + 4; InvalidJump unless it is a multiple of 4; Terminate. -/
def afterExecute (u : State) : State :=
  let p := u.transfer.getD (u.pc + 4#32)
  let v : State := { u with regs := u.regs.set 0 0#32, pc := p, transfer := none }
  if p.toNat % 4 ≠ 0 then { v with status := .faulted, fault := some (.invalidJump p) }
  else if u.programLength ≤ p.toNat then { v with status := .halted }
  else if u.cfg.haltOnZeroPc = true ∧ p = 0#32 then { v with status := .halted }
  else v

/-- The instruction fetched and decoded at the PC. -/
def Runs (s : State) (i : Instr) : Prop := decode (wordAt s.mem s.pc.toNat) = .ok i

/-- The signed value of an `n`-bit field (R8). -/
def sextValue (n field : Nat) : Int := if field < 2 ^ (n - 1) then field else (field : Int) - 2 ^ n

/-- `w[hi:lo]` as a number, `len` bits from `lo` (R7). -/
def bitsOf (w : Word) (lo len : Nat) : Nat := w.toNat / 2 ^ lo % 2 ^ len

/-- Two states of an embedded CORE that agree on everything but the cells that do not exist there (R21). -/
def AgreeWhereRegistersExist (s t : State) : Prop :=
  t.cfg = s.cfg ∧ t.pc = s.pc ∧ t.mem = s.mem ∧ t.status = s.status ∧ t.fault = s.fault ∧
    t.programLength = s.programLength ∧ t.transfer = s.transfer ∧ ∀ i : RegIdx, i.toNat < 16 → t.reg i = s.reg i

/-- The stores with the bytes each moves (R60). -/
def storeForms : List ((RegIdx → RegIdx → Word → Instr) × Nat) := [(.sb, 1), (.sh, 2), (.sw, 4)]

/-- The loads with the bytes each moves and the value it makes of the bytes from its address up (R60, R180 to R184). -/
def loadForms : List ((RegIdx → RegIdx → Word → Instr) × Nat × ((Nat → Byte) → Word)) :=
  [(.lb, 1, fun m => (m 0).signExtend 32), (.lh, 2, fun m => (m 1 ++ m 0).signExtend 32),
   (.lw, 4, fun m => m 3 ++ m 2 ++ m 1 ++ m 0), (.lbu, 1, fun m => (m 0).setWidth 32),
   (.lhu, 2, fun m => (m 1 ++ m 0).setWidth 32)]

/-- The byte at `c` after the `n` bytes at `a` took the low bytes of `v` (R54). -/
def byteAfter (m : Memory) (a n : Nat) (v : Word) (c : Nat) : Byte :=
  if a ≤ c ∧ c < a + n then (v >>> (8 * (c - a))).setWidth 8 else m.read c

/-- What the CORE shows its host (R37): x0 to x(REG_COUNT-1), every byte below MEM_SIZE, the fault record when Faulted. -/
def ReadsOut (s : State) : Prop :=
  s.outRegs.length = (if s.cfg.embedded then 16 else 32) ∧
  (∀ k, k < (if s.cfg.embedded then 16 else 32) → s.outRegs[k]? = some (s.reg (BitVec.ofNat 5 k))) ∧
  (∀ a, s.outByte a = if a < s.cfg.memSize then some (s.mem.read a) else none) ∧
  s.outFault = (if s.status = .faulted then s.fault else none)

/-- Execute the instructions of a list one after another, without the lines of the step around them. -/
def execAll : List Instr → State → Host.Outcome State Machine.Fault Refusal
  | [], s => .next s
  | i :: rest, s =>
    match exec i s with
    | .next t => execAll rest t
    | .fault r => .fault r
    | .refused r => .refused r

end Sys2Proof.Claims

open Sys2Proof Sys2Proof.Machine Sys2Proof.Claims

/-! ### Encoding and decoding -/

/-- One word of every format, and of SUB, DIV and the shifts, decodes to the instruction whose encoding it is. (30_encoding.md R80, R91, R92, R96, 95_test_vectors.md section 2.) -/
def Obligations.SpecWordsDecode : Prop :=
  decode 0x123452B7#32 = .ok (.lui 5 0x12345000) ∧ decode 0x00001297#32 = .ok (.auipc 5 0x1000) ∧
  decode 0x008000EF#32 = .ok (.jal 1 8) ∧ decode 0x00008067#32 = .ok (.jalr 0 1 0) ∧
  decode 0xFE731EE3#32 = .ok (.bne 6 7 (-4)) ∧ decode 0x00231283#32 = .ok (.lh 5 6 2) ∧
  decode 0xFE732E23#32 = .ok (.sw 6 7 (-4)) ∧ decode 0xFFF30293#32 = .ok (.addi 5 6 (-1)) ∧
  decode 0x40435293#32 = .ok (.srai 5 6 4) ∧ decode 0x407302B3#32 = .ok (.sub 5 6 7) ∧
  decode 0x027342B3#32 = .ok (.div 5 6 7)

/-- For every word, the decoder's opcode, rd, funct3, rs1, rs2 and funct7 are bits 6:0, 11:7, 14:12, 19:15, 24:20 and 31:25, as numbers. (30_encoding.md R81.) -/
def Obligations.FieldsAreTheFixedBits : Prop :=
  ∀ w : Word,
    (opcodeOf w).toNat = bitsOf w 0 7 ∧ (rdOf w).toNat = bitsOf w 7 5 ∧ (funct3Of w).toNat = bitsOf w 12 3 ∧
    (rs1Of w).toNat = bitsOf w 15 5 ∧ (rs2Of w).toNat = bitsOf w 20 5 ∧ (funct7Of w).toNat = bitsOf w 25 7

/-- For every word, the signed values of imm_I, imm_S, imm_B and imm_J are the sign-extended concatenations of bits that R82, R83, R84 and R87 give, and imm_U is the word with its low 12 bits cleared (R86). (R82, R83, R84, R86, R87.) -/
def Obligations.ImmediatesAreTheFormulas : Prop :=
  ∀ w : Word,
    (immI w).toInt = sextValue 12 (bitsOf w 20 12) ∧
    (immS w).toInt = sextValue 12 (bitsOf w 25 7 * 2 ^ 5 + bitsOf w 7 5) ∧
    (immB w).toInt =
      sextValue 13 (bitsOf w 31 1 * 2 ^ 12 + bitsOf w 7 1 * 2 ^ 11 + bitsOf w 25 6 * 2 ^ 5 + bitsOf w 8 4 * 2) ∧
    immU w = w &&& 0xFFFFF000#32 ∧
    (immJ w).toInt =
      sextValue 21 (bitsOf w 31 1 * 2 ^ 20 + bitsOf w 12 8 * 2 ^ 12 + bitsOf w 20 1 * 2 ^ 11 + bitsOf w 21 10 * 2) ∧
    (-2048 ≤ (immI w).toInt ∧ (immI w).toInt ≤ 2047) ∧ (-2048 ≤ (immS w).toInt ∧ (immS w).toInt ≤ 2047) ∧
    ((immJ w).toNat % 2 = 0 ∧ -1048576 ≤ (immJ w).toInt ∧ (immJ w).toInt ≤ 1048574)

/-- For every word imm_B is even and lies in -4096 to 4094; a word with bit 8 set gives an offset that is 2 modulo 4, and from a PC that is a multiple of 4 its target is 2 modulo 4. (30_encoding.md R85.) -/
def Obligations.BranchOffsetRange : Prop :=
  ∀ w : Word,
    ((immB w).toNat % 2 = 0 ∧ -4096 ≤ (immB w).toInt ∧ (immB w).toInt ≤ 4094) ∧
    (bitsOf w 8 1 = 1 → (immB w).toNat % 4 = 2 ∧
      ∀ pc : Word, pc.toNat % 4 = 0 → (pc + immB w).toNat % 4 = 2)

/-- For every word, an imm_I field of 0x800 gives 0xFFFFF800 (-2048), 0x7FF gives 0x000007FF, and 0xFFF gives 0xFFFFFFFF. (R89.) -/
def Obligations.SignExtensionAtTheEdges : Prop :=
  ∀ w : Word,
    (bitsOf w 20 12 = 0x800 → immI w = 0xFFFFF800#32 ∧ (immI w).toInt = -2048) ∧
    (bitsOf w 20 12 = 0x7FF → immI w = 0x000007FF#32) ∧
    (bitsOf w 20 12 = 0xFFF → immI w = 0xFFFFFFFF#32)

/-- For every well-formed instruction, with every operand at every value its encoding admits, decoding its encoded word gives exactly that instruction. (30_encoding.md R80, R82 to R88, R92, R96.) -/
def Obligations.DecodeOfEncodeIsTheInstruction : Prop :=
  ∀ i : Instr, i.wf = true → decode (encode i) = .ok i

/-- For every word that decodes to an instruction, that instruction is well formed and its encoding is the word: no bit of a decodable word is dropped. (30_encoding.md R80 to R96.) -/
def Obligations.EncodeOfDecodeIsTheWord : Prop :=
  ∀ (w : Word) (i : Instr), decode w = .ok i → i.wf = true ∧ encode i = w

/-- For every word and every row of the opcode table, the word's masked bits are the row's match exactly when it decodes to an instruction of that row's mnemonic. (30_encoding.md R91, R92, R96, opcode_table.json.) -/
def Obligations.DecodeFollowsTheOpcodeTable : Prop :=
  ∀ (w : Word) (r : OpcodeRow), r ∈ opcodeTable →
    (w &&& r.mask = r.pattern ↔ ∃ i, decode w = .ok i ∧ i.mnemonic = r.mnemonic)

/-- A word with no row's fixed bits is rejected with bits 6:0, 14:12 and 31:25, the all-zero and all-ones words among them, and a step that fetches it records InvalidOp with them and changes nothing else: PC, registers and memory stay. (R97, R255.) -/
def Obligations.UndefinedWordsRaiseInvalidOp : Prop :=
  (∀ w : Word, (∀ r ∈ opcodeTable, w &&& r.mask ≠ r.pattern) →
    decode w = .invalidOp (w.extractLsb' 0 7) (w.extractLsb' 12 3) (w.extractLsb' 25 7)) ∧
  decode 0x00000000#32 = .invalidOp 0x00 0 0x00 ∧ decode 0xFFFFFFFF#32 = .invalidOp 0x7F 7 0x7F ∧
  ∀ (s : State) (opcode : BitVec 7) (funct3 : BitVec 3) (funct7 : BitVec 7), StepDefined s →
    decode (wordAt s.mem s.pc.toNat) = .invalidOp opcode funct3 funct7 →
    step s = .next { s with status := .faulted, fault := some (.invalidOp opcode funct3 funct7), transfer := none }

/-- Every word with opcode 0x0F, 0x73, 0x2F, 0x1B, 0x3B, 0x0B, 0x2B, 0x5B or 0x7B, and every word whose bits 1:0 are not 11, decodes to InvalidOp with its own fields; the FENCE, ECALL and EBREAK words of R241 and R242 give the stated payloads. (30_encoding.md R98, R100, 48_system.md R241, R242.) -/
def Obligations.SystemOpcodesAreInvalid : Prop :=
  (∀ w : Word, (bitsOf w 0 7 ∈ [0x0F, 0x73, 0x2F, 0x1B, 0x3B, 0x0B, 0x2B, 0x5B, 0x7B] ∨ bitsOf w 0 2 ≠ 3) →
    decode w = .invalidOp (opcodeOf w) (funct3Of w) (funct7Of w)) ∧
  decode 0x0FF0000F#32 = .invalidOp 0x0F 0 0x07 ∧ decode 0x00000073#32 = .invalidOp 0x73 0 0x00 ∧
  decode 0x00100073#32 = .invalidOp 0x73 0 0x00

/-! ### Registers and memory -/

/-- For every state and index: an index at or beyond REG_COUNT (16 if EMBEDDED, else 32) raises InvalidRegister with it; index 0 reads 0; any other reads its cell. (R23.) -/
def Obligations.RegisterReadRule : Prop :=
  ∀ (s : State) (i : RegIdx),
    ((if s.cfg.embedded then 16 else 32) ≤ i.toNat → regRead s i = .error (.invalidRegister i)) ∧
    (i.toNat < (if s.cfg.embedded then 16 else 32) →
      regRead s i = .ok (if i = 0#5 then 0#32 else s.regs[i.toNat]'i.isLt))

/-- For every state, index and value: a write outside the file raises InvalidRegister; otherwise the next state differs in that cell alone, reading the index gives the value (0 for x0), and every other register reads as before. That the cell of x0 holds the value until the step re-zeroes it is the model's choice (log entry 7). (10_state.md R22, R24, 93_implementation_defined.md I8.) -/
def Obligations.RegisterWriteThenRead : Prop :=
  ∀ (s : State) (i : RegIdx) (v : Word),
    ((if s.cfg.embedded then 16 else 32) ≤ i.toNat → regWrite s i v = .error (.invalidRegister i)) ∧
    (i.toNat < (if s.cfg.embedded then 16 else 32) →
      ∃ t, regWrite s i v = .ok t ∧ t = { s with regs := t.regs } ∧ t.regs[i.toNat]'i.isLt = v ∧
        (∀ k : Fin 32, k.val ≠ i.toNat → t.regs[k.val]'k.isLt = s.regs[k.val]'k.isLt) ∧
        ∀ j, t.reg j = if j = 0#5 then 0#32 else if j = i then v else s.reg j)

/-- For every state, address and width of 1, 2 or 4 bytes: a misaligned access or one that reaches MEM_SIZE raises InvalidMemory with address, width and alignment; otherwise byte k of the value is the memory byte at the address plus k, and the bits above are zero. (R53.) -/
def Obligations.MemoryReadRule : Prop :=
  ∀ (s : State) (a : Word) (n : Width),
    (¬ (a.toNat % n.bytes = 0 ∧ a.toNat + n.bytes ≤ s.cfg.memSize) →
      memRead s a n = .error (.invalidMemory a n.bytes n.bytes)) ∧
    (a.toNat % n.bytes = 0 → a.toNat + n.bytes ≤ s.cfg.memSize →
      ∃ v, memRead s a n = .ok v ∧
        ∀ k < 4, (v >>> (8 * k)).setWidth 8 = if k < n.bytes then s.mem.read (a.toNat + k) else 0#8)

/-- For every state with canonical memory, address, width and value: a misaligned or out-of-bounds write raises InvalidMemory; otherwise byte k at the address plus k is bits 8k+7:8k, every other byte and all other state is as before, and the memory stays canonical. (R54.) -/
def Obligations.MemoryWriteRule : Prop :=
  ∀ (s : State) (a : Word) (n : Width) (v : Word), Memory.wf s.mem →
    (¬ (a.toNat % n.bytes = 0 ∧ a.toNat + n.bytes ≤ s.cfg.memSize) →
      memWrite s a n v = .error (.invalidMemory a n.bytes n.bytes)) ∧
    (a.toNat % n.bytes = 0 → a.toNat + n.bytes ≤ s.cfg.memSize →
      ∃ t, memWrite s a n v = .ok t ∧ t = { s with mem := t.mem } ∧ Memory.wf t.mem ∧
        ∀ c, t.mem.read c =
          if a.toNat ≤ c ∧ c < a.toNat + n.bytes then (v >>> (8 * (c - a.toNat))).setWidth 8 else s.mem.read c)

/-- Under the launch conditions, an aligned access of 1, 2 or 4 bytes ends at or below MEM_SIZE exactly when its address is below MEM_SIZE. (20_memory.md R55.) -/
def Obligations.AlignedAccessInBounds : Prop :=
  ∀ (s : State) (a : Word) (n : Width), s.launchOk → a.toNat % n.bytes = 0 →
    (a.toNat + n.bytes ≤ s.cfg.memSize ↔ a.toNat < s.cfg.memSize)

/-! ### The instructions: words, results, frames, faults, and that they complete -/

/-- For each of the six: every word of its row decodes to it with rd, rs1 and imm_I; when rs1 and rd exist it answers a next state whose only change is rd taking the result (rd = x0 reads 0 still), for every operand value; InvalidRegister for rs1 comes before InvalidRegister for rd. (R120, R121, R122, R123, R124, R125.) -/
def Obligations.ImmediateAluRules : Prop :=
  AluImmRule .addi 0x00000013 (fun a imm => a + imm) ∧
  AluImmRule .slti 0x00002013 (fun a imm => if a.toInt < imm.toInt then 1#32 else 0#32) ∧
  AluImmRule .sltiu 0x00003013 (fun a imm => if a.toNat < imm.toNat then 1#32 else 0#32) ∧
  AluImmRule .xori 0x00004013 (fun a imm => a ^^^ imm) ∧
  AluImmRule .ori 0x00006013 (fun a imm => a ||| imm) ∧
  AluImmRule .andi 0x00007013 (fun a imm => a &&& imm)

/-- For each of the three: every word of its row decodes to it with bits 24:20 as the amount, and any other funct7 is InvalidOp; the result is x[rs1] times 2^shamt modulo 2^32, x[rs1] divided by 2^shamt rounding down, or the same of the signed value; nothing else changes; faults come in order rs1, rd. (R126, R127, R128.) -/
def Obligations.ShiftImmediateRules : Prop :=
  ShiftImmRule .slli 0x00001013 (fun a n => BitVec.ofNat 32 (a.toNat * 2 ^ n)) ∧
  ShiftImmRule .srli 0x00005013 (fun a n => BitVec.ofNat 32 (a.toNat / 2 ^ n)) ∧
  ShiftImmRule .srai 0x40005013 (fun a n => BitVec.ofInt 32 (a.toInt / 2 ^ n)) ∧
  ∀ w : Word,
    (opcodeOf w = 0x13#7 → funct3Of w = 1#3 → funct7Of w ≠ 0x00#7 → decode w = .invalidOp 0x13#7 1#3 (funct7Of w)) ∧
    (opcodeOf w = 0x13#7 → funct3Of w = 5#3 → funct7Of w ≠ 0x00#7 → funct7Of w ≠ 0x20#7 →
      decode w = .invalidOp 0x13#7 5#3 (funct7Of w))

/-- For each of the ten: every word of its row decodes to it with rd, rs1 and rs2; when the three exist it answers a next state whose only change is rd taking the result, shift amounts being x[rs2] modulo 32; faults come in order rs1, rs2, rd. (R140, R141, R142, R143, R144, R145, R146, R147, R148, R149.) -/
def Obligations.RegisterAluRules : Prop :=
  AluRegRule .add 0x00000033 (fun a b => a + b) ∧
  AluRegRule .sub 0x40000033 (fun a b => a - b) ∧
  AluRegRule .sll 0x00001033 (fun a b => BitVec.ofNat 32 (a.toNat * 2 ^ (b.toNat % 32))) ∧
  AluRegRule .slt 0x00002033 (fun a b => if a.toInt < b.toInt then 1#32 else 0#32) ∧
  AluRegRule .sltu 0x00003033 (fun a b => if a.toNat < b.toNat then 1#32 else 0#32) ∧
  AluRegRule .xor 0x00004033 (fun a b => a ^^^ b) ∧
  AluRegRule .srl 0x00005033 (fun a b => BitVec.ofNat 32 (a.toNat / 2 ^ (b.toNat % 32))) ∧
  AluRegRule .sra 0x40005033 (fun a b => BitVec.ofInt 32 (a.toInt / 2 ^ (b.toNat % 32))) ∧
  AluRegRule .or 0x00006033 (fun a b => a ||| b) ∧
  AluRegRule .and 0x00007033 (fun a b => a &&& b)

/-- For each of the four: every word of its row decodes to it; when the registers exist rd takes the low word, or bits 63:32 of the exact product (signed by signed, signed by unsigned, unsigned by unsigned) as the 64-bit two's complement product, and nothing else changes; faults come in order rs1, rs2, rd. (R160, R161, R162, R163.) -/
def Obligations.MultiplyRules : Prop :=
  AluRegRule .mul 0x02000033 (fun a b => a * b) ∧
  AluRegRule .mulh 0x02001033 (fun a b => (a.signExtend 64 * b.signExtend 64).extractLsb' 32 32) ∧
  AluRegRule .mulhsu 0x02002033 (fun a b => (a.signExtend 64 * b.setWidth 64).extractLsb' 32 32) ∧
  AluRegRule .mulhu 0x02003033 (fun a b => (a.setWidth 64 * b.setWidth 64).extractLsb' 32 32)

/-- For each of the four: every word of its row decodes to it; when the registers exist rd takes the quotient rounded toward zero or the remainder of that quotient, all ones and the dividend for divisor 0, 0x80000000 and 0 for the signed overflow, and nothing else changes; never a fault but InvalidRegister, in order rs1, rs2, rd. (R164, R165, R166, R167.) -/
def Obligations.DivideRules : Prop :=
  AluRegRule .div 0x02004033 (fun a b =>
    if b = 0#32 then 0xFFFFFFFF#32
    else if a = 0x80000000#32 ∧ b = 0xFFFFFFFF#32 then 0x80000000#32
    else BitVec.ofInt 32 (a.toInt.tdiv b.toInt)) ∧
  AluRegRule .divu 0x02005033 (fun a b => if b = 0#32 then 0xFFFFFFFF#32 else BitVec.ofNat 32 (a.toNat / b.toNat)) ∧
  AluRegRule .rem 0x02006033 (fun a b =>
    if b = 0#32 then a
    else if a = 0x80000000#32 ∧ b = 0xFFFFFFFF#32 then 0#32
    else BitVec.ofInt 32 (a.toInt.tmod b.toInt)) ∧
  AluRegRule .remu 0x02007033 (fun a b => if b = 0#32 then a else BitVec.ofNat 32 (a.toNat % b.toNat))

/-- For each of the five: every word of its row decodes to it; when rs1 and rd exist and EA = x[rs1] + imm is aligned and in bounds, rd takes the bytes at EA little-endian, sign- or zero-extended, and nothing else changes; faults come in order rs1, memory with (EA, n, n), rd, also for rd = x0. (R180, R181, R182, R183, R184.) -/
def Obligations.LoadRules : Prop :=
  LoadRule .lb 0x00000003 1 (fun m => (m 0).signExtend 32) ∧
  LoadRule .lh 0x00001003 2 (fun m => (m 1 ++ m 0).signExtend 32) ∧
  LoadRule .lw 0x00002003 4 (fun m => m 3 ++ m 2 ++ m 1 ++ m 0) ∧
  LoadRule .lbu 0x00004003 1 (fun m => (m 0).setWidth 32) ∧
  LoadRule .lhu 0x00005003 2 (fun m => (m 1 ++ m 0).setWidth 32)

/-- For each of the three, in every state with canonical memory: every word of its row decodes to it; when rs1 and rs2 exist and EA = x[rs1] + imm is aligned and in bounds, the n bytes from EA take the low bytes of x[rs2] little-endian, every other byte, every register and all other state stay; faults come in order rs1, rs2, memory with (EA, n, n), which writes no byte. (R195, R196, R197.) -/
def Obligations.StoreRules : Prop :=
  StoreRule .sb 0x00000023 1 ∧ StoreRule .sh 0x00001023 2 ∧ StoreRule .sw 0x00002023 4

/-- Every word of either row decodes to it with rd and imm_U; when rd exists the only change is rd taking imm_U, or the instruction's own address plus imm_U modulo 2^32; otherwise InvalidRegister for rd. (R210, R211.) -/
def Obligations.UpperImmediateRules : Prop :=
  UpperRule .lui 0x00000037 (fun _ imm => imm) ∧ UpperRule .auipc 0x00000017 (fun s imm => s.pc + imm)

/-- For each of the six: every word of its row decodes to it with rs1, rs2 and imm_B; when both registers exist, Execute transfers to pc + imm and changes nothing else if the condition holds, and changes nothing at all if it does not; faults come in order rs1, rs2. (The InvalidJump check of the step is a statement of its own.) (46_branches.md R215 to R220, 10_state.md R26, R28.) -/
def Obligations.BranchRules : Prop :=
  BranchRule .beq 0x00000063 (fun a b => a = b) ∧
  BranchRule .bne 0x00001063 (fun a b => a ≠ b) ∧
  BranchRule .blt 0x00004063 (fun a b => a.toInt < b.toInt) ∧
  BranchRule .bge 0x00005063 (fun a b => ¬ a.toInt < b.toInt) ∧
  BranchRule .bltu 0x00006063 (fun a b => a.toNat < b.toNat) ∧
  BranchRule .bgeu 0x00007063 (fun a b => ¬ a.toNat < b.toNat)

/-- Every word of either row decodes to it, and JALR with funct3 not 0 is InvalidOp; when the registers exist rd takes pc + 4 and control transfers to pc + imm, or to (old x[rs1] + imm) with bit 0 cleared, also when rd = rs1; nothing else changes; faults come in order rs1, rd. (47_jumps.md R230, R231.) -/
def Obligations.JumpRules : Prop :=
  (∀ w : Word, w &&& 0x0000007F#32 = 0x0000006F#32 → decode w = .ok (.jal (rdOf w) (immJ w))) ∧
  (∀ w : Word, w &&& 0x0000707F#32 = 0x00000067#32 → decode w = .ok (.jalr (rdOf w) (rs1Of w) (immI w))) ∧
  (∀ w : Word, opcodeOf w = 0x67#7 → funct3Of w ≠ 0#3 → decode w = .invalidOp 0x67#7 (funct3Of w) (funct7Of w)) ∧
  ∀ (s : State) (rd rs1 : RegIdx) (imm : Word),
    (s.hasReg rd → ∃ t, exec (.jal rd imm) s = .next t ∧ LinksOnly s t rd (s.pc + 4#32) (s.pc + imm)) ∧
    (¬ s.hasReg rd → Raises (.jal rd imm) s (.invalidRegister rd)) ∧
    (s.hasReg rs1 → s.hasReg rd →
      ∃ t p, exec (.jalr rd rs1 imm) s = .next t ∧ LinksOnly s t rd (s.pc + 4#32) p ∧
        p.toNat = (s.reg rs1 + imm).toNat / 2 * 2) ∧
    (¬ s.hasReg rs1 → Raises (.jalr rd rs1 imm) s (.invalidRegister rs1)) ∧
    (s.hasReg rs1 → ¬ s.hasReg rd → Raises (.jalr rd rs1 imm) s (.invalidRegister rd))

/-! ### Laws of the arithmetic -/

/-- For every state and existing registers with rd not x0, the results q of DIV and r of REM satisfy q * b + r = a modulo 2^32, and so do DIVU and REMU, division by zero and signed overflow included; when b is not 0 the signed remainder is smaller than b in magnitude and is 0 or has the dividend's sign, and the unsigned remainder is below b. (42_muldiv.md R164 to R167, 00_scope.md R9.) -/
def Obligations.DivisionIdentity : Prop :=
  ∀ (s : State) (rd rs1 rs2 : RegIdx), s.hasReg rs1 → s.hasReg rs2 → s.hasReg rd → rd ≠ 0#5 →
    ∃ q r qu ru, exec (.div rd rs1 rs2) s = .next q ∧ exec (.rem rd rs1 rs2) s = .next r ∧
      exec (.divu rd rs1 rs2) s = .next qu ∧ exec (.remu rd rs1 rs2) s = .next ru ∧
      q.reg rd * s.reg rs2 + r.reg rd = s.reg rs1 ∧ qu.reg rd * s.reg rs2 + ru.reg rd = s.reg rs1 ∧
      (s.reg rs2 ≠ 0#32 →
        (r.reg rd).toInt.natAbs < (s.reg rs2).toInt.natAbs ∧
        ((r.reg rd).toInt = 0 ∨ ((r.reg rd).toInt < 0 ↔ (s.reg rs1).toInt < 0)) ∧
        (ru.reg rd).toNat < (s.reg rs2).toNat)

/-- For every state and existing registers with rd not x0: 2^32 times the MULH, MULHSU or MULHU result (signed, signed, unsigned) plus the MUL result unsigned is the exact product of the operands read signed, signed by unsigned, or unsigned. (42_muldiv.md R160 to R163.) -/
def Obligations.MultiplyHalvesMakeTheProduct : Prop :=
  ∀ (s : State) (rd rs1 rs2 : RegIdx), s.hasReg rs1 → s.hasReg rs2 → s.hasReg rd → rd ≠ 0#5 →
    ∃ l h hsu hu, exec (.mul rd rs1 rs2) s = .next l ∧ exec (.mulh rd rs1 rs2) s = .next h ∧
      exec (.mulhsu rd rs1 rs2) s = .next hsu ∧ exec (.mulhu rd rs1 rs2) s = .next hu ∧
      (h.reg rd).toInt * 2 ^ 32 + (l.reg rd).toNat = (s.reg rs1).toInt * (s.reg rs2).toInt ∧
      (hsu.reg rd).toInt * 2 ^ 32 + (l.reg rd).toNat = (s.reg rs1).toInt * (s.reg rs2).toNat ∧
      (hu.reg rd).toNat * 2 ^ 32 + (l.reg rd).toNat = (s.reg rs1).toNat * (s.reg rs2).toNat

/-- In every state with canonical memory, for each of SB, SH, SW and then each of LB, LH, LW, LBU, LHU, existing registers and any two offsets whose effective addresses are aligned and in bounds for their widths: both answer a next state, and rd (unless x0) holds the loaded bytes little-endian, sign- or zero-extended, each being byte k of the stored value where it lies k above the stored address within the stored width, and the byte of memory before the store elsewhere. (20_memory.md R51, R52, R63, 43_loads.md R180 to R184, 44_stores.md R195 to R197.) -/
def Obligations.StoreThenLoadAtAnyWidth : Prop :=
  ∀ st ∈ storeForms, ∀ ld ∈ loadForms, ∀ (s : State) (rs1 rs2 rb rd : RegIdx) (imm off : Word), Memory.wf s.mem →
    s.hasReg rs1 → s.hasReg rs2 → s.hasReg rb → s.hasReg rd →
    AccessOk s (s.reg rs1 + imm) st.2 → AccessOk s (s.reg rb + off) ld.2.1 →
    ∃ t u, exec (st.1 rs1 rs2 imm) s = .next t ∧ exec (ld.1 rd rb off) t = .next u ∧
      u.reg rd = if rd = 0#5 then 0#32 else
        ld.2.2 fun k => byteAfter s.mem (s.reg rs1 + imm).toNat st.2 (s.reg rs2) ((s.reg rb + off).toNat + k)

/-! ### The step -/

/-- When a step is defined and the bytes at the PC decode to an instruction whose Execute (with Taken false) answers u: if it raised, the step ends in u; otherwise X[0] becomes 0, the PC becomes NextPC or PC + 4, a PC not a multiple of 4 raises InvalidJump, and else the run halts at or beyond PROGRAM_LENGTH, or at 0 when HALT_ON_ZERO_PC is true. When they decode to no instruction the step raises InvalidOp. (R25, R33, R34.) -/
def Obligations.StepRunsTheDecodedInstruction : Prop :=
  ∀ s : State, StepDefined s →
    (∀ (i : Instr) (u : State), Runs s i → exec i { s with transfer := none } = .next u →
      (u.status = .faulted → step s = .next { u with transfer := none }) ∧
      (u.status ≠ .faulted → step s = .next (afterExecute u))) ∧
    ∀ (opcode : BitVec 7) (funct3 : BitVec 3) (funct7 : BitVec 7),
      decode (wordAt s.mem s.pc.toNat) = .invalidOp opcode funct3 funct7 →
      step s = .next { s with status := .faulted, fault := some (.invalidOp opcode funct3 funct7), transfer := none }

/-- In every state the fetched word is M[PC] | M[PC+1] << 8 | M[PC+2] << 16 | M[PC+3] << 24. (20_memory.md R51, R56.) -/
def Obligations.FetchReadsTheWordAtThePc : Prop :=
  ∀ s : State, fetch s = wordAt s.mem s.pc.toNat

/-- Whenever a step runs an instruction that raises neither InvalidRegister nor InvalidMemory, the new PC is the target of the taken branch or jump, also when that is the PC itself, and PC + 4 modulo 2^32 otherwise; the transfer mark is not visible after the step. (R28.) -/
def Obligations.NewPcIsTargetOrPlusFour : Prop :=
  ∀ (s t : State) (i : Instr), step s = .next t → Runs s i → executeFault s i = none →
    t.pc = newPc s i ∧ t.transfer = none

/-- After every step that did not fault, Status is Halted exactly when the PC is at or beyond PROGRAM_LENGTH, or is 0 with HALT_ON_ZERO_PC true; otherwise it is Running. (R34.) -/
def Obligations.TerminationRule : Prop :=
  ∀ s t : State, step s = .next t → t.status ≠ .faulted →
    (t.status = .halted ↔ t.programLength ≤ t.pc.toNat ∨ (t.cfg.haltOnZeroPc = true ∧ t.pc = 0#32)) ∧
    (t.status ≠ .halted → t.status = .running)

/-- When a step takes a branch or JAL whose target pc + offset is below 0 (offset at least -1048576), the PC wraps to at least 2^32 - 2^20 and the step ends Halted if the target is a multiple of 4 and Faulted with InvalidJump otherwise. (10_state.md R29.) -/
def Obligations.WrappedTargetsEndTheRun : Prop :=
  ∀ (s t : State) (i : Instr) (offset : Word), step s = .next t → Runs s i → executeFault s i = none →
    takenTarget s i = some (s.pc + offset) → -1048576 ≤ offset.toInt → (s.pc.toNat : Int) + offset.toInt < 0 →
    2 ^ 32 - 2 ^ 20 ≤ t.pc.toNat ∧
    (t.pc.toNat % 4 = 0 → t.status = .halted) ∧
    (t.pc.toNat % 4 ≠ 0 → t.status = .faulted ∧ t.fault = some (.invalidJump (s.pc + offset)))

/-- In every state that meets the invariant, a step that runs a taken branch whose target is its own address, or a JAL or JALR with rd = x0 whose target is, and that raises no fault in Execute, gives the same state again, unless it returns to PC 0 with HALT_ON_ZERO_PC true; JAL x0, 0 and BEQ, BGE and BGEU of an existing register with itself and offset 0 are such. (10_state.md R28, 46_branches.md R215 to R220, 47_jumps.md R230, R231.) -/
def Obligations.JumpToItselfLoops : Prop :=
  ∀ s : State, s.Inv → s.status = .running → ¬ (s.cfg.haltOnZeroPc = true ∧ s.pc = 0#32) →
    (∀ i, Runs s i → executeFault s i = none → takenTarget s i = some s.pc →
      (writesOf i = none ∨ writesOf i = some 0#5) → step s = .next s) ∧
    (Runs s (.jal 0#5 0#32) → step s = .next s) ∧
    ∀ r, s.hasReg r → (Runs s (.beq r r 0#32) ∨ Runs s (.bge r r 0#32) ∨ Runs s (.bgeu r r 0#32)) → step s = .next s

/-- When a step runs SB, SH or SW in a state with canonical memory, PROGRAM_LENGTH is as before; if it raises no fault in Execute, each of the four bytes the next fetch reads is the stored byte where it lies among the stored ones and the byte of memory before the step elsewhere, and an SW to the PC after the step makes the next fetch the stored value. (20_memory.md R56, R66.) -/
def Obligations.StoresReachTheNextFetch : Prop :=
  ∀ st ∈ storeForms, ∀ (s t : State) (rs1 rs2 : RegIdx) (imm : Word), Memory.wf s.mem → step s = .next t →
    Runs s (st.1 rs1 rs2 imm) →
    t.programLength = s.programLength ∧
    (executeFault s (st.1 rs1 rs2 imm) = none →
      (∀ k < 4, (fetch t >>> (8 * k)).setWidth 8 =
        byteAfter s.mem (s.reg rs1 + imm).toNat st.2 (s.reg rs2) (t.pc.toNat + k)) ∧
      (st.2 = 4 → s.reg rs1 + imm = t.pc → fetch t = s.reg rs2))

/-- In every state with canonical memory, if a byte of memory reads differently after a step, the step ran SB, SH or SW and the byte lies among the n bytes from its effective address x[rs1] + imm. (20_memory.md R50, R54, R60, 44_stores.md R195 to R197.) -/
def Obligations.MemoryChangesOnlyByStores : Prop :=
  ∀ (s t : State) (a : Nat), Memory.wf s.mem → step s = .next t → t.mem.read a ≠ s.mem.read a →
    ∃ i ea n, Runs s i ∧ writesOf i = none ∧ accessOf s i = some (ea, n) ∧ ea.toNat ≤ a ∧ a < ea.toNat + n

/-- If a register reads differently after a step, the step ran an instruction whose format writes that register as rd, and it is not x0. (10_state.md R22, R26.) -/
def Obligations.RegistersChangeOnlyByDestination : Prop :=
  ∀ (s t : State) (j : RegIdx), step s = .next t → t.reg j ≠ s.reg j →
    j ≠ 0#5 ∧ ∃ i, Runs s i ∧ writesOf i = some j

/-- Whatever a step runs and however it ends, the parameters and PROGRAM_LENGTH after it are those before it. (R6.) -/
def Obligations.ParametersNeverChange : Prop :=
  ∀ s t : State, step s = .next t → t.cfg = s.cfg ∧ t.programLength = s.programLength

/-! ### Faults -/

/-- For every step from a state with no fault record: the fault recorded is the first that applies of InvalidOp, InvalidRegister rs1, InvalidRegister rs2, InvalidMemory, InvalidRegister rd, InvalidJump, with its payload, and none if none applies; Status is Faulted exactly when one is recorded. (R257.) -/
def Obligations.FaultByPriority : Prop :=
  ∀ s t : State, step s = .next t → s.fault = none →
    t.fault = stepFault s ∧ (t.status = .faulted ↔ t.fault ≠ none)

/-- For every step from a state with no fault record that ends Faulted: for InvalidRegister, InvalidMemory and InvalidOp only Status and the fault record differ (PC, registers, memory as before); for InvalidJump the PC is the payload, which is not a multiple of 4, memory is as before, and the registers are as before except the link pc + 4 of a JAL or JALR. x0 reads 0, and the state is read out as always. (R256.) -/
def Obligations.StateAtAFault : Prop :=
  ∀ (s t : State) (f : FaultRecord), step s = .next t → s.fault = none → t.fault = some f →
    t.status = .faulted ∧ t.reg 0#5 = 0#32 ∧ ReadsOut t ∧
    ((∀ p, f ≠ .invalidJump p) → t = { s with status := .faulted, fault := some f, transfer := none }) ∧
    (∀ p, f = .invalidJump p →
      t.pc = p ∧ p.toNat % 4 ≠ 0 ∧ t.mem = s.mem ∧ t.regs[0] = 0#32 ∧
      ∃ i, Runs s i ∧
        ((∃ rd, writesOf i = some rd ∧ ((∃ imm, i = .jal rd imm) ∨ (∃ rs1 imm, i = .jalr rd rs1 imm)) ∧
            RegWritten s t rd (s.pc + 4#32)) ∨
          (writesOf i = none ∧ ∀ j, t.reg j = s.reg j)))

/-- If a step from a state with no fault record ends with InvalidRegister, EMBEDDED is true, the index is at least 16, and it is one of the registers the instruction's format reads or writes. (10_state.md R21, 60_exceptions.md R252.) -/
def Obligations.InvalidRegisterOnlyInEmbeddedMode : Prop :=
  ∀ (s t : State) (k : RegIdx), step s = .next t → s.fault = none → t.fault = some (.invalidRegister k) →
    s.cfg.embedded = true ∧ 16 ≤ k.toNat ∧ ∃ i, Runs s i ∧ (k ∈ readsOf i ∨ writesOf i = some k)

/-- If a step from a state with no fault record ends with InvalidMemory, it ran a load or store, the payload is its effective address and its width twice, and the access is misaligned or reaches beyond MEM_SIZE. (60_exceptions.md R253, 20_memory.md R53, R54, R55.) -/
def Obligations.InvalidMemoryOnlyFromAccesses : Prop :=
  ∀ (s t : State) (a : Word) (n al : Nat), step s = .next t → s.fault = none → t.fault = some (.invalidMemory a n al) →
    al = n ∧ (∃ i, Runs s i ∧ accessOf s i = some (a, n)) ∧ ¬ AccessOk s a n

/-- If a step from a state with no fault record ends with InvalidJump, it ran a taken branch, a JAL or a JALR whose target is the payload, and the target is 2 modulo 4. (60_exceptions.md R254.) -/
def Obligations.InvalidJumpOnlyFromTakenTransfers : Prop :=
  ∀ (s t : State) (p : Word), step s = .next t → s.fault = none → t.fault = some (.invalidJump p) →
    p.toNat % 4 = 2 ∧ t.pc = p ∧ ∃ i, Runs s i ∧ takenTarget s i = some p

/-! ### The run -/

/-- A step answers a next state only from Running; from a lawfully launched Halted or Faulted state it stops under the model's own fault names for that (log entry 4). (10_state.md R35, 93_implementation_defined.md I12.) -/
def Obligations.TerminalStatesTakeNoStep : Prop :=
  (∀ s t : State, step s = .next t → s.status = .running) ∧
  ∀ s : State, s.launchOk →
    (s.status = .halted → step s = .fault .stuckHalted) ∧ (s.status = .faulted → step s = .fault .stuckFaulted)

/-- A step is refused as an unlawful launch exactly when MEM_SIZE is not from 4 to 2^31 or not a multiple of 4, or PROGRAM_LENGTH is not a multiple of 4 or exceeds MEM_SIZE; no such state has a next state. (That the check stands at the start of every step is the model's choice: log entry 5.) (70_reset_and_hazards.md R282.) -/
def Obligations.UnlawfulLaunchesAreRefused : Prop :=
  ∀ s : State,
    (step s = .refused .launchRefused ↔
      ¬ (4 ≤ s.cfg.memSize ∧ s.cfg.memSize ≤ 2 ^ 31 ∧ s.cfg.memSize % 4 = 0 ∧ s.programLength % 4 = 0 ∧
        s.programLength ≤ s.cfg.memSize)) ∧
    (∀ t, step s = .next t → s.launchOk)

/-- For all parameters and every image: every existing register and its cell is 0, the PC is 0, memory byte k is byte k of the image and every byte beyond the image is 0, Status is Running or, for an empty image, Halted, there is no fault record, PROGRAM_LENGTH is the image's length, the parameters are those given, and no transfer is pending. (R39, R58, R281.) -/
def Obligations.LaunchState : Prop :=
  ∀ (c : Config) (image : List Byte),
    let s := State.launch c image
    (∀ i : RegIdx, s.hasReg i → s.reg i = 0#32 ∧ s.regs[i.toNat]'i.isLt = 0#32) ∧ s.pc = 0#32 ∧
    (∀ k, k < image.length → some (s.mem.read k) = image[k]?) ∧ (∀ k, image.length ≤ k → s.mem.read k = 0#8) ∧
    s.status = (if image.length = 0 then .halted else .running) ∧ s.fault = none ∧
    s.programLength = image.length ∧ s.cfg = c ∧ s.transfer = none

/-- The model's reset state is the launch state of the parameters the model chose (EMBEDDED false, MEM_SIZE 0x10000, HALT_ON_ZERO_PC false: log entry 1, the model's choice) and no image (log entry 2). (10_state.md R39, 70_reset_and_hazards.md R280, R281.) -/
def Obligations.ResetIsTheLaunchWithoutImage : Prop :=
  State.reset = State.launch { embedded := false, memSize := 0x10000, haltOnZeroPc := false } []

/-- Lawful launch, canonical memory within MEM_SIZE, X[0] zero, fault record matching Status, PC matching Status and no transfer mark hold of State.reset. (10_state.md R39.) -/
def Obligations.ResetMeetsTheInvariant : Prop :=
  State.reset.Inv

/-- For all lawful parameters and every image of whole words that fits in Memory, the launch state meets the invariant. (70_reset_and_hazards.md R280 to R284, 20_memory.md R58.) -/
def Obligations.LaunchMeetsTheInvariant : Prop :=
  ∀ (c : Config) (image : List Byte), (State.launch c image).launchOk → (State.launch c image).Inv

/-- From every state with a lawful launch, canonical memory within MEM_SIZE, X[0] zero, nonexistent cells zero in embedded mode, a fault record exactly when Faulted, the PC where the run state says (R27 Running, R34 Halted, R256 Faulted) and no transfer mark, a step gives a state with all of these. (10_state.md R22, R25, R27, R28, R31, R34, 60_exceptions.md R256, 20_memory.md R50.) -/
def Obligations.StepKeepsTheInvariant : Prop :=
  ∀ s t : State, s.Inv → step s = .next t → t.Inv

/-- From every Running state that meets the invariant a step answers a next state: no word, operand or address makes a running CORE stop without one. (10_state.md R27, R33, 20_memory.md R56, 30_encoding.md R94.) -/
def Obligations.RunningStatesStep : Prop :=
  ∀ s : State, s.Inv → s.status = .running → ∃ t, step s = .next t

/-- For every lawful launch and every state its run reaches: either it is Halted, or Faulted with a fault record, or a step gives a next state, which again meets the invariant. (70_reset_and_hazards.md R285, R286, 10_state.md R33 to R35.) -/
def Obligations.LaunchedRunsEndOnlyHaltedOrFaulted : Prop :=
  ∀ (c : Config) (image : List Byte) (t : State), (State.launch c image).launchOk → Reaches (State.launch c image) t →
    t.Inv ∧ (t.status = .halted ∨ (t.status = .faulted ∧ ∃ f, t.fault = some f) ∨ ∃ u, step t = .next u ∧ u.Inv)

/-- If two embedded states agree on everything but the cells of x16 to x31, a step of one gives a next state exactly when a step of the other does, and the next states agree in the same way: those registers do not exist. (10_state.md R21, 92_eei_decisions.md D26.) -/
def Obligations.EmbeddedCellsAreInvisible : Prop :=
  ∀ s t s' : State, s.cfg.embedded = true → AgreeWhereRegistersExist s t → step s = .next s' →
    ∃ t', step t = .next t' ∧ AgreeWhereRegistersExist s' t' 

/-- In every state the registers read out are REG_COUNT many and the k-th is the value of x(k); a memory byte is read out exactly for an address below MEM_SIZE; the fault record is read out when Status is Faulted and only then. (10_state.md R37, 92_eei_decisions.md D26.) -/
def Obligations.ReadOutCoversTheState : Prop :=
  ∀ s : State, ReadsOut s

/-- For lawful parameters, canonical memory, PROGRAM_LENGTH a multiple of 4 within MEM_SIZE and a PC that is a multiple of 4 below MEM_SIZE, withFetchWord makes a step defined, the fetched word is the given bits, and decodeTableWord reads the instruction that step decodes (the model's own interface, log entry 2). (70_reset_and_hazards.md R283, 20_memory.md R56.) -/
def Obligations.PlacedWordsRun : Prop :=
  ∀ (s : State) (nbits w : Nat), s.launchOk → Memory.wf s.mem → s.pc.toNat % 4 = 0 → s.pc.toNat < s.cfg.memSize →
    StepDefined (s.withFetchWord nbits w) ∧ fetch (s.withFetchWord nbits w) = BitVec.ofNat 32 (w % 2 ^ nbits) ∧
    ∀ i, decodeTableWord nbits w = some i ↔ Runs (s.withFetchWord nbits w) i

/-! ### Pseudo-instructions -/

/-- For every state, existing rd and every 32-bit value, executing the expansion of LI rd, imm answers a state in which rd holds the value (x0 still 0) and every other register, memory and the rest are as before; every instruction of the expansion is well formed. (30_encoding.md R103.) -/
def Obligations.LoadImmediateLoadsTheValue : Prop :=
  ∀ (s : State) (pc : Word) (rd : RegIdx) (imm : Word), s.hasReg rd →
    (∀ i ∈ expandPseudo pc (.li rd imm), i.wf = true) ∧
    ∃ t, execAll (expandPseudo pc (.li rd imm)) s = .next t ∧ WritesOnly s t rd imm

/-- For every state, existing rd and every address, executing the expansion of LA rd, sym made for the state's PC answers a state in which rd holds the address (x0 still 0) and nothing else is changed. (30_encoding.md R103.) -/
def Obligations.LoadAddressLoadsTheAddress : Prop :=
  ∀ (s : State) (rd : RegIdx) (sym : Word), s.hasReg rd →
    ∃ t, execAll (expandPseudo s.pc (.la rd sym)) s = .next t ∧ WritesOnly s t rd sym
end

