-- ==== Sys2Proof/Laws/Memory.lean ====
section
/-! SUPPORT. The laws of Memory: a read after a write, the canonical form, and the same for little-endian accesses. -/

namespace Sys2Proof.Machine

/-! ### One byte -/

/-- Below every listed address a read gives 0 (R57). -/
theorem Memory.read_eq_zero_of_lt {m : Memory} {a : Nat} (h : ∀ c ∈ m, a < c.1) : Memory.read m a = 0#8 := by
  cases m with
  | nil => rfl
  | cons c rest =>
    have hc : a < c.1 := h c (by simp)
    simp [Memory.read, Nat.ne_of_lt hc, hc]

/-- The parts of the canonical form of a non-empty memory. -/
theorem Memory.wf_cons {b : Nat} {u : Byte} {rest : Memory} :
    Memory.wf ((b, u) :: rest) ↔ (∀ c ∈ rest, b < c.1) ∧ u ≠ 0#8 ∧ Memory.wf rest := by
  simp only [Memory.wf, List.pairwise_cons, List.mem_cons, forall_eq_or_imp]
  tauto

/-- A read of the written address gives the written byte. -/
theorem Memory.read_write_same {m : Memory} (h : Memory.wf m) (a : Nat) (v : Byte) :
    Memory.read (Memory.write m a v) a = v := by
  induction m with
  | nil => by_cases hv : v = 0#8 <;> simp [Memory.write, Memory.read, hv]
  | cons c rest ih =>
    obtain ⟨b, u⟩ := c
    obtain ⟨hlt, -, hrest⟩ := Memory.wf_cons.mp h
    by_cases h1 : a < b
    · by_cases hv : v = 0#8 <;> simp [Memory.write, Memory.read, h1, hv, Nat.ne_of_lt h1]
    · by_cases h2 : a = b
      · subst h2
        by_cases hv : v = 0#8
        · simp [Memory.write, hv, Memory.read_eq_zero_of_lt hlt]
        · simp [Memory.write, Memory.read, hv]
      · simp [Memory.write, Memory.read, h1, h2, ih hrest]

/-- A read of any other address gives what it gave before. -/
theorem Memory.read_write_other {m : Memory} (h : Memory.wf m) {a c : Nat} (v : Byte) (hne : c ≠ a) :
    Memory.read (Memory.write m a v) c = Memory.read m c := by
  induction m with
  | nil => by_cases hv : v = 0#8 <;> simp [Memory.write, Memory.read, hv, hne]
  | cons p rest ih =>
    obtain ⟨b, u⟩ := p
    obtain ⟨hlt, -, hrest⟩ := Memory.wf_cons.mp h
    by_cases h1 : a < b
    · by_cases hv : v = 0#8
      · simp [Memory.write, h1, hv]
      · by_cases hca : c < a
        · have hcb : c < b := Nat.lt_trans hca h1
          simp [Memory.write, Memory.read, h1, hv, hne, hca, hcb, Nat.ne_of_lt hcb]
        · simp [Memory.write, Memory.read, h1, hv, hne, hca]
    · by_cases h2 : a = b
      · subst h2
        by_cases hv : v = 0#8
        · by_cases hca : c < a
          · have := Memory.read_eq_zero_of_lt (a := c) (m := rest) (fun d hd => Nat.lt_trans hca (hlt d hd))
            simp [Memory.write, Memory.read, hv, hne, hca, this]
          · simp [Memory.write, Memory.read, hv, hne, hca]
        · simp [Memory.write, Memory.read, hv, hne]
      · simp [Memory.write, Memory.read, h1, h2, ih hrest]

/-- Every entry after a write is the written one or one that was listed before. -/
theorem Memory.mem_write {m : Memory} {a : Nat} {v : Byte} {c : Host.Cell} (h : c ∈ Memory.write m a v) :
    c = (a, v) ∧ v ≠ 0#8 ∨ c ∈ m := by
  induction m with
  | nil =>
    by_cases hv : v = 0#8
    · simp [Memory.write, hv] at h
    · simp [Memory.write, hv] at h
      exact .inl ⟨h, hv⟩
  | cons p rest ih =>
    obtain ⟨b, u⟩ := p
    unfold Memory.write at h
    split at h
    · split at h
      · exact .inr h
      · rcases List.mem_cons.mp h with h | h
        · exact .inl ⟨h, by assumption⟩
        · exact .inr h
    · split at h
      · split at h
        · exact .inr (List.mem_cons_of_mem _ h)
        · rcases List.mem_cons.mp h with h | h
          · exact .inl ⟨h, by assumption⟩
          · exact .inr (List.mem_cons_of_mem _ h)
      · rcases List.mem_cons.mp h with h | h
        · exact .inr (h ▸ List.mem_cons_self)
        · rcases ih h with h | h
          · exact .inl h
          · exact .inr (List.mem_cons_of_mem _ h)

/-- A write keeps the canonical form. -/
theorem Memory.wf_write {m : Memory} (h : Memory.wf m) (a : Nat) (v : Byte) : Memory.wf (Memory.write m a v) := by
  induction m with
  | nil => by_cases hv : v = 0#8 <;> simp [Memory.wf, Memory.write, hv]
  | cons p rest ih =>
    obtain ⟨b, u⟩ := p
    obtain ⟨hlt, hu, hrest⟩ := Memory.wf_cons.mp h
    by_cases h1 : a < b
    · by_cases hv : v = 0#8
      · simpa [Memory.write, h1, hv] using h
      · simp only [Memory.write, h1, hv, if_true, if_false]
        refine Memory.wf_cons.mpr ⟨fun c hc => ?_, hv, h⟩
        rcases List.mem_cons.mp hc with rfl | hc
        · exact h1
        · exact Nat.lt_trans h1 (hlt c hc)
    · by_cases h2 : a = b
      · subst h2
        by_cases hv : v = 0#8
        · simpa [Memory.write, hv] using hrest
        · simp only [Memory.write, Nat.lt_irrefl, hv, if_true, if_false]
          exact Memory.wf_cons.mpr ⟨hlt, hv, hrest⟩
      · simp only [Memory.write, h1, h2, if_false]
        refine Memory.wf_cons.mpr ⟨fun c hc => ?_, hu, ih hrest⟩
        rcases Memory.mem_write hc with ⟨rfl, -⟩ | hc
        · simp only
          omega
        · exact hlt c hc

/-- Two canonical memories that read alike everywhere are equal: equal memories are equal data. -/
theorem Memory.ext_read {m k : Memory} (hm : Memory.wf m) (hk : Memory.wf k)
    (h : ∀ a, Memory.read m a = Memory.read k a) : m = k := by
  induction m generalizing k with
  | nil =>
    cases k with
    | nil => rfl
    | cons c rest =>
      obtain ⟨b, u⟩ := c
      exact absurd (by simpa [Memory.read] using (h b).symm) (Memory.wf_cons.mp hk).2.1
  | cons p rest ih =>
    obtain ⟨b, u⟩ := p
    obtain ⟨hlt, hu, hrest⟩ := Memory.wf_cons.mp hm
    cases k with
    | nil => exact absurd (by simpa [Memory.read] using h b) hu
    | cons q rest' =>
      obtain ⟨b', u'⟩ := q
      obtain ⟨hlt', hu', hrest'⟩ := Memory.wf_cons.mp hk
      have hb : b = b' := by
        rcases Nat.lt_trichotomy b b' with hl | he | hl
        · exact absurd (by simpa [Memory.read, hl, Nat.ne_of_lt hl] using h b) hu
        · exact he
        · exact absurd (by simpa [Memory.read, hl, Nat.ne_of_lt hl] using (h b').symm) hu'
      subst hb
      have hu_eq : u = u' := by simpa [Memory.read] using h b
      have hrest_eq : rest = rest' := ih hrest hrest' fun a => by
        have ha := h a
        by_cases h1 : a = b
        · subst h1
          rw [Memory.read_eq_zero_of_lt hlt, Memory.read_eq_zero_of_lt hlt']
        · by_cases h2 : a < b
          · rw [Memory.read_eq_zero_of_lt fun c hc => Nat.lt_trans h2 (hlt c hc),
              Memory.read_eq_zero_of_lt fun c hc => Nat.lt_trans h2 (hlt' c hc)]
          · simpa [Memory.read, h1, h2] using ha
      rw [hu_eq, hrest_eq]

/-! ### Little-endian accesses -/

/-- A store keeps the canonical form. -/
theorem Memory.wf_writeLE {m : Memory} (h : Memory.wf m) (a n : Nat) (v : Word) :
    Memory.wf (Memory.writeLE m a n v) := by
  induction n generalizing m a v with
  | zero => exact h
  | succ n ih => exact ih (Memory.wf_write h _ _) _ _

/-- Bytes outside the stored ones read as before. -/
theorem Memory.read_writeLE_outside {m : Memory} (h : Memory.wf m) {a n c : Nat} (v : Word)
    (hout : c < a ∨ a + n ≤ c) : Memory.read (Memory.writeLE m a n v) c = Memory.read m c := by
  induction n generalizing m a v with
  | zero => rfl
  | succ n ih =>
    rw [Memory.writeLE, ih (Memory.wf_write h _ _) _ (by omega), Memory.read_write_other h _ (by omega)]

/-- Byte `k` of the stored ones is bits 8k+7 to 8k of the value (R52, R54). -/
theorem Memory.read_writeLE_inside {m : Memory} (h : Memory.wf m) {a n k : Nat} (v : Word) (hk : k < n) :
    Memory.read (Memory.writeLE m a n v) (a + k) = byteOf v k := by
  induction n generalizing m a k v with
  | zero => omega
  | succ n ih =>
    rw [Memory.writeLE]
    cases k with
    | zero =>
      rw [Memory.read_writeLE_outside (Memory.wf_write h _ _) _ (by omega), Nat.add_zero, Memory.read_write_same h]
      ext i hi
      simp [byteOf]
    | succ k =>
      have : a + (k + 1) = (a + 1) + k := by omega
      rw [this, ih (Memory.wf_write h _ _) _ (by omega)]
      ext i hi
      simp [byteOf, BitVec.getElem_extractLsb', BitVec.getLsbD_ushiftRight]
      congr 1
      omega

/-- Every entry after a store was listed before or lies among the stored bytes. -/
theorem Memory.mem_writeLE {m : Memory} {a n : Nat} {v : Word} {c : Host.Cell} (h : c ∈ Memory.writeLE m a n v) :
    c ∈ m ∨ (a ≤ c.1 ∧ c.1 < a + n) := by
  induction n generalizing m a v with
  | zero => exact .inl h
  | succ n ih =>
    rcases ih h with h | h
    · rcases Memory.mem_write h with ⟨rfl, -⟩ | h
      · exact .inr ⟨Nat.le_refl _, by simp⟩
      · exact .inl h
    · exact .inr ⟨by omega, by omega⟩

/-- A little-endian read depends on its own bytes only. -/
theorem Memory.readLE_congr {m k : Memory} {a n : Nat}
    (h : ∀ j, j < n → Memory.read m (a + j) = Memory.read k (a + j)) : Memory.readLE m a n = Memory.readLE k a n := by
  induction n generalizing a with
  | zero => rfl
  | succ n ih =>
    rw [Memory.readLE, Memory.readLE, ih fun j hj => by simpa [Nat.add_assoc, Nat.add_comm 1 j] using h (j + 1) (by omega)]
    rw [show Memory.read m a = Memory.read k a from h 0 (by omega)]

/-- Bit `i` of a little-endian read is bit `i mod 8` of byte `i / 8` (R51, R53). -/
theorem Memory.getLsbD_readLE {m : Memory} {a n i : Nat} (hi : i < 32) :
    (Memory.readLE m a n).getLsbD i = (decide (i / 8 < n) && (Memory.read m (a + i / 8)).getLsbD (i % 8)) := by
  induction n generalizing a i with
  | zero => simp [Memory.readLE]
  | succ n ih =>
    simp only [Memory.readLE, BitVec.getLsbD_or, BitVec.getLsbD_setWidth, BitVec.getLsbD_shiftLeft]
    by_cases h8 : i < 8
    · have h0 : i / 8 = 0 := by omega
      have hm : i % 8 = i := by omega
      simp [h0, hm, hi, h8]
    · have hd : (i - 8) / 8 = i / 8 - 1 := by omega
      have hm : (i - 8) % 8 = i % 8 := by omega
      rw [ih (by omega), hd, hm]
      have e1 : a + 1 + (i / 8 - 1) = a + i / 8 := by omega
      have e2 : decide (i / 8 - 1 < n) = decide (i / 8 < n + 1) := by
        apply decide_eq_decide.mpr
        omega
      have hz : (Memory.read m a).getLsbD i = false := BitVec.getLsbD_of_ge _ _ (by omega)
      simp [hi, h8, hz, e1, e2]

/-! ### The program image -/

/-- The image's memory is canonical. -/
theorem Memory.wf_ofImage (k : Nat) (bs : List Byte) :
    Memory.wf (Memory.ofImage k bs) ∧ ∀ c ∈ Memory.ofImage k bs, k ≤ c.1 ∧ c.1 < k + bs.length := by
  induction bs generalizing k with
  | nil => simp [Memory.wf, Memory.ofImage]
  | cons b rest ih =>
    obtain ⟨hwf, hin⟩ := ih (k + 1)
    by_cases hb : b = 0#8
    · simp only [Memory.ofImage, hb, if_true]
      refine ⟨hwf, fun c hc => ?_⟩
      have := hin c hc
      simp only [List.length_cons]
      omega
    · simp only [Memory.ofImage, hb, if_false]
      refine ⟨Memory.wf_cons.mpr ⟨fun c hc => (hin c hc).1, hb, hwf⟩, fun c hc => ?_⟩
      simp only [List.length_cons]
      rcases List.mem_cons.mp hc with rfl | hc
      · simp
      · have := hin c hc
        omega

end Sys2Proof.Machine
end

