-- ==== Sys2Proof/Laws/State.lean ====
section
/-! SUPPORT. One lemma per field of State per update, and the registers after an update. -/

namespace Sys2Proof.Machine

/-! ### raised -/

@[simp] theorem State.raised_cfg (s : State) (f : FaultRecord) : (s.raised f).cfg = s.cfg := rfl
@[simp] theorem State.raised_regs (s : State) (f : FaultRecord) : (s.raised f).regs = s.regs := rfl
@[simp] theorem State.raised_pc (s : State) (f : FaultRecord) : (s.raised f).pc = s.pc := rfl
@[simp] theorem State.raised_mem (s : State) (f : FaultRecord) : (s.raised f).mem = s.mem := rfl
@[simp] theorem State.raised_status (s : State) (f : FaultRecord) : (s.raised f).status = .faulted := rfl
@[simp] theorem State.raised_fault (s : State) (f : FaultRecord) : (s.raised f).fault = some f := rfl
@[simp] theorem State.raised_programLength (s : State) (f : FaultRecord) : (s.raised f).programLength = s.programLength := rfl
@[simp] theorem State.raised_transfer (s : State) (f : FaultRecord) : (s.raised f).transfer = s.transfer := rfl

/-! ### setReg -/

@[simp] theorem State.setReg_cfg (s : State) (i : RegIdx) (v : Word) : (s.setReg i v).cfg = s.cfg := rfl
@[simp] theorem State.setReg_regs (s : State) (i : RegIdx) (v : Word) : (s.setReg i v).regs = s.regs.set i.toNat v i.isLt := rfl
@[simp] theorem State.setReg_pc (s : State) (i : RegIdx) (v : Word) : (s.setReg i v).pc = s.pc := rfl
@[simp] theorem State.setReg_mem (s : State) (i : RegIdx) (v : Word) : (s.setReg i v).mem = s.mem := rfl
@[simp] theorem State.setReg_status (s : State) (i : RegIdx) (v : Word) : (s.setReg i v).status = s.status := rfl
@[simp] theorem State.setReg_fault (s : State) (i : RegIdx) (v : Word) : (s.setReg i v).fault = s.fault := rfl
@[simp] theorem State.setReg_programLength (s : State) (i : RegIdx) (v : Word) : (s.setReg i v).programLength = s.programLength := rfl
@[simp] theorem State.setReg_transfer (s : State) (i : RegIdx) (v : Word) : (s.setReg i v).transfer = s.transfer := rfl

/-! ### storeAt -/

@[simp] theorem State.storeAt_cfg (s : State) (a : Word) (n : Width) (v : Word) : (s.storeAt a n v).cfg = s.cfg := rfl
@[simp] theorem State.storeAt_regs (s : State) (a : Word) (n : Width) (v : Word) : (s.storeAt a n v).regs = s.regs := rfl
@[simp] theorem State.storeAt_pc (s : State) (a : Word) (n : Width) (v : Word) : (s.storeAt a n v).pc = s.pc := rfl
@[simp] theorem State.storeAt_mem (s : State) (a : Word) (n : Width) (v : Word) : (s.storeAt a n v).mem = s.mem.writeLE a.toNat n.bytes v := rfl
@[simp] theorem State.storeAt_status (s : State) (a : Word) (n : Width) (v : Word) : (s.storeAt a n v).status = s.status := rfl
@[simp] theorem State.storeAt_fault (s : State) (a : Word) (n : Width) (v : Word) : (s.storeAt a n v).fault = s.fault := rfl
@[simp] theorem State.storeAt_programLength (s : State) (a : Word) (n : Width) (v : Word) : (s.storeAt a n v).programLength = s.programLength := rfl
@[simp] theorem State.storeAt_transfer (s : State) (a : Word) (n : Width) (v : Word) : (s.storeAt a n v).transfer = s.transfer := rfl

/-! ### transferTo -/

@[simp] theorem State.transferTo_cfg (s : State) (p : Word) : (s.transferTo p).cfg = s.cfg := rfl
@[simp] theorem State.transferTo_regs (s : State) (p : Word) : (s.transferTo p).regs = s.regs := rfl
@[simp] theorem State.transferTo_pc (s : State) (p : Word) : (s.transferTo p).pc = s.pc := rfl
@[simp] theorem State.transferTo_mem (s : State) (p : Word) : (s.transferTo p).mem = s.mem := rfl
@[simp] theorem State.transferTo_status (s : State) (p : Word) : (s.transferTo p).status = s.status := rfl
@[simp] theorem State.transferTo_fault (s : State) (p : Word) : (s.transferTo p).fault = s.fault := rfl
@[simp] theorem State.transferTo_programLength (s : State) (p : Word) : (s.transferTo p).programLength = s.programLength := rfl
@[simp] theorem State.transferTo_transfer (s : State) (p : Word) : (s.transferTo p).transfer = some p := rfl

/-! ### rezero -/

@[simp] theorem State.rezero_cfg (s : State) : s.rezero.cfg = s.cfg := rfl
@[simp] theorem State.rezero_regs (s : State) : s.rezero.regs = s.regs.set 0 0#32 := rfl
@[simp] theorem State.rezero_pc (s : State) : s.rezero.pc = s.pc := rfl
@[simp] theorem State.rezero_mem (s : State) : s.rezero.mem = s.mem := rfl
@[simp] theorem State.rezero_status (s : State) : s.rezero.status = s.status := rfl
@[simp] theorem State.rezero_fault (s : State) : s.rezero.fault = s.fault := rfl
@[simp] theorem State.rezero_programLength (s : State) : s.rezero.programLength = s.programLength := rfl
@[simp] theorem State.rezero_transfer (s : State) : s.rezero.transfer = s.transfer := rfl

/-! ### advance -/

@[simp] theorem State.advance_cfg (s : State) : s.advance.cfg = s.cfg := rfl
@[simp] theorem State.advance_regs (s : State) : s.advance.regs = s.regs := rfl
@[simp] theorem State.advance_pc (s : State) : s.advance.pc = s.transfer.getD (s.pc + 4#32) := rfl
@[simp] theorem State.advance_mem (s : State) : s.advance.mem = s.mem := rfl
@[simp] theorem State.advance_status (s : State) : s.advance.status = s.status := rfl
@[simp] theorem State.advance_fault (s : State) : s.advance.fault = s.fault := rfl
@[simp] theorem State.advance_programLength (s : State) : s.advance.programLength = s.programLength := rfl
@[simp] theorem State.advance_transfer (s : State) : s.advance.transfer = none := rfl

/-! ### terminate -/

@[simp] theorem State.terminate_cfg (s : State) : s.terminate.cfg = s.cfg := rfl
@[simp] theorem State.terminate_regs (s : State) : s.terminate.regs = s.regs := rfl
@[simp] theorem State.terminate_pc (s : State) : s.terminate.pc = s.pc := rfl
@[simp] theorem State.terminate_mem (s : State) : s.terminate.mem = s.mem := rfl
@[simp] theorem State.terminate_status (s : State) : s.terminate.status = terminateStatus s := rfl
@[simp] theorem State.terminate_fault (s : State) : s.terminate.fault = s.fault := rfl
@[simp] theorem State.terminate_programLength (s : State) : s.terminate.programLength = s.programLength := rfl
@[simp] theorem State.terminate_transfer (s : State) : s.terminate.transfer = s.transfer := rfl

/-! ### withWordAtPc -/

@[simp] theorem State.withWordAtPc_cfg (s : State) (w : Word) : (s.withWordAtPc w).cfg = s.cfg := rfl
@[simp] theorem State.withWordAtPc_regs (s : State) (w : Word) : (s.withWordAtPc w).regs = s.regs := rfl
@[simp] theorem State.withWordAtPc_pc (s : State) (w : Word) : (s.withWordAtPc w).pc = s.pc := rfl
@[simp] theorem State.withWordAtPc_mem (s : State) (w : Word) : (s.withWordAtPc w).mem = s.mem.writeLE s.pc.toNat 4 w := rfl
@[simp] theorem State.withWordAtPc_status (s : State) (w : Word) : (s.withWordAtPc w).status = .running := rfl
@[simp] theorem State.withWordAtPc_fault (s : State) (w : Word) : (s.withWordAtPc w).fault = none := rfl
@[simp] theorem State.withWordAtPc_programLength (s : State) (w : Word) : (s.withWordAtPc w).programLength = max s.programLength (s.pc.toNat + 4) := rfl
@[simp] theorem State.withWordAtPc_transfer (s : State) (w : Word) : (s.withWordAtPc w).transfer = s.transfer := rfl

/-! ### Registers -/

/-- x0 reads 0 (R22, R23). -/
@[simp] theorem State.reg_zero (s : State) : s.reg 0#5 = 0#32 := rfl

/-- A register's value depends on the cells alone. -/
theorem State.reg_congr {s t : State} (h : s.regs = t.regs) (i : RegIdx) : s.reg i = t.reg i := by
  simp [State.reg, h]

@[simp] theorem State.reg_raised (s : State) (f : FaultRecord) (i : RegIdx) : (s.raised f).reg i = s.reg i := rfl
@[simp] theorem State.reg_storeAt (s : State) (a : Word) (n : Width) (v : Word) (i : RegIdx) :
    (s.storeAt a n v).reg i = s.reg i := rfl
@[simp] theorem State.reg_transferTo (s : State) (p : Word) (i : RegIdx) : (s.transferTo p).reg i = s.reg i := rfl
@[simp] theorem State.reg_advance (s : State) (i : RegIdx) : s.advance.reg i = s.reg i := rfl
@[simp] theorem State.reg_terminate (s : State) (i : RegIdx) : s.terminate.reg i = s.reg i := rfl

/-- A written register other than x0 reads the written value (R23, R24). -/
theorem State.reg_setReg_same (s : State) {i : RegIdx} (v : Word) (h : i ≠ 0#5) : (s.setReg i v).reg i = v := by
  simp [State.reg, State.setReg, h]

/-- Every other register reads as before. -/
theorem State.reg_setReg_other (s : State) {i j : RegIdx} (v : Word) (h : j ≠ i) :
    (s.setReg i v).reg j = s.reg j := by
  have hn : i.toNat ≠ j.toNat := fun hc => h (BitVec.eq_of_toNat_eq hc.symm)
  simp [State.reg, State.setReg, Vector.getElem_set_ne, hn]

/-- A write to x0 changes no register's value (R22). -/
theorem State.reg_setReg_zero (s : State) (v : Word) (j : RegIdx) : (s.setReg 0#5 v).reg j = s.reg j := by
  by_cases h : j = 0#5
  · subst h
    rfl
  · exact State.reg_setReg_other s v h

/-- The register values after a write: the value at `i` unless `i` is x0 (R22 to R24). -/
theorem State.reg_setReg (s : State) (i j : RegIdx) (v : Word) :
    (s.setReg i v).reg j = if j = i ∧ i ≠ 0#5 then v else s.reg j := by
  by_cases hj : j = i
  · subst hj
    by_cases h0 : j = 0#5
    · subst h0
      simp
    · simp [h0, State.reg_setReg_same s v h0]
  · simp [hj, State.reg_setReg_other s v hj]

/-- Re-zeroing X[0] changes no register's value (R25). -/
@[simp] theorem State.reg_rezero (s : State) (i : RegIdx) : s.rezero.reg i = s.reg i := State.reg_setReg_zero s _ i

/-- Re-zeroing gives X[0] the value 0 (R25). -/
theorem State.rezero_zeroCell (s : State) : s.rezero.regs[0] = 0#32 := by
  simp

/-- A re-zeroed state whose X[0] is already 0 is unchanged. -/
theorem State.rezero_eq_self {s : State} (h : s.regs[0] = 0#32) : s.rezero = s := by
  have : s.regs.set 0 0#32 = s.regs := by
    rw [← h]
    simp
  cases s
  simpa [State.rezero, State.setReg] using this

end Sys2Proof.Machine
end

