-- ==== Sys2Proof/Laws/Ops.lean ====
section
/-! SUPPORT. One lemma per shared operation: what its checked accesses answer, and once everything a step can do. -/

namespace Sys2Proof.Machine

/-! ### Checked accesses (R23, R24, R53, R54) -/

theorem regRead_ok {s : State} {i : RegIdx} (h : s.hasReg i) : regRead s i = .ok (s.reg i) := if_pos h

theorem regRead_error {s : State} {i : RegIdx} (h : ¬ s.hasReg i) : regRead s i = .error (.invalidRegister i) :=
  if_neg h

theorem regWrite_ok {s : State} {i : RegIdx} (h : s.hasReg i) (v : Word) : regWrite s i v = .ok (s.setReg i v) :=
  if_pos h

theorem regWrite_error {s : State} {i : RegIdx} (h : ¬ s.hasReg i) (v : Word) :
    regWrite s i v = .error (.invalidRegister i) := if_neg h

theorem memRead_ok {s : State} {a : Word} {n : Width} (h : s.canAccess a n) :
    memRead s a n = .ok (s.mem.readLE a.toNat n.bytes) := if_pos h

theorem memRead_error {s : State} {a : Word} {n : Width} (h : ¬ s.canAccess a n) :
    memRead s a n = .error (.invalidMemory a n.bytes n.bytes) := if_neg h

theorem memWrite_ok {s : State} {a : Word} {n : Width} (h : s.canAccess a n) (v : Word) :
    memWrite s a n v = .ok (s.storeAt a n v) := if_pos h

theorem memWrite_error {s : State} {a : Word} {n : Width} (h : ¬ s.canAccess a n) (v : Word) :
    memWrite s a n v = .error (.invalidMemory a n.bytes n.bytes) := if_neg h

theorem orRaise_ok {α : Type} (s : State) (a : α) (k : α → Result) : orRaise s (.ok a) k = k a := rfl

theorem orRaise_error {α : Type} (s : State) (f : FaultRecord) (k : α → Result) :
    orRaise s (.error f) k = .next (s.raised f) := rfl

/-- Outside embedded mode every register exists (R21). -/
theorem hasReg_of_not_embedded {s : State} (h : s.cfg.embedded = false) (i : RegIdx) : s.hasReg i := by
  have := i.isLt
  simp only [State.hasReg, regCount, h]
  simpa using this

/-- In embedded mode the registers are x0 to x15 (R21). -/
theorem hasReg_embedded {s : State} (h : s.cfg.embedded = true) (i : RegIdx) : s.hasReg i ↔ i.toNat < 16 := by
  simp [State.hasReg, regCount, h]

/-! ### The step (R33) -/

/-- The step goes on past its checks exactly when a step is defined: a lawful launch, Running, the PC in the program. -/
theorem beginStep_next {s t : State} {k : State → Result} (h : beginStep s k = .next t) :
    s.launchOk ∧ s.status = .running ∧ s.pcInProgram ∧ k { s with transfer := none } = .next t := by
  unfold beginStep at h
  split at h
  · rename_i hl
    cases hs : s.status <;> simp only [hs] at h
    · split at h
      · rename_i hp
        exact ⟨hl, rfl, hp, h⟩
      · cases h
    · cases h
    · cases h
  · cases h

/-- A step that is defined runs its continuation. -/
theorem beginStep_go {s : State} (hl : s.launchOk) (hs : s.status = .running) (hp : s.pcInProgram)
    (k : State → Result) : beginStep s k = k { s with transfer := none } := by
  simp only [beginStep, if_pos hl, hs, if_pos hp]

/-- The end of a step on a next state. -/
theorem endStep_next (t : State) :
    endStep (.next t) = .next (if t.status = .faulted then { t with transfer := none } else t.retire) := by
  simp only [endStep]
  split <;> rfl

/-- A retired instruction whose new PC is a multiple of 4 goes to Terminate. -/
theorem State.retire_aligned {s : State} (h : (s.transfer.getD (s.pc + 4#32)).toNat % 4 = 0) :
    s.retire = s.rezero.advance.terminate := by
  simp [State.retire, State.checkPc, h]

/-- A retired instruction whose new PC is not a multiple of 4 raises InvalidJump (R33, R254). -/
theorem State.retire_misaligned {s : State} (h : (s.transfer.getD (s.pc + 4#32)).toNat % 4 ≠ 0) :
    s.retire = s.rezero.advance.raised (.invalidJump (s.transfer.getD (s.pc + 4#32))) := by
  simp [State.retire, State.checkPc, h]

/-- Everything a step that answers can be: the checks held, the decoded instruction or InvalidOp answered `u`, and the step
ended there if that raised, or went through the lines after Execute. -/
theorem step_next {s t : State} (h : step s = .next t) :
    s.launchOk ∧ s.status = .running ∧ s.pcInProgram ∧
      ∃ u, execWord (fetch s) { s with transfer := none } = .next u ∧
        ((u.status = .faulted ∧ t = { u with transfer := none }) ∨ (u.status ≠ .faulted ∧ t = u.retire)) := by
  obtain ⟨hl, hs, hp, hk⟩ := beginStep_next h
  refine ⟨hl, hs, hp, ?_⟩
  have hf : fetch { s with transfer := none } = fetch s := rfl
  rw [hf] at hk
  cases hx : execWord (fetch s) { s with transfer := none } with
  | next u =>
    refine ⟨u, rfl, ?_⟩
    rw [hx, endStep_next] at hk
    split at hk
    · rename_i hu
      exact .inl ⟨hu, by cases hk; rfl⟩
    · rename_i hu
      exact .inr ⟨hu, by cases hk; rfl⟩
  | fault r =>
    rw [hx] at hk
    cases hk
  | refused r =>
    rw [hx] at hk
    cases hk

end Sys2Proof.Machine
end

