-- ==== Sys2Proof/Laws/Exec.lean ====
section
/-! SUPPORT. One lemma per shape of instruction and way it can go, and once everything an instruction's rule can do. -/

namespace Sys2Proof.Machine

/-! ### Register-immediate and register-register shapes -/

theorem aluImm_next {f : Word → Word} {rd rs1 : RegIdx} {s : State} (h1 : s.hasReg rs1) (hd : s.hasReg rd) :
    aluImm f rd rs1 s = .next (s.setReg rd (f (s.reg rs1))) := by
  simp only [aluImm, regRead_ok h1, regWrite_ok hd, orRaise_ok]

theorem aluImm_raises_rs1 {f : Word → Word} {rd rs1 : RegIdx} {s : State} (h1 : ¬ s.hasReg rs1) :
    aluImm f rd rs1 s = .next (s.raised (.invalidRegister rs1)) := by
  simp only [aluImm, regRead_error h1, orRaise_error]

theorem aluImm_raises_rd {f : Word → Word} {rd rs1 : RegIdx} {s : State} (h1 : s.hasReg rs1) (hd : ¬ s.hasReg rd) :
    aluImm f rd rs1 s = .next (s.raised (.invalidRegister rd)) := by
  simp only [aluImm, regRead_ok h1, regWrite_error hd, orRaise_ok, orRaise_error]

theorem aluReg_next {f : Word → Word → Word} {rd rs1 rs2 : RegIdx} {s : State} (h1 : s.hasReg rs1) (h2 : s.hasReg rs2)
    (hd : s.hasReg rd) : aluReg f rd rs1 rs2 s = .next (s.setReg rd (f (s.reg rs1) (s.reg rs2))) := by
  simp only [aluReg, regRead_ok h1, regRead_ok h2, regWrite_ok hd, orRaise_ok]

theorem aluReg_raises_rs1 {f : Word → Word → Word} {rd rs1 rs2 : RegIdx} {s : State} (h1 : ¬ s.hasReg rs1) :
    aluReg f rd rs1 rs2 s = .next (s.raised (.invalidRegister rs1)) := by
  simp only [aluReg, regRead_error h1, orRaise_error]

theorem aluReg_raises_rs2 {f : Word → Word → Word} {rd rs1 rs2 : RegIdx} {s : State} (h1 : s.hasReg rs1)
    (h2 : ¬ s.hasReg rs2) : aluReg f rd rs1 rs2 s = .next (s.raised (.invalidRegister rs2)) := by
  simp only [aluReg, regRead_ok h1, regRead_error h2, orRaise_ok, orRaise_error]

theorem aluReg_raises_rd {f : Word → Word → Word} {rd rs1 rs2 : RegIdx} {s : State} (h1 : s.hasReg rs1)
    (h2 : s.hasReg rs2) (hd : ¬ s.hasReg rd) :
    aluReg f rd rs1 rs2 s = .next (s.raised (.invalidRegister rd)) := by
  simp only [aluReg, regRead_ok h1, regRead_ok h2, regWrite_error hd, orRaise_ok, orRaise_error]

/-! ### Loads and stores -/

theorem load_next {n : Width} {ext : Word → Word} {rd rs1 : RegIdx} {imm : Word} {s : State} (h1 : s.hasReg rs1)
    (ha : s.canAccess (effectiveAddress (s.reg rs1) imm) n) (hd : s.hasReg rd) :
    load n ext rd rs1 imm s =
      .next (s.setReg rd (ext (s.mem.readLE (effectiveAddress (s.reg rs1) imm).toNat n.bytes))) := by
  simp only [load, regRead_ok h1, memRead_ok ha, regWrite_ok hd, orRaise_ok]

theorem load_raises_rs1 {n : Width} {ext : Word → Word} {rd rs1 : RegIdx} {imm : Word} {s : State}
    (h1 : ¬ s.hasReg rs1) : load n ext rd rs1 imm s = .next (s.raised (.invalidRegister rs1)) := by
  simp only [load, regRead_error h1, orRaise_error]

theorem load_raises_memory {n : Width} {ext : Word → Word} {rd rs1 : RegIdx} {imm : Word} {s : State}
    (h1 : s.hasReg rs1) (ha : ¬ s.canAccess (effectiveAddress (s.reg rs1) imm) n) :
    load n ext rd rs1 imm s =
      .next (s.raised (.invalidMemory (effectiveAddress (s.reg rs1) imm) n.bytes n.bytes)) := by
  simp only [load, regRead_ok h1, memRead_error ha, orRaise_ok, orRaise_error]

theorem load_raises_rd {n : Width} {ext : Word → Word} {rd rs1 : RegIdx} {imm : Word} {s : State} (h1 : s.hasReg rs1)
    (ha : s.canAccess (effectiveAddress (s.reg rs1) imm) n) (hd : ¬ s.hasReg rd) :
    load n ext rd rs1 imm s = .next (s.raised (.invalidRegister rd)) := by
  simp only [load, regRead_ok h1, memRead_ok ha, regWrite_error hd, orRaise_ok, orRaise_error]

theorem store_next {n : Width} {rs1 rs2 : RegIdx} {imm : Word} {s : State} (h1 : s.hasReg rs1) (h2 : s.hasReg rs2)
    (ha : s.canAccess (effectiveAddress (s.reg rs1) imm) n) :
    store n rs1 rs2 imm s = .next (s.storeAt (effectiveAddress (s.reg rs1) imm) n (s.reg rs2)) := by
  simp only [store, regRead_ok h1, regRead_ok h2, memWrite_ok ha, orRaise_ok]

theorem store_raises_rs1 {n : Width} {rs1 rs2 : RegIdx} {imm : Word} {s : State} (h1 : ¬ s.hasReg rs1) :
    store n rs1 rs2 imm s = .next (s.raised (.invalidRegister rs1)) := by
  simp only [store, regRead_error h1, orRaise_error]

theorem store_raises_rs2 {n : Width} {rs1 rs2 : RegIdx} {imm : Word} {s : State} (h1 : s.hasReg rs1)
    (h2 : ¬ s.hasReg rs2) : store n rs1 rs2 imm s = .next (s.raised (.invalidRegister rs2)) := by
  simp only [store, regRead_ok h1, regRead_error h2, orRaise_ok, orRaise_error]

theorem store_raises_memory {n : Width} {rs1 rs2 : RegIdx} {imm : Word} {s : State} (h1 : s.hasReg rs1)
    (h2 : s.hasReg rs2) (ha : ¬ s.canAccess (effectiveAddress (s.reg rs1) imm) n) :
    store n rs1 rs2 imm s =
      .next (s.raised (.invalidMemory (effectiveAddress (s.reg rs1) imm) n.bytes n.bytes)) := by
  simp only [store, regRead_ok h1, regRead_ok h2, memWrite_error ha, orRaise_ok, orRaise_error]

/-! ### Branches -/

theorem branch_next {cond : Word → Word → Bool} {rs1 rs2 : RegIdx} {imm : Word} {s : State} (h1 : s.hasReg rs1)
    (h2 : s.hasReg rs2) :
    branch cond rs1 rs2 imm s =
      .next (if cond (s.reg rs1) (s.reg rs2) then s.transferTo (pcTarget s imm) else s) := by
  simp only [branch, regRead_ok h1, regRead_ok h2, orRaise_ok]
  split <;> rfl

theorem branch_raises_rs1 {cond : Word → Word → Bool} {rs1 rs2 : RegIdx} {imm : Word} {s : State}
    (h1 : ¬ s.hasReg rs1) : branch cond rs1 rs2 imm s = .next (s.raised (.invalidRegister rs1)) := by
  simp only [branch, regRead_error h1, orRaise_error]

theorem branch_raises_rs2 {cond : Word → Word → Bool} {rs1 rs2 : RegIdx} {imm : Word} {s : State} (h1 : s.hasReg rs1)
    (h2 : ¬ s.hasReg rs2) : branch cond rs1 rs2 imm s = .next (s.raised (.invalidRegister rs2)) := by
  simp only [branch, regRead_ok h1, regRead_error h2, orRaise_ok, orRaise_error]

/-! ### Everything an instruction's rule can do -/

/-- The states Execute can leave from `s` (R26, R36, R257). -/
inductive ExecEffect (s : State) : State → Prop where
  /-- A register outside the file (R252): nothing else changes. -/
  | badRegister (i : RegIdx) : ¬ s.hasReg i → ExecEffect s (s.raised (.invalidRegister i))
  /-- A misaligned or out-of-bounds access (R253): nothing else changes. -/
  | badAccess (a : Word) (n : Width) : ¬ s.canAccess a n → ExecEffect s (s.raised (.invalidMemory a n.bytes n.bytes))
  /-- One register is written. -/
  | writesReg (rd : RegIdx) (v : Word) : s.hasReg rd → ExecEffect s (s.setReg rd v)
  /-- One access is stored. -/
  | stores (a : Word) (n : Width) (v : Word) : s.canAccess a n → ExecEffect s (s.storeAt a n v)
  /-- Control transfers: a taken branch. -/
  | transfers (p : Word) : ExecEffect s (s.transferTo p)
  /-- The link is written and control transfers: a jump. -/
  | links (rd : RegIdx) (v p : Word) : s.hasReg rd → ExecEffect s ((s.setReg rd v).transferTo p)
  /-- Nothing: a branch not taken. -/
  | nothing : ExecEffect s s

theorem aluImm_effect (f : Word → Word) (rd rs1 : RegIdx) (s : State) :
    ∃ t, aluImm f rd rs1 s = .next t ∧ ExecEffect s t := by
  by_cases h1 : s.hasReg rs1
  · by_cases hd : s.hasReg rd
    · exact ⟨_, aluImm_next h1 hd, .writesReg _ _ hd⟩
    · exact ⟨_, aluImm_raises_rd h1 hd, .badRegister _ hd⟩
  · exact ⟨_, aluImm_raises_rs1 h1, .badRegister _ h1⟩

theorem aluReg_effect (f : Word → Word → Word) (rd rs1 rs2 : RegIdx) (s : State) :
    ∃ t, aluReg f rd rs1 rs2 s = .next t ∧ ExecEffect s t := by
  by_cases h1 : s.hasReg rs1
  · by_cases h2 : s.hasReg rs2
    · by_cases hd : s.hasReg rd
      · exact ⟨_, aluReg_next h1 h2 hd, .writesReg _ _ hd⟩
      · exact ⟨_, aluReg_raises_rd h1 h2 hd, .badRegister _ hd⟩
    · exact ⟨_, aluReg_raises_rs2 h1 h2, .badRegister _ h2⟩
  · exact ⟨_, aluReg_raises_rs1 h1, .badRegister _ h1⟩

theorem load_effect (n : Width) (ext : Word → Word) (rd rs1 : RegIdx) (imm : Word) (s : State) :
    ∃ t, load n ext rd rs1 imm s = .next t ∧ ExecEffect s t := by
  by_cases h1 : s.hasReg rs1
  · by_cases ha : s.canAccess (effectiveAddress (s.reg rs1) imm) n
    · by_cases hd : s.hasReg rd
      · exact ⟨_, load_next h1 ha hd, .writesReg _ _ hd⟩
      · exact ⟨_, load_raises_rd h1 ha hd, .badRegister _ hd⟩
    · exact ⟨_, load_raises_memory h1 ha, .badAccess _ _ ha⟩
  · exact ⟨_, load_raises_rs1 h1, .badRegister _ h1⟩

theorem store_effect (n : Width) (rs1 rs2 : RegIdx) (imm : Word) (s : State) :
    ∃ t, store n rs1 rs2 imm s = .next t ∧ ExecEffect s t := by
  by_cases h1 : s.hasReg rs1
  · by_cases h2 : s.hasReg rs2
    · by_cases ha : s.canAccess (effectiveAddress (s.reg rs1) imm) n
      · exact ⟨_, store_next h1 h2 ha, .stores _ _ _ ha⟩
      · exact ⟨_, store_raises_memory h1 h2 ha, .badAccess _ _ ha⟩
    · exact ⟨_, store_raises_rs2 h1 h2, .badRegister _ h2⟩
  · exact ⟨_, store_raises_rs1 h1, .badRegister _ h1⟩

theorem branch_effect (cond : Word → Word → Bool) (rs1 rs2 : RegIdx) (imm : Word) (s : State) :
    ∃ t, branch cond rs1 rs2 imm s = .next t ∧ ExecEffect s t := by
  by_cases h1 : s.hasReg rs1
  · by_cases h2 : s.hasReg rs2
    · refine ⟨_, branch_next h1 h2, ?_⟩
      split
      · exact .transfers _
      · exact .nothing
    · exact ⟨_, branch_raises_rs2 h1 h2, .badRegister _ h2⟩
  · exact ⟨_, branch_raises_rs1 h1, .badRegister _ h1⟩

/-- A rule that only writes rd: LUI and AUIPC. -/
theorem writeOnly_effect (rd : RegIdx) (v : Word) (s : State) :
    ∃ t, orRaise s (regWrite s rd v) .next = .next t ∧ ExecEffect s t := by
  by_cases hd : s.hasReg rd
  · exact ⟨_, by rw [regWrite_ok hd, orRaise_ok], .writesReg _ _ hd⟩
  · exact ⟨_, by rw [regWrite_error hd, orRaise_error], .badRegister _ hd⟩

theorem execJal_next {rd : RegIdx} {imm : Word} {s : State} (hd : s.hasReg rd) :
    execJal rd imm s = .next ((s.setReg rd (linkValue s)).transferTo (pcTarget s imm)) := by
  simp only [execJal, regWrite_ok hd, orRaise_ok, pcTarget]

theorem execJal_raises_rd {rd : RegIdx} {imm : Word} {s : State} (hd : ¬ s.hasReg rd) :
    execJal rd imm s = .next (s.raised (.invalidRegister rd)) := by
  simp only [execJal, regWrite_error hd, orRaise_error]

theorem execJalr_next {rd rs1 : RegIdx} {imm : Word} {s : State} (h1 : s.hasReg rs1) (hd : s.hasReg rd) :
    execJalr rd rs1 imm s = .next ((s.setReg rd (linkValue s)).transferTo (jalrTarget (s.reg rs1) imm)) := by
  simp only [execJalr, regRead_ok h1, regWrite_ok hd, orRaise_ok]

theorem execJalr_raises_rs1 {rd rs1 : RegIdx} {imm : Word} {s : State} (h1 : ¬ s.hasReg rs1) :
    execJalr rd rs1 imm s = .next (s.raised (.invalidRegister rs1)) := by
  simp only [execJalr, regRead_error h1, orRaise_error]

theorem execJalr_raises_rd {rd rs1 : RegIdx} {imm : Word} {s : State} (h1 : s.hasReg rs1) (hd : ¬ s.hasReg rd) :
    execJalr rd rs1 imm s = .next (s.raised (.invalidRegister rd)) := by
  simp only [execJalr, regRead_ok h1, regWrite_error hd, orRaise_ok, orRaise_error]

/-- Every instruction answers a next state, and it is one of these: no instruction refuses or stops. -/
theorem exec_effect (i : Instr) (s : State) : ∃ t, exec i s = .next t ∧ ExecEffect s t := by
  cases i
  case lui =>
    exact writeOnly_effect _ _ _
  case auipc =>
    exact writeOnly_effect _ _ _
  case jal =>
    rename_i rd imm
    by_cases hd : s.hasReg rd
    · exact ⟨_, execJal_next hd, .links _ _ _ hd⟩
    · exact ⟨_, execJal_raises_rd hd, .badRegister _ hd⟩
  case jalr =>
    rename_i rd rs1 imm
    by_cases h1 : s.hasReg rs1
    · by_cases hd : s.hasReg rd
      · exact ⟨_, execJalr_next h1 hd, .links _ _ _ hd⟩
      · exact ⟨_, execJalr_raises_rd h1 hd, .badRegister _ hd⟩
    · exact ⟨_, execJalr_raises_rs1 h1, .badRegister _ h1⟩
  case beq =>
    exact branch_effect _ _ _ _ _
  case bne =>
    exact branch_effect _ _ _ _ _
  case blt =>
    exact branch_effect _ _ _ _ _
  case bge =>
    exact branch_effect _ _ _ _ _
  case bltu =>
    exact branch_effect _ _ _ _ _
  case bgeu =>
    exact branch_effect _ _ _ _ _
  case lb =>
    exact load_effect _ _ _ _ _ _
  case lh =>
    exact load_effect _ _ _ _ _ _
  case lw =>
    exact load_effect _ _ _ _ _ _
  case lbu =>
    exact load_effect _ _ _ _ _ _
  case lhu =>
    exact load_effect _ _ _ _ _ _
  case sb =>
    exact store_effect _ _ _ _ _
  case sh =>
    exact store_effect _ _ _ _ _
  case sw =>
    exact store_effect _ _ _ _ _
  case addi =>
    exact aluImm_effect _ _ _ _
  case slti =>
    exact aluImm_effect _ _ _ _
  case sltiu =>
    exact aluImm_effect _ _ _ _
  case xori =>
    exact aluImm_effect _ _ _ _
  case ori =>
    exact aluImm_effect _ _ _ _
  case andi =>
    exact aluImm_effect _ _ _ _
  case slli =>
    exact aluImm_effect _ _ _ _
  case srli =>
    exact aluImm_effect _ _ _ _
  case srai =>
    exact aluImm_effect _ _ _ _
  case add =>
    exact aluReg_effect _ _ _ _ _
  case sub =>
    exact aluReg_effect _ _ _ _ _
  case sll =>
    exact aluReg_effect _ _ _ _ _
  case slt =>
    exact aluReg_effect _ _ _ _ _
  case sltu =>
    exact aluReg_effect _ _ _ _ _
  case xor =>
    exact aluReg_effect _ _ _ _ _
  case srl =>
    exact aluReg_effect _ _ _ _ _
  case sra =>
    exact aluReg_effect _ _ _ _ _
  case or =>
    exact aluReg_effect _ _ _ _ _
  case and =>
    exact aluReg_effect _ _ _ _ _
  case mul =>
    exact aluReg_effect _ _ _ _ _
  case mulh =>
    exact aluReg_effect _ _ _ _ _
  case mulhsu =>
    exact aluReg_effect _ _ _ _ _
  case mulhu =>
    exact aluReg_effect _ _ _ _ _
  case div =>
    exact aluReg_effect _ _ _ _ _
  case divu =>
    exact aluReg_effect _ _ _ _ _
  case rem =>
    exact aluReg_effect _ _ _ _ _
  case remu =>
    exact aluReg_effect _ _ _ _ _

end Sys2Proof.Machine
end

