-- ==== Sys2Proof/Laws/Fields.lean ====
section
/-! SUPPORT. The fields of an encoded word (30_encoding.md R80 to R88), and when a word has a row's fixed bits (R91, R92). -/

namespace Sys2Proof

/-- A concatenation as a number. -/
theorem toNat_append_add {v w : Nat} (x : BitVec v) (y : BitVec w) :
    (x ++ y).toNat = x.toNat * 2 ^ w + y.toNat := by
  rw [BitVec.toNat_append, ← Nat.shiftLeft_add_eq_or_of_lt y.isLt, Nat.shiftLeft_eq]

/-- A bit field as a number. -/
theorem toNat_field {n : Nat} (v : BitVec n) (lo len : Nat) :
    (v.extractLsb' lo len).toNat = v.toNat / 2 ^ lo % 2 ^ len := by
  rw [BitVec.extractLsb'_toNat, Nat.shiftRight_eq_div_pow]

/-! ### The words of the formats as numbers -/

theorem encR_toNat (f7 : BitVec 7) (f3 : BitVec 3) (op : BitVec 7) (rd rs1 rs2 : RegIdx) :
    (encR f7 f3 op rd rs1 rs2).toNat =
      ((((f7.toNat * 2 ^ 5 + rs2.toNat) * 2 ^ 5 + rs1.toNat) * 2 ^ 3 + f3.toNat) * 2 ^ 5 + rd.toNat) * 2 ^ 7 + op.toNat := by
  unfold encR
  iterate 5 rw [toNat_append_add]

theorem encShift_toNat (f7 : BitVec 7) (f3 : BitVec 3) (op : BitVec 7) (rd rs1 : RegIdx) (shamt : BitVec 5) :
    (encShift f7 f3 op rd rs1 shamt).toNat =
      ((((f7.toNat * 2 ^ 5 + shamt.toNat) * 2 ^ 5 + rs1.toNat) * 2 ^ 3 + f3.toNat) * 2 ^ 5 + rd.toNat) * 2 ^ 7 + op.toNat := by
  unfold encShift
  iterate 5 rw [toNat_append_add]

theorem encI_toNat (f3 : BitVec 3) (op : BitVec 7) (rd rs1 : RegIdx) (imm : Word) :
    (encI f3 op rd rs1 imm).toNat =
      (((((imm.extractLsb' 0 12).toNat) * 2 ^ 5 + rs1.toNat) * 2 ^ 3 + f3.toNat) * 2 ^ 5 + rd.toNat) * 2 ^ 7 + op.toNat := by
  unfold encI
  iterate 4 rw [toNat_append_add]

theorem encS_toNat (f3 : BitVec 3) (op : BitVec 7) (rs1 rs2 : RegIdx) (imm : Word) :
    (encS f3 op rs1 rs2 imm).toNat =
      ((((((imm.extractLsb' 5 7).toNat) * 2 ^ 5 + rs2.toNat) * 2 ^ 5 + rs1.toNat) * 2 ^ 3 + f3.toNat) * 2 ^ 5 + (imm.extractLsb' 0 5).toNat) * 2 ^ 7 + op.toNat := by
  unfold encS
  iterate 5 rw [toNat_append_add]

theorem encB_toNat (f3 : BitVec 3) (op : BitVec 7) (rs1 rs2 : RegIdx) (imm : Word) :
    (encB f3 op rs1 rs2 imm).toNat =
      ((((((((imm.extractLsb' 12 1).toNat) * 2 ^ 6 + (imm.extractLsb' 5 6).toNat) * 2 ^ 5 + rs2.toNat) * 2 ^ 5 + rs1.toNat) * 2 ^ 3 + f3.toNat) * 2 ^ 4 + (imm.extractLsb' 1 4).toNat) * 2 ^ 1 + (imm.extractLsb' 11 1).toNat) * 2 ^ 7 + op.toNat := by
  unfold encB
  iterate 7 rw [toNat_append_add]

theorem encU_toNat (op : BitVec 7) (rd : RegIdx) (imm : Word) :
    (encU op rd imm).toNat =
      (((imm.extractLsb' 12 20).toNat) * 2 ^ 5 + rd.toNat) * 2 ^ 7 + op.toNat := by
  unfold encU
  iterate 2 rw [toNat_append_add]

theorem encJ_toNat (op : BitVec 7) (rd : RegIdx) (imm : Word) :
    (encJ op rd imm).toNat =
      ((((((imm.extractLsb' 20 1).toNat) * 2 ^ 10 + (imm.extractLsb' 1 10).toNat) * 2 ^ 1 + (imm.extractLsb' 11 1).toNat) * 2 ^ 8 + (imm.extractLsb' 12 8).toNat) * 2 ^ 5 + rd.toNat) * 2 ^ 7 + op.toNat := by
  unfold encJ
  iterate 5 rw [toNat_append_add]

/-! ### The fields the decoder reads back -/

@[simp] theorem opcodeOf_encR (f7 : BitVec 7) (f3 : BitVec 3) (op : BitVec 7) (rd rs1 rs2 : RegIdx) :
    opcodeOf (encR f7 f3 op rd rs1 rs2) = op := by
  apply BitVec.eq_of_toNat_eq
  rw [opcodeOf, toNat_field, encR_toNat]
  omega

@[simp] theorem funct3Of_encR (f7 : BitVec 7) (f3 : BitVec 3) (op : BitVec 7) (rd rs1 rs2 : RegIdx) :
    funct3Of (encR f7 f3 op rd rs1 rs2) = f3 := by
  apply BitVec.eq_of_toNat_eq
  rw [funct3Of, toNat_field, encR_toNat]
  omega

@[simp] theorem funct7Of_encR (f7 : BitVec 7) (f3 : BitVec 3) (op : BitVec 7) (rd rs1 rs2 : RegIdx) :
    funct7Of (encR f7 f3 op rd rs1 rs2) = f7 := by
  apply BitVec.eq_of_toNat_eq
  rw [funct7Of, toNat_field, encR_toNat]
  omega

@[simp] theorem rdOf_encR (f7 : BitVec 7) (f3 : BitVec 3) (op : BitVec 7) (rd rs1 rs2 : RegIdx) :
    rdOf (encR f7 f3 op rd rs1 rs2) = rd := by
  apply BitVec.eq_of_toNat_eq
  rw [rdOf, toNat_field, encR_toNat]
  omega

@[simp] theorem rs1Of_encR (f7 : BitVec 7) (f3 : BitVec 3) (op : BitVec 7) (rd rs1 rs2 : RegIdx) :
    rs1Of (encR f7 f3 op rd rs1 rs2) = rs1 := by
  apply BitVec.eq_of_toNat_eq
  rw [rs1Of, toNat_field, encR_toNat]
  omega

@[simp] theorem rs2Of_encR (f7 : BitVec 7) (f3 : BitVec 3) (op : BitVec 7) (rd rs1 rs2 : RegIdx) :
    rs2Of (encR f7 f3 op rd rs1 rs2) = rs2 := by
  apply BitVec.eq_of_toNat_eq
  rw [rs2Of, toNat_field, encR_toNat]
  omega

@[simp] theorem opcodeOf_encShift (f7 : BitVec 7) (f3 : BitVec 3) (op : BitVec 7) (rd rs1 : RegIdx) (shamt : BitVec 5) :
    opcodeOf (encShift f7 f3 op rd rs1 shamt) = op := by
  apply BitVec.eq_of_toNat_eq
  rw [opcodeOf, toNat_field, encShift_toNat]
  omega

@[simp] theorem funct3Of_encShift (f7 : BitVec 7) (f3 : BitVec 3) (op : BitVec 7) (rd rs1 : RegIdx) (shamt : BitVec 5) :
    funct3Of (encShift f7 f3 op rd rs1 shamt) = f3 := by
  apply BitVec.eq_of_toNat_eq
  rw [funct3Of, toNat_field, encShift_toNat]
  omega

@[simp] theorem funct7Of_encShift (f7 : BitVec 7) (f3 : BitVec 3) (op : BitVec 7) (rd rs1 : RegIdx) (shamt : BitVec 5) :
    funct7Of (encShift f7 f3 op rd rs1 shamt) = f7 := by
  apply BitVec.eq_of_toNat_eq
  rw [funct7Of, toNat_field, encShift_toNat]
  omega

@[simp] theorem rdOf_encShift (f7 : BitVec 7) (f3 : BitVec 3) (op : BitVec 7) (rd rs1 : RegIdx) (shamt : BitVec 5) :
    rdOf (encShift f7 f3 op rd rs1 shamt) = rd := by
  apply BitVec.eq_of_toNat_eq
  rw [rdOf, toNat_field, encShift_toNat]
  omega

@[simp] theorem rs1Of_encShift (f7 : BitVec 7) (f3 : BitVec 3) (op : BitVec 7) (rd rs1 : RegIdx) (shamt : BitVec 5) :
    rs1Of (encShift f7 f3 op rd rs1 shamt) = rs1 := by
  apply BitVec.eq_of_toNat_eq
  rw [rs1Of, toNat_field, encShift_toNat]
  omega

@[simp] theorem shamtOf_encShift (f7 : BitVec 7) (f3 : BitVec 3) (op : BitVec 7) (rd rs1 : RegIdx) (shamt : BitVec 5) :
    shamtOf (encShift f7 f3 op rd rs1 shamt) = shamt := by
  apply BitVec.eq_of_toNat_eq
  rw [shamtOf, toNat_field, encShift_toNat]
  omega

@[simp] theorem opcodeOf_encI (f3 : BitVec 3) (op : BitVec 7) (rd rs1 : RegIdx) (imm : Word) :
    opcodeOf (encI f3 op rd rs1 imm) = op := by
  apply BitVec.eq_of_toNat_eq
  rw [opcodeOf, toNat_field, encI_toNat]
  omega

@[simp] theorem funct3Of_encI (f3 : BitVec 3) (op : BitVec 7) (rd rs1 : RegIdx) (imm : Word) :
    funct3Of (encI f3 op rd rs1 imm) = f3 := by
  apply BitVec.eq_of_toNat_eq
  rw [funct3Of, toNat_field, encI_toNat]
  omega

@[simp] theorem rdOf_encI (f3 : BitVec 3) (op : BitVec 7) (rd rs1 : RegIdx) (imm : Word) :
    rdOf (encI f3 op rd rs1 imm) = rd := by
  apply BitVec.eq_of_toNat_eq
  rw [rdOf, toNat_field, encI_toNat]
  omega

@[simp] theorem rs1Of_encI (f3 : BitVec 3) (op : BitVec 7) (rd rs1 : RegIdx) (imm : Word) :
    rs1Of (encI f3 op rd rs1 imm) = rs1 := by
  apply BitVec.eq_of_toNat_eq
  rw [rs1Of, toNat_field, encI_toNat]
  omega

@[simp] theorem opcodeOf_encS (f3 : BitVec 3) (op : BitVec 7) (rs1 rs2 : RegIdx) (imm : Word) :
    opcodeOf (encS f3 op rs1 rs2 imm) = op := by
  apply BitVec.eq_of_toNat_eq
  rw [opcodeOf, toNat_field, encS_toNat]
  omega

@[simp] theorem funct3Of_encS (f3 : BitVec 3) (op : BitVec 7) (rs1 rs2 : RegIdx) (imm : Word) :
    funct3Of (encS f3 op rs1 rs2 imm) = f3 := by
  apply BitVec.eq_of_toNat_eq
  rw [funct3Of, toNat_field, encS_toNat]
  omega

@[simp] theorem rs1Of_encS (f3 : BitVec 3) (op : BitVec 7) (rs1 rs2 : RegIdx) (imm : Word) :
    rs1Of (encS f3 op rs1 rs2 imm) = rs1 := by
  apply BitVec.eq_of_toNat_eq
  rw [rs1Of, toNat_field, encS_toNat]
  omega

@[simp] theorem rs2Of_encS (f3 : BitVec 3) (op : BitVec 7) (rs1 rs2 : RegIdx) (imm : Word) :
    rs2Of (encS f3 op rs1 rs2 imm) = rs2 := by
  apply BitVec.eq_of_toNat_eq
  rw [rs2Of, toNat_field, encS_toNat]
  omega

@[simp] theorem opcodeOf_encB (f3 : BitVec 3) (op : BitVec 7) (rs1 rs2 : RegIdx) (imm : Word) :
    opcodeOf (encB f3 op rs1 rs2 imm) = op := by
  apply BitVec.eq_of_toNat_eq
  rw [opcodeOf, toNat_field, encB_toNat]
  omega

@[simp] theorem funct3Of_encB (f3 : BitVec 3) (op : BitVec 7) (rs1 rs2 : RegIdx) (imm : Word) :
    funct3Of (encB f3 op rs1 rs2 imm) = f3 := by
  apply BitVec.eq_of_toNat_eq
  rw [funct3Of, toNat_field, encB_toNat]
  omega

@[simp] theorem rs1Of_encB (f3 : BitVec 3) (op : BitVec 7) (rs1 rs2 : RegIdx) (imm : Word) :
    rs1Of (encB f3 op rs1 rs2 imm) = rs1 := by
  apply BitVec.eq_of_toNat_eq
  rw [rs1Of, toNat_field, encB_toNat]
  omega

@[simp] theorem rs2Of_encB (f3 : BitVec 3) (op : BitVec 7) (rs1 rs2 : RegIdx) (imm : Word) :
    rs2Of (encB f3 op rs1 rs2 imm) = rs2 := by
  apply BitVec.eq_of_toNat_eq
  rw [rs2Of, toNat_field, encB_toNat]
  omega

@[simp] theorem opcodeOf_encU (op : BitVec 7) (rd : RegIdx) (imm : Word) :
    opcodeOf (encU op rd imm) = op := by
  apply BitVec.eq_of_toNat_eq
  rw [opcodeOf, toNat_field, encU_toNat]
  omega

@[simp] theorem rdOf_encU (op : BitVec 7) (rd : RegIdx) (imm : Word) :
    rdOf (encU op rd imm) = rd := by
  apply BitVec.eq_of_toNat_eq
  rw [rdOf, toNat_field, encU_toNat]
  omega

@[simp] theorem opcodeOf_encJ (op : BitVec 7) (rd : RegIdx) (imm : Word) :
    opcodeOf (encJ op rd imm) = op := by
  apply BitVec.eq_of_toNat_eq
  rw [opcodeOf, toNat_field, encJ_toNat]
  omega

@[simp] theorem rdOf_encJ (op : BitVec 7) (rd : RegIdx) (imm : Word) :
    rdOf (encJ op rd imm) = rd := by
  apply BitVec.eq_of_toNat_eq
  rw [rdOf, toNat_field, encJ_toNat]
  omega

/-! ### The immediates the decoder builds back, when the format can carry them -/

/-- Sign extension of the low bits restores a value that fits in them. -/
theorem signExtend_field {k : Nat} (hk : 0 < k) (hk32 : k ≤ 32) {x : BitVec k} {imm : Word} (hx : x.toNat = imm.toNat % 2 ^ k)
    (hlo : -2 ^ (k - 1) ≤ imm.toInt) (hhi : imm.toInt < 2 ^ (k - 1)) : x.signExtend 32 = imm := by
  have hx' : x = imm.setWidth k := by
    apply BitVec.eq_of_toNat_eq
    rw [hx, BitVec.toNat_setWidth]
  apply BitVec.eq_of_toInt_eq
  rw [hx', BitVec.toInt_signExtend_of_le hk32, BitVec.toInt_setWidth]
  have hmod : imm.toInt.bmod (2 ^ k) = imm.toInt := by
    have hpow : (2 : Int) ^ k = 2 * 2 ^ (k - 1) := by
      conv_lhs => rw [show k = (k - 1) + 1 by omega, pow_succ]
      ring
    apply Int.bmod_eq_of_le <;> (push_cast; omega)
  rw [← hmod]
  conv_rhs => rw [BitVec.toInt_eq_toNat_bmod]
  rw [Int.bmod_bmod_of_dvd (by exact_mod_cast Nat.pow_dvd_pow 2 hk32)]

/-- imm_I of an I-type word (R82). -/
theorem immI_encI {imm : Word} (h : immFits12 imm = true) (f3 : BitVec 3) (op : BitVec 7) (rd rs1 : RegIdx) :
    immI (encI f3 op rd rs1 imm) = imm := by
  simp only [immFits12, Bool.and_eq_true, decide_eq_true_eq] at h
  apply signExtend_field (by decide) (by decide) _ (by norm_num; omega) (by norm_num; omega)
  rw [toNat_field, encI_toNat, ← Nat.div_one imm.toNat, ← pow_zero 2, ← toNat_field]
  omega

/-- imm_S of an S-type word (R83). -/
theorem immS_encS {imm : Word} (h : immFits12 imm = true) (f3 : BitVec 3) (op : BitVec 7) (rs1 rs2 : RegIdx) :
    immS (encS f3 op rs1 rs2 imm) = imm := by
  simp only [immFits12, Bool.and_eq_true, decide_eq_true_eq] at h
  apply signExtend_field (k := 12) (by decide) (by decide) _ (by norm_num; omega) (by norm_num; omega)
  have h1 : ((encS f3 op rs1 rs2 imm).extractLsb' 25 7).toNat = (imm.extractLsb' 5 7).toNat := by
    rw [toNat_field, encS_toNat]
    omega
  have h2 : ((encS f3 op rs1 rs2 imm).extractLsb' 7 5).toNat = (imm.extractLsb' 0 5).toNat := by
    rw [toNat_field, encS_toNat]
    omega
  rw [toNat_append_add, h1, h2, toNat_field, toNat_field]
  omega

/-- imm_B of a B-type word (R84). -/
theorem immB_encB {imm : Word} (h : immFitsB imm = true) (f3 : BitVec 3) (op : BitVec 7) (rs1 rs2 : RegIdx) :
    immB (encB f3 op rs1 rs2 imm) = imm := by
  simp only [immFitsB, Bool.and_eq_true, decide_eq_true_eq] at h
  apply signExtend_field (k := 13) (by decide) (by decide) _ (by norm_num; omega) (by norm_num; omega)
  have h1 : ((encB f3 op rs1 rs2 imm).extractLsb' 31 1).toNat = (imm.extractLsb' 12 1).toNat := by
    rw [toNat_field, encB_toNat]
    omega
  have h2 : ((encB f3 op rs1 rs2 imm).extractLsb' 7 1).toNat = (imm.extractLsb' 11 1).toNat := by
    rw [toNat_field, encB_toNat]
    omega
  have h3 : ((encB f3 op rs1 rs2 imm).extractLsb' 25 6).toNat = (imm.extractLsb' 5 6).toNat := by
    rw [toNat_field, encB_toNat]
    omega
  have h4 : ((encB f3 op rs1 rs2 imm).extractLsb' 8 4).toNat = (imm.extractLsb' 1 4).toNat := by
    rw [toNat_field, encB_toNat]
    omega
  iterate 4 rw [toNat_append_add]
  rw [h1, h2, h3, h4]
  simp only [toNat_field, BitVec.toNat_ofNat]
  omega

/-- imm_U of a U-type word (R86). -/
theorem immU_encU {imm : Word} (h : immFitsU imm = true) (op : BitVec 7) (rd : RegIdx) :
    immU (encU op rd imm) = imm := by
  simp only [immFitsU, decide_eq_true_eq] at h
  have h1 : ((encU op rd imm).extractLsb' 12 20).toNat = (imm.extractLsb' 12 20).toNat := by
    rw [toNat_field, encU_toNat]
    omega
  apply BitVec.eq_of_toNat_eq
  rw [immU, toNat_append_add, h1, toNat_field, BitVec.toNat_ofNat]
  omega

/-- imm_J of a J-type word (R87). -/
theorem immJ_encJ {imm : Word} (h : immFitsJ imm = true) (op : BitVec 7) (rd : RegIdx) :
    immJ (encJ op rd imm) = imm := by
  simp only [immFitsJ, Bool.and_eq_true, decide_eq_true_eq] at h
  apply signExtend_field (k := 21) (by decide) (by decide) _ (by norm_num; omega) (by norm_num; omega)
  have h1 : ((encJ op rd imm).extractLsb' 31 1).toNat = (imm.extractLsb' 20 1).toNat := by
    rw [toNat_field, encJ_toNat]
    omega
  have h2 : ((encJ op rd imm).extractLsb' 12 8).toNat = (imm.extractLsb' 12 8).toNat := by
    rw [toNat_field, encJ_toNat]
    omega
  have h3 : ((encJ op rd imm).extractLsb' 20 1).toNat = (imm.extractLsb' 11 1).toNat := by
    rw [toNat_field, encJ_toNat]
    omega
  have h4 : ((encJ op rd imm).extractLsb' 21 10).toNat = (imm.extractLsb' 1 10).toNat := by
    rw [toNat_field, encJ_toNat]
    omega
  iterate 4 rw [toNat_append_add]
  rw [h1, h2, h3, h4]
  simp only [toNat_field, BitVec.toNat_ofNat]
  omega

/-! ### The fixed bits of a row (R91, R92) -/

/-- A word agrees with a pattern under a mask exactly when every masked bit agrees. -/
theorem and_mask_iff {w p m : Word} (hp : p &&& m = p) :
    w &&& m = p ↔ ∀ i < 32, m.getLsbD i = true → w.getLsbD i = p.getLsbD i := by
  constructor
  · intro h i _ hm
    rw [← h, BitVec.getLsbD_and, hm, Bool.and_true]
  · intro h
    rw [← hp]
    apply BitVec.eq_of_getLsbD_eq
    intro i hi
    rw [BitVec.getLsbD_and, BitVec.getLsbD_and]
    cases hm : m.getLsbD i with
    | false => rw [Bool.and_false, Bool.and_false]
    | true => rw [h i hi hm]

/-- Two words have the same bit field exactly when its bits agree. -/
theorem field_eq_iff {w p : Word} {lo len : Nat} :
    w.extractLsb' lo len = p.extractLsb' lo len ↔ ∀ j < len, w.getLsbD (lo + j) = p.getLsbD (lo + j) := by
  constructor
  · intro h j hj
    simpa [hj] using congrArg (fun v => v.getLsbD j) h
  · intro h
    apply BitVec.eq_of_getLsbD_eq
    intro j hj
    simpa [hj] using h j hj

/-- The opcode table's mask 0x0000007F selects the opcode. -/
theorem and_opcode_mask {w p : Word} (hp : p &&& 0x7F#32 = p) :
    w &&& 0x7F#32 = p ↔ opcodeOf w = opcodeOf p := by
  have hm : ∀ i < 32, BitVec.getLsbD 0x7F#32 i = true ↔ i < 7 := by decide
  rw [and_mask_iff hp, opcodeOf, opcodeOf, field_eq_iff]
  constructor
  · intro h j hj
    rw [Nat.zero_add]
    exact h j (by omega) ((hm j (by omega)).mpr hj)
  · intro h i hi hmi
    simpa using h i ((hm i hi).mp hmi)

/-- The mask 0x0000707F selects opcode and funct3. -/
theorem and_funct3_mask {w p : Word} (hp : p &&& 0x707F#32 = p) :
    w &&& 0x707F#32 = p ↔ opcodeOf w = opcodeOf p ∧ funct3Of w = funct3Of p := by
  have hm : ∀ i < 32, BitVec.getLsbD 0x707F#32 i = true ↔ i < 7 ∨ (12 ≤ i ∧ i < 15) := by decide
  rw [and_mask_iff hp, opcodeOf, opcodeOf, funct3Of, funct3Of, field_eq_iff, field_eq_iff]
  constructor
  · intro h
    exact ⟨fun j hj => h _ (by omega) ((hm _ (by omega)).mpr (by omega)),
      fun j hj => h _ (by omega) ((hm _ (by omega)).mpr (by omega))⟩
  · rintro ⟨h0, h3⟩ i hi hmi
    rcases (hm i hi).mp hmi with hlt | ⟨hge, hlt⟩
    · simpa using h0 i hlt
    · simpa [Nat.add_sub_cancel' hge] using h3 (i - 12) (by omega)

/-- The mask 0xFE00707F selects opcode, funct3 and funct7. -/
theorem and_funct7_mask {w p : Word} (hp : p &&& 0xFE00707F#32 = p) :
    w &&& 0xFE00707F#32 = p ↔ opcodeOf w = opcodeOf p ∧ funct3Of w = funct3Of p ∧ funct7Of w = funct7Of p := by
  have hm : ∀ i < 32, BitVec.getLsbD 0xFE00707F#32 i = true ↔ i < 7 ∨ (12 ≤ i ∧ i < 15) ∨ 25 ≤ i := by decide
  rw [and_mask_iff hp, opcodeOf, opcodeOf, funct3Of, funct3Of, funct7Of, funct7Of, field_eq_iff, field_eq_iff, field_eq_iff]
  constructor
  · intro h
    exact ⟨fun j hj => h _ (by omega) ((hm _ (by omega)).mpr (by omega)),
      fun j hj => h _ (by omega) ((hm _ (by omega)).mpr (by omega)),
      fun j hj => h _ (by omega) ((hm _ (by omega)).mpr (by omega))⟩
  · rintro ⟨h0, h3, h7⟩ i hi hmi
    rcases (hm i hi).mp hmi with hlt | ⟨hge, hlt⟩ | hge
    · simpa using h0 i hlt
    · simpa [Nat.add_sub_cancel' hge] using h3 (i - 12) (by omega)
    · simpa [Nat.add_sub_cancel' hge] using h7 (i - 25) (by omega)

end Sys2Proof
end

