-- ==== Sys2Proof/Laws/PerInstr.lean ====
section
/-! SUPPORT. Statements about every instruction, one lemma per constructor. EncodesItsRow: the word of an instruction has the
fixed bits of the instruction's own row of the opcode table (30_encoding.md R91, R92), whatever its operands. -/

namespace Sys2Proof.Laws.EncodesItsRow

/-- The opcode table has a row of the instruction's mnemonic, and the instruction's word belongs to it. -/
def Statement (i : Instr) : Prop := ∃ r ∈ opcodeTable, r.mnemonic = i.mnemonic ∧ r.matchesWord (encode i) = true

/-- A word belongs to a row exactly when its masked bits are the row's. -/
theorem matchesWord_iff (r : OpcodeRow) (w : Word) : r.matchesWord w = true ↔ w &&& r.mask = r.pattern := by
  simp [OpcodeRow.matchesWord]

theorem lui (rd : RegIdx) (imm : Word) : Statement (.lui rd imm) :=
  ⟨⟨"LUI", 0x00000037, 0x0000007F⟩, by decide, rfl,
    (matchesWord_iff _ _).mpr ((and_opcode_mask (by decide)).mpr (opcodeOf_encU ..))⟩

theorem auipc (rd : RegIdx) (imm : Word) : Statement (.auipc rd imm) :=
  ⟨⟨"AUIPC", 0x00000017, 0x0000007F⟩, by decide, rfl,
    (matchesWord_iff _ _).mpr ((and_opcode_mask (by decide)).mpr (opcodeOf_encU ..))⟩

theorem jal (rd : RegIdx) (imm : Word) : Statement (.jal rd imm) :=
  ⟨⟨"JAL", 0x0000006F, 0x0000007F⟩, by decide, rfl,
    (matchesWord_iff _ _).mpr ((and_opcode_mask (by decide)).mpr (opcodeOf_encJ ..))⟩

theorem jalr (rd rs1 : RegIdx) (imm : Word) : Statement (.jalr rd rs1 imm) :=
  ⟨⟨"JALR", 0x00000067, 0x0000707F⟩, by decide, rfl,
    (matchesWord_iff _ _).mpr ((and_funct3_mask (by decide)).mpr (⟨opcodeOf_encI .., funct3Of_encI ..⟩))⟩

theorem beq (rs1 rs2 : RegIdx) (imm : Word) : Statement (.beq rs1 rs2 imm) :=
  ⟨⟨"BEQ", 0x00000063, 0x0000707F⟩, by decide, rfl,
    (matchesWord_iff _ _).mpr ((and_funct3_mask (by decide)).mpr (⟨opcodeOf_encB .., funct3Of_encB ..⟩))⟩

theorem bne (rs1 rs2 : RegIdx) (imm : Word) : Statement (.bne rs1 rs2 imm) :=
  ⟨⟨"BNE", 0x00001063, 0x0000707F⟩, by decide, rfl,
    (matchesWord_iff _ _).mpr ((and_funct3_mask (by decide)).mpr (⟨opcodeOf_encB .., funct3Of_encB ..⟩))⟩

theorem blt (rs1 rs2 : RegIdx) (imm : Word) : Statement (.blt rs1 rs2 imm) :=
  ⟨⟨"BLT", 0x00004063, 0x0000707F⟩, by decide, rfl,
    (matchesWord_iff _ _).mpr ((and_funct3_mask (by decide)).mpr (⟨opcodeOf_encB .., funct3Of_encB ..⟩))⟩

theorem bge (rs1 rs2 : RegIdx) (imm : Word) : Statement (.bge rs1 rs2 imm) :=
  ⟨⟨"BGE", 0x00005063, 0x0000707F⟩, by decide, rfl,
    (matchesWord_iff _ _).mpr ((and_funct3_mask (by decide)).mpr (⟨opcodeOf_encB .., funct3Of_encB ..⟩))⟩

theorem bltu (rs1 rs2 : RegIdx) (imm : Word) : Statement (.bltu rs1 rs2 imm) :=
  ⟨⟨"BLTU", 0x00006063, 0x0000707F⟩, by decide, rfl,
    (matchesWord_iff _ _).mpr ((and_funct3_mask (by decide)).mpr (⟨opcodeOf_encB .., funct3Of_encB ..⟩))⟩

theorem bgeu (rs1 rs2 : RegIdx) (imm : Word) : Statement (.bgeu rs1 rs2 imm) :=
  ⟨⟨"BGEU", 0x00007063, 0x0000707F⟩, by decide, rfl,
    (matchesWord_iff _ _).mpr ((and_funct3_mask (by decide)).mpr (⟨opcodeOf_encB .., funct3Of_encB ..⟩))⟩

theorem lb (rd rs1 : RegIdx) (imm : Word) : Statement (.lb rd rs1 imm) :=
  ⟨⟨"LB", 0x00000003, 0x0000707F⟩, by decide, rfl,
    (matchesWord_iff _ _).mpr ((and_funct3_mask (by decide)).mpr (⟨opcodeOf_encI .., funct3Of_encI ..⟩))⟩

theorem lh (rd rs1 : RegIdx) (imm : Word) : Statement (.lh rd rs1 imm) :=
  ⟨⟨"LH", 0x00001003, 0x0000707F⟩, by decide, rfl,
    (matchesWord_iff _ _).mpr ((and_funct3_mask (by decide)).mpr (⟨opcodeOf_encI .., funct3Of_encI ..⟩))⟩

theorem lw (rd rs1 : RegIdx) (imm : Word) : Statement (.lw rd rs1 imm) :=
  ⟨⟨"LW", 0x00002003, 0x0000707F⟩, by decide, rfl,
    (matchesWord_iff _ _).mpr ((and_funct3_mask (by decide)).mpr (⟨opcodeOf_encI .., funct3Of_encI ..⟩))⟩

theorem lbu (rd rs1 : RegIdx) (imm : Word) : Statement (.lbu rd rs1 imm) :=
  ⟨⟨"LBU", 0x00004003, 0x0000707F⟩, by decide, rfl,
    (matchesWord_iff _ _).mpr ((and_funct3_mask (by decide)).mpr (⟨opcodeOf_encI .., funct3Of_encI ..⟩))⟩

theorem lhu (rd rs1 : RegIdx) (imm : Word) : Statement (.lhu rd rs1 imm) :=
  ⟨⟨"LHU", 0x00005003, 0x0000707F⟩, by decide, rfl,
    (matchesWord_iff _ _).mpr ((and_funct3_mask (by decide)).mpr (⟨opcodeOf_encI .., funct3Of_encI ..⟩))⟩

theorem sb (rs1 rs2 : RegIdx) (imm : Word) : Statement (.sb rs1 rs2 imm) :=
  ⟨⟨"SB", 0x00000023, 0x0000707F⟩, by decide, rfl,
    (matchesWord_iff _ _).mpr ((and_funct3_mask (by decide)).mpr (⟨opcodeOf_encS .., funct3Of_encS ..⟩))⟩

theorem sh (rs1 rs2 : RegIdx) (imm : Word) : Statement (.sh rs1 rs2 imm) :=
  ⟨⟨"SH", 0x00001023, 0x0000707F⟩, by decide, rfl,
    (matchesWord_iff _ _).mpr ((and_funct3_mask (by decide)).mpr (⟨opcodeOf_encS .., funct3Of_encS ..⟩))⟩

theorem sw (rs1 rs2 : RegIdx) (imm : Word) : Statement (.sw rs1 rs2 imm) :=
  ⟨⟨"SW", 0x00002023, 0x0000707F⟩, by decide, rfl,
    (matchesWord_iff _ _).mpr ((and_funct3_mask (by decide)).mpr (⟨opcodeOf_encS .., funct3Of_encS ..⟩))⟩

theorem addi (rd rs1 : RegIdx) (imm : Word) : Statement (.addi rd rs1 imm) :=
  ⟨⟨"ADDI", 0x00000013, 0x0000707F⟩, by decide, rfl,
    (matchesWord_iff _ _).mpr ((and_funct3_mask (by decide)).mpr (⟨opcodeOf_encI .., funct3Of_encI ..⟩))⟩

theorem slti (rd rs1 : RegIdx) (imm : Word) : Statement (.slti rd rs1 imm) :=
  ⟨⟨"SLTI", 0x00002013, 0x0000707F⟩, by decide, rfl,
    (matchesWord_iff _ _).mpr ((and_funct3_mask (by decide)).mpr (⟨opcodeOf_encI .., funct3Of_encI ..⟩))⟩

theorem sltiu (rd rs1 : RegIdx) (imm : Word) : Statement (.sltiu rd rs1 imm) :=
  ⟨⟨"SLTIU", 0x00003013, 0x0000707F⟩, by decide, rfl,
    (matchesWord_iff _ _).mpr ((and_funct3_mask (by decide)).mpr (⟨opcodeOf_encI .., funct3Of_encI ..⟩))⟩

theorem xori (rd rs1 : RegIdx) (imm : Word) : Statement (.xori rd rs1 imm) :=
  ⟨⟨"XORI", 0x00004013, 0x0000707F⟩, by decide, rfl,
    (matchesWord_iff _ _).mpr ((and_funct3_mask (by decide)).mpr (⟨opcodeOf_encI .., funct3Of_encI ..⟩))⟩

theorem ori (rd rs1 : RegIdx) (imm : Word) : Statement (.ori rd rs1 imm) :=
  ⟨⟨"ORI", 0x00006013, 0x0000707F⟩, by decide, rfl,
    (matchesWord_iff _ _).mpr ((and_funct3_mask (by decide)).mpr (⟨opcodeOf_encI .., funct3Of_encI ..⟩))⟩

theorem andi (rd rs1 : RegIdx) (imm : Word) : Statement (.andi rd rs1 imm) :=
  ⟨⟨"ANDI", 0x00007013, 0x0000707F⟩, by decide, rfl,
    (matchesWord_iff _ _).mpr ((and_funct3_mask (by decide)).mpr (⟨opcodeOf_encI .., funct3Of_encI ..⟩))⟩

theorem slli (rd rs1 : RegIdx) (shamt : BitVec 5) : Statement (.slli rd rs1 shamt) :=
  ⟨⟨"SLLI", 0x00001013, 0xFE00707F⟩, by decide, rfl,
    (matchesWord_iff _ _).mpr ((and_funct7_mask (by decide)).mpr (⟨opcodeOf_encShift .., funct3Of_encShift .., funct7Of_encShift ..⟩))⟩

theorem srli (rd rs1 : RegIdx) (shamt : BitVec 5) : Statement (.srli rd rs1 shamt) :=
  ⟨⟨"SRLI", 0x00005013, 0xFE00707F⟩, by decide, rfl,
    (matchesWord_iff _ _).mpr ((and_funct7_mask (by decide)).mpr (⟨opcodeOf_encShift .., funct3Of_encShift .., funct7Of_encShift ..⟩))⟩

theorem srai (rd rs1 : RegIdx) (shamt : BitVec 5) : Statement (.srai rd rs1 shamt) :=
  ⟨⟨"SRAI", 0x40005013, 0xFE00707F⟩, by decide, rfl,
    (matchesWord_iff _ _).mpr ((and_funct7_mask (by decide)).mpr (⟨opcodeOf_encShift .., funct3Of_encShift .., funct7Of_encShift ..⟩))⟩

theorem add (rd rs1 rs2 : RegIdx) : Statement (.add rd rs1 rs2) :=
  ⟨⟨"ADD", 0x00000033, 0xFE00707F⟩, by decide, rfl,
    (matchesWord_iff _ _).mpr ((and_funct7_mask (by decide)).mpr (⟨opcodeOf_encR .., funct3Of_encR .., funct7Of_encR ..⟩))⟩

theorem sub (rd rs1 rs2 : RegIdx) : Statement (.sub rd rs1 rs2) :=
  ⟨⟨"SUB", 0x40000033, 0xFE00707F⟩, by decide, rfl,
    (matchesWord_iff _ _).mpr ((and_funct7_mask (by decide)).mpr (⟨opcodeOf_encR .., funct3Of_encR .., funct7Of_encR ..⟩))⟩

theorem sll (rd rs1 rs2 : RegIdx) : Statement (.sll rd rs1 rs2) :=
  ⟨⟨"SLL", 0x00001033, 0xFE00707F⟩, by decide, rfl,
    (matchesWord_iff _ _).mpr ((and_funct7_mask (by decide)).mpr (⟨opcodeOf_encR .., funct3Of_encR .., funct7Of_encR ..⟩))⟩

theorem slt (rd rs1 rs2 : RegIdx) : Statement (.slt rd rs1 rs2) :=
  ⟨⟨"SLT", 0x00002033, 0xFE00707F⟩, by decide, rfl,
    (matchesWord_iff _ _).mpr ((and_funct7_mask (by decide)).mpr (⟨opcodeOf_encR .., funct3Of_encR .., funct7Of_encR ..⟩))⟩

theorem sltu (rd rs1 rs2 : RegIdx) : Statement (.sltu rd rs1 rs2) :=
  ⟨⟨"SLTU", 0x00003033, 0xFE00707F⟩, by decide, rfl,
    (matchesWord_iff _ _).mpr ((and_funct7_mask (by decide)).mpr (⟨opcodeOf_encR .., funct3Of_encR .., funct7Of_encR ..⟩))⟩

theorem xor (rd rs1 rs2 : RegIdx) : Statement (.xor rd rs1 rs2) :=
  ⟨⟨"XOR", 0x00004033, 0xFE00707F⟩, by decide, rfl,
    (matchesWord_iff _ _).mpr ((and_funct7_mask (by decide)).mpr (⟨opcodeOf_encR .., funct3Of_encR .., funct7Of_encR ..⟩))⟩

theorem srl (rd rs1 rs2 : RegIdx) : Statement (.srl rd rs1 rs2) :=
  ⟨⟨"SRL", 0x00005033, 0xFE00707F⟩, by decide, rfl,
    (matchesWord_iff _ _).mpr ((and_funct7_mask (by decide)).mpr (⟨opcodeOf_encR .., funct3Of_encR .., funct7Of_encR ..⟩))⟩

theorem sra (rd rs1 rs2 : RegIdx) : Statement (.sra rd rs1 rs2) :=
  ⟨⟨"SRA", 0x40005033, 0xFE00707F⟩, by decide, rfl,
    (matchesWord_iff _ _).mpr ((and_funct7_mask (by decide)).mpr (⟨opcodeOf_encR .., funct3Of_encR .., funct7Of_encR ..⟩))⟩

theorem or (rd rs1 rs2 : RegIdx) : Statement (.or rd rs1 rs2) :=
  ⟨⟨"OR", 0x00006033, 0xFE00707F⟩, by decide, rfl,
    (matchesWord_iff _ _).mpr ((and_funct7_mask (by decide)).mpr (⟨opcodeOf_encR .., funct3Of_encR .., funct7Of_encR ..⟩))⟩

theorem and (rd rs1 rs2 : RegIdx) : Statement (.and rd rs1 rs2) :=
  ⟨⟨"AND", 0x00007033, 0xFE00707F⟩, by decide, rfl,
    (matchesWord_iff _ _).mpr ((and_funct7_mask (by decide)).mpr (⟨opcodeOf_encR .., funct3Of_encR .., funct7Of_encR ..⟩))⟩

theorem mul (rd rs1 rs2 : RegIdx) : Statement (.mul rd rs1 rs2) :=
  ⟨⟨"MUL", 0x02000033, 0xFE00707F⟩, by decide, rfl,
    (matchesWord_iff _ _).mpr ((and_funct7_mask (by decide)).mpr (⟨opcodeOf_encR .., funct3Of_encR .., funct7Of_encR ..⟩))⟩

theorem mulh (rd rs1 rs2 : RegIdx) : Statement (.mulh rd rs1 rs2) :=
  ⟨⟨"MULH", 0x02001033, 0xFE00707F⟩, by decide, rfl,
    (matchesWord_iff _ _).mpr ((and_funct7_mask (by decide)).mpr (⟨opcodeOf_encR .., funct3Of_encR .., funct7Of_encR ..⟩))⟩

theorem mulhsu (rd rs1 rs2 : RegIdx) : Statement (.mulhsu rd rs1 rs2) :=
  ⟨⟨"MULHSU", 0x02002033, 0xFE00707F⟩, by decide, rfl,
    (matchesWord_iff _ _).mpr ((and_funct7_mask (by decide)).mpr (⟨opcodeOf_encR .., funct3Of_encR .., funct7Of_encR ..⟩))⟩

theorem mulhu (rd rs1 rs2 : RegIdx) : Statement (.mulhu rd rs1 rs2) :=
  ⟨⟨"MULHU", 0x02003033, 0xFE00707F⟩, by decide, rfl,
    (matchesWord_iff _ _).mpr ((and_funct7_mask (by decide)).mpr (⟨opcodeOf_encR .., funct3Of_encR .., funct7Of_encR ..⟩))⟩

theorem div (rd rs1 rs2 : RegIdx) : Statement (.div rd rs1 rs2) :=
  ⟨⟨"DIV", 0x02004033, 0xFE00707F⟩, by decide, rfl,
    (matchesWord_iff _ _).mpr ((and_funct7_mask (by decide)).mpr (⟨opcodeOf_encR .., funct3Of_encR .., funct7Of_encR ..⟩))⟩

theorem divu (rd rs1 rs2 : RegIdx) : Statement (.divu rd rs1 rs2) :=
  ⟨⟨"DIVU", 0x02005033, 0xFE00707F⟩, by decide, rfl,
    (matchesWord_iff _ _).mpr ((and_funct7_mask (by decide)).mpr (⟨opcodeOf_encR .., funct3Of_encR .., funct7Of_encR ..⟩))⟩

theorem rem (rd rs1 rs2 : RegIdx) : Statement (.rem rd rs1 rs2) :=
  ⟨⟨"REM", 0x02006033, 0xFE00707F⟩, by decide, rfl,
    (matchesWord_iff _ _).mpr ((and_funct7_mask (by decide)).mpr (⟨opcodeOf_encR .., funct3Of_encR .., funct7Of_encR ..⟩))⟩

theorem remu (rd rs1 rs2 : RegIdx) : Statement (.remu rd rs1 rs2) :=
  ⟨⟨"REMU", 0x02007033, 0xFE00707F⟩, by decide, rfl,
    (matchesWord_iff _ _).mpr ((and_funct7_mask (by decide)).mpr (⟨opcodeOf_encR .., funct3Of_encR .., funct7Of_encR ..⟩))⟩

end Sys2Proof.Laws.EncodesItsRow
end

