-- ==== Sys2Proof/Tests/Slice0.lean ====
section
/-! SUPPORT. The implementer's own tests. Every expected result is the spec's: a rule's example, 95_test_vectors.md, or a word
written out from the encoding tables of 30_encoding.md. -/

namespace Sys2Proof.Tests

open Sys2Proof.Machine

/-! ### Well-formedness: one ill-formed term for each check, and a well-formed one at each edge -/

theorem test_wf_refuses_imm12_above : Instr.wf (.addi 5 6 2048) = false := by decide
theorem test_wf_refuses_imm12_below : Instr.wf (.sw 6 7 (-2049)) = false := by decide
theorem test_wf_refuses_odd_branch_offset : Instr.wf (.beq 6 7 3) = false := by decide
theorem test_wf_refuses_far_branch_above : Instr.wf (.bne 6 7 4096) = false := by decide
theorem test_wf_refuses_far_branch_below : Instr.wf (.bne 6 7 (-4098)) = false := by decide
theorem test_wf_refuses_low_bits_upper : Instr.wf (.lui 5 0x12345001) = false := by decide
theorem test_wf_refuses_odd_jump_offset : Instr.wf (.jal 1 5) = false := by decide
theorem test_wf_refuses_far_jump_above : Instr.wf (.jal 1 1048576) = false := by decide
theorem test_wf_refuses_far_jump_below : Instr.wf (.jal 1 (-1048578)) = false := by decide
theorem test_wf_accepts_edges :
    Instr.wf (.addi 5 6 (-2048)) = true ∧ Instr.wf (.bgeu 6 7 4094) = true ∧ Instr.wf (.beq 0 0 (-4096)) = true ∧
      Instr.wf (.jal 1 1048574) = true ∧ Instr.wf (.jal 1 (-1048576)) = true ∧ Instr.wf (.lui 5 0xFFFFF000) = true := by
  decide

/-! ### Decoding: words written out bit by bit from R80, R91, R92, one or more for each family -/

/-- `LUI x5, 0x12345`: 00010010001101000101 00101 0110111 -/
theorem test_decode_bits_upper : decode 0b00010010001101000101001010110111#32 = .ok (.lui 5 0x12345000) := by decide
/-- `JAL x1, -4`: 1 1111111110 1 11111111 00001 1101111 -/
theorem test_decode_bits_jal : decode 0b11111111110111111111000011101111#32 = .ok (.jal 1 (-4)) := by decide
/-- `JALR x1, 5(x6)`: 000000000101 00110 000 00001 1100111 -/
theorem test_decode_bits_jalr : decode 0b00000000010100110000000011100111#32 = .ok (.jalr 1 6 5) := by decide
/-- `BNE x6, x7, -4`: 1 111111 00111 00110 001 1110 1 1100011 -/
theorem test_decode_bits_branch : decode 0b11111110011100110001111011100011#32 = .ok (.bne 6 7 (-4)) := by decide
/-- `LH x5, 2(x6)`: 000000000010 00110 001 00101 0000011 -/
theorem test_decode_bits_load : decode 0b00000000001000110001001010000011#32 = .ok (.lh 5 6 2) := by decide
/-- `SW x7, -4(x6)`: 1111111 00111 00110 010 11100 0100011 -/
theorem test_decode_bits_store : decode 0b11111110011100110010111000100011#32 = .ok (.sw 6 7 (-4)) := by decide
/-- `ADDI x5, x6, -1`: 111111111111 00110 000 00101 0010011 -/
theorem test_decode_bits_op_imm : decode 0b11111111111100110000001010010011#32 = .ok (.addi 5 6 (-1)) := by decide
/-- `SRAI x5, x6, 4`: 0100000 00100 00110 101 00101 0010011 -/
theorem test_decode_bits_shift_imm : decode 0b01000000010000110101001010010011#32 = .ok (.srai 5 6 4) := by decide
/-- `SUB x5, x6, x7`: 0100000 00111 00110 000 00101 0110011 -/
theorem test_decode_bits_op : decode 0b01000000011100110000001010110011#32 = .ok (.sub 5 6 7) := by decide
/-- `DIV x5, x6, x7`: 0000001 00111 00110 100 00101 0110011 -/
theorem test_decode_bits_mul_div : decode 0b00000010011100110100001010110011#32 = .ok (.div 5 6 7) := by decide

/-! ### Decoding: the word of each rule's own example, one for every constructor -/

/-- R210. -/
theorem test_decode_lui : decode 0x123452B7#32 = .ok (.lui 5 0x12345000) := by decide
/-- R211. -/
theorem test_decode_auipc : decode 0x00001297#32 = .ok (.auipc 5 0x1000) := by decide
/-- R230. -/
theorem test_decode_jal : decode 0x008000EF#32 = .ok (.jal 1 8) := by decide
/-- R231. -/
theorem test_decode_jalr : decode 0x00008067#32 = .ok (.jalr 0 1 0) := by decide
/-- R215. -/
theorem test_decode_beq : decode 0x00000463#32 = .ok (.beq 0 0 8) := by decide
/-- R216. -/
theorem test_decode_bne : decode 0xFE731EE3#32 = .ok (.bne 6 7 (-4)) := by decide
/-- R217. -/
theorem test_decode_blt : decode 0x00734663#32 = .ok (.blt 6 7 12) := by decide
/-- R218. -/
theorem test_decode_bge : decode 0x00735863#32 = .ok (.bge 6 7 16) := by decide
/-- R219. -/
theorem test_decode_bltu : decode 0xFE736CE3#32 = .ok (.bltu 6 7 (-8)) := by decide
/-- R220. -/
theorem test_decode_bgeu : decode 0x7E737FE3#32 = .ok (.bgeu 6 7 4094) := by decide
/-- R180. -/
theorem test_decode_lb : decode 0x00030283#32 = .ok (.lb 5 6 0) := by decide
/-- R181. -/
theorem test_decode_lh : decode 0x00231283#32 = .ok (.lh 5 6 2) := by decide
/-- R182. -/
theorem test_decode_lw : decode 0x00432283#32 = .ok (.lw 5 6 4) := by decide
/-- R183. -/
theorem test_decode_lbu : decode 0x00034283#32 = .ok (.lbu 5 6 0) := by decide
/-- R184. -/
theorem test_decode_lhu : decode 0x00235283#32 = .ok (.lhu 5 6 2) := by decide
/-- R195. -/
theorem test_decode_sb : decode 0x007301A3#32 = .ok (.sb 6 7 3) := by decide
/-- R196. -/
theorem test_decode_sh : decode 0x00731123#32 = .ok (.sh 6 7 2) := by decide
/-- R197. -/
theorem test_decode_sw : decode 0x00732023#32 = .ok (.sw 6 7 0) := by decide
/-- R120. -/
theorem test_decode_addi : decode 0x00500093#32 = .ok (.addi 1 0 5) := by decide
/-- R121. -/
theorem test_decode_slti : decode 0xFFF32293#32 = .ok (.slti 5 6 (-1)) := by decide
/-- R122. -/
theorem test_decode_sltiu : decode 0xFFF33293#32 = .ok (.sltiu 5 6 (-1)) := by decide
/-- R123. -/
theorem test_decode_xori : decode 0xFFF34293#32 = .ok (.xori 5 6 (-1)) := by decide
/-- R124. -/
theorem test_decode_ori : decode 0x0F036293#32 = .ok (.ori 5 6 0x0F0) := by decide
/-- R125. -/
theorem test_decode_andi : decode 0x0FF37293#32 = .ok (.andi 5 6 0xFF) := by decide
/-- R126. -/
theorem test_decode_slli : decode 0x01F31293#32 = .ok (.slli 5 6 31) := by decide
/-- R127. -/
theorem test_decode_srli : decode 0x00435293#32 = .ok (.srli 5 6 4) := by decide
/-- R128. -/
theorem test_decode_srai : decode 0x40435293#32 = .ok (.srai 5 6 4) := by decide
/-- R140. -/
theorem test_decode_add : decode 0x002081B3#32 = .ok (.add 3 1 2) := by decide
/-- R141. -/
theorem test_decode_sub : decode 0x407302B3#32 = .ok (.sub 5 6 7) := by decide
/-- R142. -/
theorem test_decode_sll : decode 0x007312B3#32 = .ok (.sll 5 6 7) := by decide
/-- R143. -/
theorem test_decode_slt : decode 0x007322B3#32 = .ok (.slt 5 6 7) := by decide
/-- R144. -/
theorem test_decode_sltu : decode 0x007332B3#32 = .ok (.sltu 5 6 7) := by decide
/-- R145. -/
theorem test_decode_xor : decode 0x007342B3#32 = .ok (.xor 5 6 7) := by decide
/-- R146. -/
theorem test_decode_srl : decode 0x007352B3#32 = .ok (.srl 5 6 7) := by decide
/-- R147. -/
theorem test_decode_sra : decode 0x407352B3#32 = .ok (.sra 5 6 7) := by decide
/-- R148. -/
theorem test_decode_or : decode 0x007362B3#32 = .ok (.or 5 6 7) := by decide
/-- R149. -/
theorem test_decode_and : decode 0x007372B3#32 = .ok (.and 5 6 7) := by decide
/-- R160. -/
theorem test_decode_mul : decode 0x027302B3#32 = .ok (.mul 5 6 7) := by decide
/-- R161. -/
theorem test_decode_mulh : decode 0x027312B3#32 = .ok (.mulh 5 6 7) := by decide
/-- R162. -/
theorem test_decode_mulhsu : decode 0x027322B3#32 = .ok (.mulhsu 5 6 7) := by decide
/-- R163. -/
theorem test_decode_mulhu : decode 0x027332B3#32 = .ok (.mulhu 5 6 7) := by decide
/-- R164. -/
theorem test_decode_div : decode 0x027342B3#32 = .ok (.div 5 6 7) := by decide
/-- R165. -/
theorem test_decode_divu : decode 0x027352B3#32 = .ok (.divu 5 6 7) := by decide
/-- R166. -/
theorem test_decode_rem : decode 0x027362B3#32 = .ok (.rem 5 6 7) := by decide
/-- R167. -/
theorem test_decode_remu : decode 0x027372B3#32 = .ok (.remu 5 6 7) := by decide

/-- The words without an instruction of 95_test_vectors.md section 2.9. -/
theorem test_decode_invalid :
    decode 0x00000000#32 = .invalidOp 0x00 0 0x00 ∧ decode 0xFFFFFFFF#32 = .invalidOp 0x7F 7 0x7F ∧
      decode 0x0FF0000F#32 = .invalidOp 0x0F 0 0x07 ∧ decode 0x00000073#32 = .invalidOp 0x73 0 0x00 ∧
      decode 0x00100073#32 = .invalidOp 0x73 0 0x00 ∧ decode 0x00033283#32 = .invalidOp 0x03 3 0x00 ∧
      decode 0x00732463#32 = .invalidOp 0x63 2 0x00 ∧ decode 0x00004501#32 = .invalidOp 0x01 4 0x00 := by
  decide

/-- The strict funct3 and funct7 checks (R92, D16; 95_test_vectors.md sections 2.2, 2.3, 2.8). -/
theorem test_decode_strict :
    decode 0x40331293#32 = .invalidOp 0x13 1 0x20 ∧ decode 0x047302B3#32 = .invalidOp 0x33 0 0x02 ∧
      decode 0x00009067#32 = .invalidOp 0x67 1 0x00 := by
  decide

/-- Immediate edges of 95_test_vectors.md section 2.1. -/
theorem test_decode_immediates :
    decode 0x80000093#32 = .ok (.addi 1 0 0xFFFFF800) ∧ decode 0x7FF00113#32 = .ok (.addi 2 0 0x7FF) ∧
      decode 0x80000063#32 = .ok (.beq 0 0 (-4096)) ∧ decode 0x000000E3#32 = .ok (.beq 0 0 2048) ∧
      decode 0x800000EF#32 = .ok (.jal 1 (-1048576)) ∧ decode 0x7FFFF0EF#32 = .ok (.jal 1 1048574) ∧
      decode 0x0010006F#32 = .ok (.jal 0 2048) ∧ decode 0xFFFFF2B7#32 = .ok (.lui 5 0xFFFFF000) := by
  decide

/-- The encoder against the same words (R80): one of each format. -/
theorem test_encode_formats :
    encode (.sub 5 6 7) = 0x407302B3#32 ∧ encode (.addi 5 6 (-1)) = 0xFFF30293#32 ∧ encode (.srai 5 6 4) = 0x40435293#32 ∧
      encode (.sw 6 7 (-4)) = 0xFE732E23#32 ∧ encode (.bgeu 6 7 4094) = 0x7E737FE3#32 ∧
      encode (.lui 5 0x12345000) = 0x123452B7#32 ∧ encode (.jal 1 8) = 0x008000EF#32 := by
  decide

/-- Bytes of fewer than four hold no instruction; more leave a rest (R80, R51). -/
theorem test_decode_bytes :
    decodeBytes [0x93, 0x00, 0x50] = none ∧
      decodeBytes [0x93, 0x00, 0x50, 0x00, 0xAA] = some (.ok (.addi 1 0 5), [0xAA]) := by
  decide

theorem test_decode_table_word :
    decodeTableWord 32 0x00500093 = some (.addi 1 0 5) ∧ decodeTableWord 32 0 = none := by decide

/-! ### One step on a small state -/

/-- A launched CORE of the test vectors' default parameters, PROGRAM_LENGTH 0x1000, at address `pc` with x6 and x7. -/
def atPc (pc x6 x7 : Word) : State :=
  (({ State.reset with pc := pc, status := .running, programLength := 0x1000 }).setReg 6 x6).setReg 7 x7

/-- The same with the eight bytes of 95_test_vectors.md section 2.5 at 0x100. -/
def withData (x6 x7 : Word) : State :=
  { atPc 0 x6 x7 with mem := Memory.writeLE (Memory.writeLE [] 0x100 4 0x923400F0) 0x104 4 0x12345678 }

/-- The same in embedded mode. -/
def embeddedCore : State := { atPc 0 0 0 with cfg := { embedded := true, memSize := 0x10000, haltOnZeroPc := false } }

/-- The next state of an outcome; the reset state if there is none. -/
def nextOr : Host.Outcome State Machine.Fault Refusal → State
  | .next t => t
  | .fault _ => State.reset
  | .refused _ => State.reset

/-- The state after one step that runs the word `w` from `s`. -/
def runWord (w : Nat) (s : State) : State := nextOr (step (s.withFetchWord 32 w))

/-- R120. -/
theorem test_addi_wraps : (runWord 0xFFF30293 (atPc 0x0 0x80000000 0x00000000)).reg 5 = 0x7FFFFFFF := by decide
/-- R121. -/
theorem test_slti_equal : (runWord 0xFFF32293 (atPc 0x0 0xFFFFFFFF 0x00000000)).reg 5 = 0x00000000 := by decide
/-- R121. -/
theorem test_slti_signed : (runWord 0xFFF32293 (atPc 0x0 0xFFFFFFFE 0x00000000)).reg 5 = 0x00000001 := by decide
/-- R122. -/
theorem test_sltiu_extends : (runWord 0xFFF33293 (atPc 0x0 0x00000005 0x00000000)).reg 5 = 0x00000001 := by decide
/-- R122. -/
theorem test_sltiu_seqz : (runWord 0x00133293 (atPc 0x0 0x00000000 0x00000000)).reg 5 = 0x00000001 := by decide
/-- R123. -/
theorem test_xori : (runWord 0xFFF34293 (atPc 0x0 0x0000FF00 0x00000000)).reg 5 = 0xFFFF00FF := by decide
/-- R124. -/
theorem test_ori : (runWord 0x0F036293 (atPc 0x0 0x00000F0F 0x00000000)).reg 5 = 0x00000FFF := by decide
/-- R125. -/
theorem test_andi_negative : (runWord 0xFF037293 (atPc 0x0 0x12345678 0x00000000)).reg 5 = 0x12345670 := by decide
/-- R126. -/
theorem test_slli_31 : (runWord 0x01F31293 (atPc 0x0 0x00000003 0x00000000)).reg 5 = 0x80000000 := by decide
/-- R127. -/
theorem test_srli : (runWord 0x00435293 (atPc 0x0 0x80000000 0x00000000)).reg 5 = 0x08000000 := by decide
/-- R128. -/
theorem test_srai : (runWord 0x40435293 (atPc 0x0 0x80000000 0x00000000)).reg 5 = 0xF8000000 := by decide
/-- R128. -/
theorem test_srai_31 : (runWord 0x41F35293 (atPc 0x0 0x80000001 0x00000000)).reg 5 = 0xFFFFFFFF := by decide
/-- R140. -/
theorem test_add_wraps : (runWord 0x007302B3 (atPc 0x0 0x7FFFFFFF 0x00000001)).reg 5 = 0x80000000 := by decide
/-- R141. -/
theorem test_sub_order : (runWord 0x407302B3 (atPc 0x0 0x00000003 0x00000005)).reg 5 = 0xFFFFFFFE := by decide
/-- R142. -/
theorem test_sll_low_bits : (runWord 0x007312B3 (atPc 0x0 0x00000001 0x00000021)).reg 5 = 0x00000002 := by decide
/-- R143. -/
theorem test_slt_signed : (runWord 0x007322B3 (atPc 0x0 0x80000000 0x7FFFFFFF)).reg 5 = 0x00000001 := by decide
/-- R144. -/
theorem test_sltu_unsigned : (runWord 0x007332B3 (atPc 0x0 0xFFFFFFFF 0x00000001)).reg 5 = 0x00000000 := by decide
/-- R145. -/
theorem test_xor : (runWord 0x007342B3 (atPc 0x0 0xFF00FF00 0x0F0F0F0F)).reg 5 = 0xF00FF00F := by decide
/-- R146. -/
theorem test_srl : (runWord 0x007352B3 (atPc 0x0 0x80000000 0x0000001F)).reg 5 = 0x00000001 := by decide
/-- R147. -/
theorem test_sra_low_bits : (runWord 0x407352B3 (atPc 0x0 0x80000000 0xFFFFFFE4)).reg 5 = 0xF8000000 := by decide
/-- R148. -/
theorem test_or : (runWord 0x007362B3 (atPc 0x0 0xFF00FF00 0x0F0F0F0F)).reg 5 = 0xFF0FFF0F := by decide
/-- R149. -/
theorem test_and : (runWord 0x007372B3 (atPc 0x0 0xFF00FF00 0x0F0F0F0F)).reg 5 = 0x0F000F00 := by decide
/-- R160. -/
theorem test_mul : (runWord 0x027302B3 (atPc 0x0 0xFFFFFFF9 0x00000003)).reg 5 = 0xFFFFFFEB := by decide
/-- R161. -/
theorem test_mulh : (runWord 0x027312B3 (atPc 0x0 0xFFFFFFF9 0x00000003)).reg 5 = 0xFFFFFFFF := by decide
/-- R161, section 2.4. -/
theorem test_mulh_mixed : (runWord 0x027312B3 (atPc 0x0 0x12345678 0x9ABCDEF0)).reg 5 = 0xF8CC93D6 := by decide
/-- R162. -/
theorem test_mulhsu_operands : (runWord 0x027322B3 (atPc 0x0 0x00000007 0xFFFFFFFD)).reg 5 = 0x00000006 := by decide
/-- R162. -/
theorem test_mulhsu_negative : (runWord 0x027322B3 (atPc 0x0 0x80000000 0x80000000)).reg 5 = 0xC0000000 := by decide
/-- R163. -/
theorem test_mulhu : (runWord 0x027332B3 (atPc 0x0 0xFFFFFFF9 0x00000003)).reg 5 = 0x00000002 := by decide
/-- R164. -/
theorem test_div_toward_zero : (runWord 0x027342B3 (atPc 0x0 0xFFFFFFF9 0x00000003)).reg 5 = 0xFFFFFFFE := by decide
/-- R164. -/
theorem test_div_overflow : (runWord 0x027342B3 (atPc 0x0 0x80000000 0xFFFFFFFF)).reg 5 = 0x80000000 := by decide
/-- R165. -/
theorem test_divu_by_zero : (runWord 0x027352B3 (atPc 0x0 0x00000007 0x00000000)).reg 5 = 0xFFFFFFFF := by decide
/-- R165. -/
theorem test_divu : (runWord 0x027352B3 (atPc 0x0 0xFFFFFFF9 0x00000003)).reg 5 = 0x55555553 := by decide
/-- R166. -/
theorem test_rem_sign : (runWord 0x027362B3 (atPc 0x0 0xFFFFFFF9 0xFFFFFFFD)).reg 5 = 0xFFFFFFFF := by decide
/-- R166. -/
theorem test_rem_by_zero : (runWord 0x027362B3 (atPc 0x0 0xFFFFFFF9 0x00000000)).reg 5 = 0xFFFFFFF9 := by decide
/-- R167. -/
theorem test_remu : (runWord 0x027372B3 (atPc 0x0 0x80000000 0xFFFFFFFF)).reg 5 = 0x80000000 := by decide
/-- R167. -/
theorem test_remu_by_zero : (runWord 0x027372B3 (atPc 0x0 0x00000007 0x00000000)).reg 5 = 0x00000007 := by decide
/-- R210. -/
theorem test_lui : (runWord 0x123452B7 (atPc 0x0 0x00000000 0x00000000)).reg 5 = 0x12345000 := by decide
/-- R211. -/
theorem test_auipc : (runWord 0x00001297 (atPc 0x10 0x00000000 0x00000000)).reg 5 = 0x00001010 := by decide
/-- R211. -/
theorem test_auipc_wraps : (runWord 0xFFFFF297 (atPc 0x8 0x00000000 0x00000000)).reg 5 = 0xFFFFF008 := by decide
/-- 95_test_vectors.md section 2.3. -/
theorem test_add_same_register : (runWord 0x00630333 (atPc 0x0 0x40000000 0x00000000)).reg 6 = 0x80000000 := by decide

/-- R180, section 2.5. -/
theorem test_lb : (runWord 0x00030283 (withData 0x100 0)).reg 5 = 0xFFFFFFF0 := by decide
/-- R183, section 2.5. -/
theorem test_lbu : (runWord 0x00034283 (withData 0x100 0)).reg 5 = 0x000000F0 := by decide
/-- R181, section 2.5. -/
theorem test_lh : (runWord 0x00231283 (withData 0x100 0)).reg 5 = 0xFFFF9234 := by decide
/-- R184, section 2.5. -/
theorem test_lhu : (runWord 0x00235283 (withData 0x100 0)).reg 5 = 0x00009234 := by decide
/-- R182, section 2.5. -/
theorem test_lw : (runWord 0x00032283 (withData 0x100 0)).reg 5 = 0x923400F0 := by decide
/-- R182, R55: the last word of a 64 KiB memory, and the first beyond it. -/
theorem test_lw_at_the_end :
    (runWord 0x00032283 (atPc 0 0xFFFC 0)).fault = none ∧
      (runWord 0x00032283 (atPc 0 0x10000 0)).fault = some (.invalidMemory 0x10000 4 4) := by
  decide
/-- R181, R256: an odd halfword address faults; the PC stays. -/
theorem test_lh_misaligned :
    (runWord 0x00131283 (atPc 0 0x100 0)).fault = some (.invalidMemory 0x101 2 2) ∧
      (runWord 0x00131283 (atPc 0 0x100 0)).pc = 0 := by
  decide
/-- A load to x0 still checks (section 2.5). -/
theorem test_lb_x0_checks : (runWord 0x00030003 (atPc 0 0x10000 0)).fault = some (.invalidMemory 0x10000 1 1) := by decide
/-- R195: only the addressed byte changes. -/
theorem test_sb : (runWord 0x007301A3 (withData 0x100 0xAB)).mem.readLE 0x100 4 = 0xAB3400F0 := by decide
/-- R196. -/
theorem test_sh : (runWord 0x00731123 (withData 0x100 0x12349876)).mem.readLE 0x100 4 = 0x987600F0 := by decide
/-- R196, R54: an odd address writes no byte. -/
theorem test_sh_misaligned :
    (runWord 0x007310A3 (atPc 0 0x100 0x1234)).fault = some (.invalidMemory 0x101 2 2) ∧
      (runWord 0x007310A3 (atPc 0 0x100 0x1234)).mem.readLE 0x100 4 = 0 := by
  decide
/-- R197, the bytes in little-endian order; a negative offset (section 2.5). -/
theorem test_sw :
    (runWord 0xFE732E23 (atPc 0 0x104 0x12345678)).mem.read 0x100 = 0x78 ∧
      (runWord 0xFE732E23 (atPc 0 0x104 0x12345678)).mem.read 0x103 = 0x12 := by
  decide

/-- R215. -/
theorem test_beq_taken : (runWord 0x00730463 (atPc 0x0 0x5 0x5)).pc = 0x8 := by decide
/-- R215. -/
theorem test_beq_not_taken : (runWord 0x00730463 (atPc 0x0 0x5 0x6)).pc = 0x4 := by decide
/-- R216. -/
theorem test_bne : (runWord 0xFE731EE3 (atPc 0x10 0x1 0x0)).pc = 0xC := by decide
/-- R216. -/
theorem test_bne_not_taken : (runWord 0xFE731EE3 (atPc 0x10 0x1 0x1)).pc = 0x14 := by decide
/-- R217. -/
theorem test_blt_signed : (runWord 0x00734663 (atPc 0x0 0xFFFFFFFF 0x1)).pc = 0xC := by decide
/-- R218. -/
theorem test_bge_not_taken : (runWord 0x00735863 (atPc 0x0 0xFFFFFFFF 0x1)).pc = 0x4 := by decide
/-- R218. -/
theorem test_bge_equal : (runWord 0x00735863 (atPc 0x0 0x7 0x7)).pc = 0x10 := by decide
/-- R219. -/
theorem test_bltu : (runWord 0xFE736CE3 (atPc 0x10 0x1 0xFFFFFFFF)).pc = 0x8 := by decide
/-- R219. -/
theorem test_bltu_not_taken : (runWord 0xFE736CE3 (atPc 0x10 0xFFFFFFFF 0x1)).pc = 0x14 := by decide
/-- R220. -/
theorem test_bgeu_not_taken : (runWord 0x7E737FE3 (atPc 0x0 0x0 0x1)).pc = 0x4 := by decide
/-- R231. -/
theorem test_jalr_clears_bit_0 : (runWord 0x005300E7 (atPc 0x20 0x100 0x0)).pc = 0x104 := by decide
/-- R230. -/
theorem test_jal : (runWord 0x008000EF (atPc 0x10 0x0 0x0)).pc = 0x18 := by decide
/-- R220, R254: a taken branch to 2 modulo 4. -/
theorem test_bgeu_invalid_jump :
    (runWord 0x7E737FE3 (atPc 0 0 0)).fault = some (.invalidJump 0xFFE) ∧ (runWord 0x7E737FE3 (atPc 0 0 0)).pc = 0xFFE := by
  decide
/-- R230, R36: the link is written before InvalidJump. -/
theorem test_jal_invalid_jump_links :
    (runWord 0x006000EF (atPc 0 0 0)).fault = some (.invalidJump 6) ∧ (runWord 0x006000EF (atPc 0 0 0)).reg 1 = 4 := by
  decide
/-- R231, D14: `JALR x6, 0(x6)` goes to the old x6 and then links. -/
theorem test_jalr_same_register :
    (runWord 0x00030367 (atPc 0x20 0x40 0)).pc = 0x40 ∧ (runWord 0x00030367 (atPc 0x20 0x40 0)).reg 6 = 0x24 := by
  decide

/-! ### The step: faults, termination, terminal states -/

/-- R28: a branch to itself stays Running at its own address (section 2.7). -/
theorem test_branch_to_itself :
    (runWord 0x00000063 (atPc 0 0 0)).pc = 0 ∧ (runWord 0x00000063 (atPc 0 0 0)).status = .running := by decide
/-- R29, R34: a target below 0 wraps and ends the run Halted (section 2.7). -/
theorem test_branch_below_zero_halts :
    (runWord 0xFE000EE3 (atPc 0 0 0)).pc = 0xFFFFFFFC ∧ (runWord 0xFE000EE3 (atPc 0 0 0)).status = .halted := by decide
/-- R34: running off the end of a one-word program halts; so the first instruction after reset runs (log entry 2). -/
theorem test_first_step_after_reset :
    (runWord 0x00500093 State.reset).reg 1 = 5 ∧ (runWord 0x00500093 State.reset).pc = 4 ∧
      (runWord 0x00500093 State.reset).status = .halted := by
  decide
/-- R34, P8a: a return to 0 halts when HALT_ON_ZERO_PC is true. -/
theorem test_halt_on_zero_pc :
    (runWord 0x00000067 { atPc 4 0 0 with cfg := { embedded := false, memSize := 0x10000, haltOnZeroPc := true } }).status =
        .halted ∧
      (runWord 0x00000067 (atPc 4 0 0)).status = .running := by
  decide
/-- R97, P7d: an undefined word records its three fields; the PC stays. -/
theorem test_invalid_op :
    (runWord 0x40331293 (atPc 4 0 0)).fault = some (.invalidOp 0x13 1 0x20) ∧ (runWord 0x40331293 (atPc 4 0 0)).pc = 4 := by
  decide
/-- R252, R257: embedded mode (section 2.9). -/
theorem test_embedded_registers :
    (runWord 0x00100A13 embeddedCore).fault = some (.invalidRegister 20) ∧
      (runWord 0x01F882B3 embeddedCore).fault = some (.invalidRegister 17) ∧
      (runWord 0x00100A13 (atPc 0 0 0)).reg 20 = 1 := by
  decide
/-- R22, R25: a write to x0 is discarded (section 2.9). -/
theorem test_x0_discards : (runWord 0x00500013 (atPc 0 0 0)).regs = (atPc 0 0 0).regs := by decide
/-- R66, P6: a store into the image is what the next fetch reads (`SW x7, 4(x0)` at 0). -/
theorem test_store_then_fetch : fetch (runWord 0x00702223 (atPc 0 0 0x02A00113)) = 0x02A00113 := by decide
/-- R35: no step from Halted or Faulted. -/
theorem test_terminal_states_are_stuck :
    (match step State.reset with | .fault .stuckHalted => true | _ => false) = true ∧
      (match step { atPc 0 0 0 with status := .faulted, fault := some (.invalidJump 2) } with
        | .fault .stuckFaulted => true | _ => false) = true := by
  decide
/-- R282: MEM_SIZE not a multiple of 4 is refused. -/
theorem test_launch_refused :
    (match step { atPc 0 0 0 with cfg := { embedded := false, memSize := 0x10002, haltOnZeroPc := false } } with
      | .refused .launchRefused => true | _ => false) = true := by
  decide

/-! ### Assembler text and pseudo-instructions -/

/-- The texts of R101, R120, R164, R180, R195, R210, R216, R230. -/
theorem test_asm_text :
    asmText (.addi 1 0 5) = "ADDI x1, x0, 5" ∧ asmText (.lb 5 6 0) = "LB x5, 0(x6)" ∧
      asmText (.sb 6 7 3) = "SB x7, 3(x6)" ∧ asmText (.lui 5 0x12345000) = "LUI x5, 74565" ∧
      asmText (.bne 6 7 (-4)) = "BNE x6, x7, -4" ∧ asmText (.slli 5 6 31) = "SLLI x5, x6, 31" := by
  decide
/-- R103: NOP and RET are the words 0x00000013 and 0x00008067 (R99, R231). -/
theorem test_pseudo_words :
    (expandPseudo 0 .nop).map encode = [0x00000013#32] ∧ (expandPseudo 0 .ret).map encode = [0x00008067#32] := by decide
/-- R103: LI with bit 11 set borrows from the upper part. -/
theorem test_li_large : expandPseudo 0 (.li 5 0x12345FFF) = [.lui 5 0x12346000, .addi 5 5 (-1)] := by decide
/-- R104. -/
theorem test_abi_names : abiName 0 = "zero" ∧ abiName 2 = "sp" ∧ abiName 10 = "a0" ∧ abiName 31 = "t6" := by decide

/-! ### Witnesses: states and operands that meet the hypotheses of each statement, at the edges of each clause -/

open Sys2Proof.Claims

/-- The state with an instruction's word where the next step fetches. -/
def holding (i : Instr) (s : State) : State := s.withFetchWord 32 (encode i).toNat

/-- An outcome is a next state. -/
def isNext : Host.Outcome State Machine.Fault Refusal → Bool
  | .next _ => true
  | .fault _ => false
  | .refused _ => false

theorem next_of {o : Host.Outcome State Machine.Fault Refusal} {P : State → Prop} (h : isNext o = true)
    (hp : P (nextOr o)) : ∃ t, o = .next t ∧ P t := by
  cases o with
  | next t => exact ⟨t, rfl, hp⟩
  | fault r => cases h
  | refused r => cases h

/-- A standard CORE at 0 with x6 = 0xFFFC, the last word of Memory, and x7 = 5. -/
abbrev plain : State := atPc 0 0xFFFC 5

/-- An embedded CORE at 0. -/
abbrev small : State := embeddedCore

theorem witness_BranchOffsetRange : bitsOf 0x00000163#32 8 1 = 1 ∧ (0x100#32).toNat % 4 = 0 := by decide
theorem witness_SignExtensionAtTheEdges :
    bitsOf 0x80000093#32 20 12 = 0x800 ∧ bitsOf 0x7FF00113#32 20 12 = 0x7FF ∧ bitsOf 0xFFF00093#32 20 12 = 0xFFF := by
  decide
theorem witness_DecodeOfEncodeIsTheInstruction :
    Instr.wf (.sw 31 0 (-2048)) = true ∧ Instr.wf (.bgeu 6 7 4094) = true ∧ Instr.wf (.jal 31 (-1048576)) = true := by
  decide
theorem witness_EncodeOfDecodeIsTheWord : decode 0xFE731EE3#32 = .ok (.bne 6 7 (-4)) := by decide
theorem witness_DecodeFollowsTheOpcodeTable :
    (⟨"SRAI", 0x40005013, 0xFE00707F⟩ : OpcodeRow) ∈ opcodeTable ∧
      0x40435293#32 &&& (0xFE00707F : Word) = 0x40005013 ∧ 0x00435293#32 &&& (0xFE00707F : Word) ≠ 0x40005013 := by
  decide
theorem witness_UndefinedWordsRaiseInvalidOp :
    (∀ r ∈ opcodeTable, 0x00000000#32 &&& r.mask ≠ r.pattern) ∧ (∀ r ∈ opcodeTable, 0x40331293#32 &&& r.mask ≠ r.pattern) ∧
      StepDefined (plain.withFetchWord 32 0x40331293) ∧
      decode (wordAt (plain.withFetchWord 32 0x40331293).mem 0) = .invalidOp 0x13 1 0x20 := by
  unfold StepDefined
  decide
theorem witness_SystemOpcodesAreInvalid :
    bitsOf 0x0FF0000F#32 0 7 ∈ [0x0F, 0x73, 0x2F, 0x1B, 0x3B, 0x0B, 0x2B, 0x5B, 0x7B] ∧ bitsOf 0x00004501#32 0 2 ≠ 3 := by
  decide

/-- Registers at the edge of each file: every index exists in a standard CORE, 15 is the last and 16 the first missing one
of an embedded CORE. For RegisterReadRule, RegisterWriteThenRead and every instruction rule's register clauses. -/
theorem witness_registers :
    plain.hasReg 0 ∧ plain.hasReg 31 ∧ small.hasReg 0 ∧ small.hasReg 15 ∧ ¬ small.hasReg 16 ∧ ¬ small.hasReg 31 := by
  decide
/-- Accesses at the edge of Memory, of each width: the last one, the first beyond, and a misaligned one. For MemoryReadRule,
MemoryWriteRule, LoadRules and StoreRules. -/
theorem witness_accesses :
    Memory.wf plain.mem ∧
      (AccessOk plain 0xFFFF 1 ∧ AccessOk plain 0xFFFE 2 ∧ AccessOk plain 0xFFFC 4 ∧ AccessOk plain 0 4) ∧
      (¬ AccessOk plain 0x10000 1 ∧ ¬ AccessOk plain 0x10000 2 ∧ ¬ AccessOk plain 0x10000 4) ∧
      (¬ AccessOk plain 0x101 2 ∧ ¬ AccessOk plain 0x102 4) := by
  unfold AccessOk
  decide
theorem witness_AlignedAccessInBounds : plain.launchOk ∧ (0xFFFC#32).toNat % Width.word.bytes = 0 := by decide

/-- ImmediateAluRules: a word of the row, and registers for each clause. -/
theorem witness_ImmediateAluRules :
    0xFFF32293#32 &&& 0x0000707F#32 = 0x00002013#32 ∧ (plain.hasReg 6 ∧ plain.hasReg 0) ∧ ¬ small.hasReg 16 ∧
      (small.hasReg 15 ∧ ¬ small.hasReg 16) := by
  decide
theorem witness_ShiftImmediateRules :
    0x41F35293#32 &&& 0xFE00707F#32 = 0x40005013#32 ∧ (plain.hasReg 6 ∧ plain.hasReg 0) ∧ ¬ small.hasReg 16 ∧
      (small.hasReg 15 ∧ ¬ small.hasReg 16) ∧
      (opcodeOf 0x40331293#32 = 0x13#7 ∧ funct3Of 0x40331293#32 = 1#3 ∧ funct7Of 0x40331293#32 ≠ 0#7) ∧
      (opcodeOf 0x02335293#32 = 0x13#7 ∧ funct3Of 0x02335293#32 = 5#3 ∧ funct7Of 0x02335293#32 ≠ 0#7 ∧
        funct7Of 0x02335293#32 ≠ 0x20#7) := by
  decide
/-- RegisterAluRules, MultiplyRules and DivideRules. -/
theorem witness_RegisterAluRules :
    0x407302B3#32 &&& 0xFE00707F#32 = 0x40000033#32 ∧ 0x027302B3#32 &&& 0xFE00707F#32 = 0x02000033#32 ∧
      0x027342B3#32 &&& 0xFE00707F#32 = 0x02004033#32 ∧ (plain.hasReg 6 ∧ plain.hasReg 7 ∧ plain.hasReg 31) ∧
      ¬ small.hasReg 16 ∧ (small.hasReg 15 ∧ ¬ small.hasReg 31) ∧ (small.hasReg 0 ∧ small.hasReg 15 ∧ ¬ small.hasReg 16) := by
  decide
theorem witness_LoadRules :
    0x00231283#32 &&& 0x0000707F#32 = 0x00001003#32 ∧
      (plain.hasReg 6 ∧ AccessOk plain (plain.reg 6 + 0) 4 ∧ plain.hasReg 5) ∧
      (plain.hasReg 6 ∧ ¬ AccessOk plain (plain.reg 6 + 4) 4) ∧
      (small.hasReg 15 ∧ AccessOk small (small.reg 15 + 0) 4 ∧ ¬ small.hasReg 16) := by
  unfold AccessOk
  decide
theorem witness_StoreRules :
    0xFE732E23#32 &&& 0x0000707F#32 = 0x00002023#32 ∧ Memory.wf plain.mem ∧
      (plain.hasReg 6 ∧ plain.hasReg 7 ∧ AccessOk plain (plain.reg 6 + 0) 4) ∧
      (plain.hasReg 6 ∧ plain.hasReg 7 ∧ ¬ AccessOk plain (plain.reg 6 + 2) 4) ∧ (small.hasReg 15 ∧ ¬ small.hasReg 16) := by
  unfold AccessOk
  decide
theorem witness_UpperImmediateRules :
    0x123452B7#32 &&& 0x0000007F#32 = 0x00000037#32 ∧ plain.hasReg 31 ∧ small.hasReg 15 ∧ ¬ small.hasReg 16 := by
  decide
/-- BranchRules: each condition true and false on existing registers, the equal case among them. -/
theorem witness_BranchRules :
    0xFE731EE3#32 &&& 0x0000707F#32 = 0x00001063#32 ∧ (plain.hasReg 6 ∧ plain.hasReg 7) ∧
      ((atPc 0 5 5).reg 6 = (atPc 0 5 5).reg 7) ∧ ((atPc 0 5 6).reg 6 ≠ (atPc 0 5 6).reg 7) ∧
      (((atPc 0 0x80000000 0).reg 6).toInt < ((atPc 0 0x80000000 0).reg 7).toInt) ∧
      (¬ ((atPc 0 5 5).reg 6).toInt < ((atPc 0 5 5).reg 7).toInt) ∧
      (((atPc 0 0 0xFFFFFFFF).reg 6).toNat < ((atPc 0 0 0xFFFFFFFF).reg 7).toNat) ∧
      (¬ ((atPc 0 5 5).reg 6).toNat < ((atPc 0 5 5).reg 7).toNat) := by
  decide
theorem witness_JumpRules :
    0x008000EF#32 &&& 0x0000007F#32 = 0x0000006F#32 ∧ 0x005300E7#32 &&& 0x0000707F#32 = 0x00000067#32 ∧
      (opcodeOf 0x00009067#32 = 0x67#7 ∧ funct3Of 0x00009067#32 ≠ 0#3) ∧ (plain.hasReg 6 ∧ plain.hasReg 0) ∧
      (small.hasReg 15 ∧ ¬ small.hasReg 16) := by
  decide

/-- DivisionIdentity and MultiplyHalvesMakeTheProduct; the divisor 5 is not 0. -/
theorem witness_DivisionIdentity :
    plain.hasReg 6 ∧ plain.hasReg 7 ∧ plain.hasReg 5 ∧ (5#5 ≠ 0#5) ∧ plain.reg 7 ≠ 0#32 := by
  decide
/-- StoreThenLoadAtAnyWidth: SH to the last halfword of Memory, then LB of its upper byte; SW to the last word, then LHU of
its upper halfword; rd may be x0. -/
theorem witness_StoreThenLoadAtAnyWidth :
    Memory.wf plain.mem ∧ plain.hasReg 6 ∧ plain.hasReg 7 ∧ plain.hasReg 0 ∧ plain.hasReg 31 ∧
      (AccessOk plain (plain.reg 6 + 2) 2 ∧ AccessOk plain (plain.reg 6 + 3) 1) ∧
      (AccessOk plain (plain.reg 6 + 0) 4 ∧ AccessOk plain (plain.reg 6 + 2) 2) ∧ storeForms.length = 3 ∧
      loadForms.length = 5 := by
  unfold AccessOk
  decide
/-- SH then LB, LBU and LW on one memory (20_memory.md R52): each sees the stored bytes and no other changes. -/
theorem test_halfword_bytes_seen :
    (runWord 0x00330283 (runWord 0x00731123 (withData 0x100 0x12349876))).reg 5 = 0xFFFFFF98 ∧
      (runWord 0x00234283 (runWord 0x00731123 (withData 0x100 0x12349876))).reg 5 = 0x00000076 ∧
      (runWord 0x00032283 (runWord 0x00731123 (withData 0x100 0x12349876))).reg 5 = 0x987600F0 := by
  decide

theorem witness_StepRunsTheDecodedInstruction_next :
    StepDefined (holding (.addi 5 0 7) plain) ∧ Runs (holding (.addi 5 0 7) plain) (.addi 5 0 7) ∧
      ∃ u, exec (.addi 5 0 7) { holding (.addi 5 0 7) plain with transfer := none } = .next u ∧ u.status ≠ .faulted := by
  refine ⟨by unfold StepDefined; decide, by unfold Runs; decide, next_of (by decide) (by decide)⟩
theorem witness_StepRunsTheDecodedInstruction_raised :
    StepDefined (holding (.addi 16 0 7) small) ∧ Runs (holding (.addi 16 0 7) small) (.addi 16 0 7) ∧
      ∃ u, exec (.addi 16 0 7) { holding (.addi 16 0 7) small with transfer := none } = .next u ∧ u.status = .faulted := by
  refine ⟨by unfold StepDefined; decide, by unfold Runs; decide, next_of (by decide) (by decide)⟩
theorem witness_NewPcIsTargetOrPlusFour :
    (∃ t, step (holding (.addi 5 0 7) plain) = .next t ∧ t.pc = 4) ∧
      Runs (holding (.addi 5 0 7) plain) (.addi 5 0 7) ∧ executeFault (holding (.addi 5 0 7) plain) (.addi 5 0 7) = none ∧
      (∃ t, step (holding (.jal 0 8) plain) = .next t ∧ t.pc = 8) ∧ Runs (holding (.jal 0 8) plain) (.jal 0 8) ∧
      executeFault (holding (.jal 0 8) plain) (.jal 0 8) = none := by
  refine ⟨next_of (by decide) (by decide), by unfold Runs; decide, by decide, next_of (by decide) (by decide),
    by unfold Runs; decide, by decide⟩
theorem witness_TerminationRule :
    (∃ t, step (holding (.addi 5 0 7) (atPc 0xFF8 0 0)) = .next t ∧ t.status = .running) ∧
      (∃ t, step (holding (.addi 5 0 7) (atPc 0xFFC 0 0)) = .next t ∧ t.status = .halted) := by
  exact ⟨next_of (by decide) (by decide), next_of (by decide) (by decide)⟩
/-- WrappedTargetsEndTheRun: a target of -4, and one of -2. -/
theorem witness_WrappedTargetsEndTheRun :
    (∃ t, step (holding (.beq 0 0 (-4)) plain) = .next t ∧ t.status = .halted) ∧
      (∃ t, step (holding (.beq 0 0 (-2)) plain) = .next t ∧ t.status = .faulted) ∧
      Runs (holding (.beq 0 0 (-4)) plain) (.beq 0 0 (-4)) ∧
      executeFault (holding (.beq 0 0 (-4)) plain) (.beq 0 0 (-4)) = none ∧
      takenTarget (holding (.beq 0 0 (-4)) plain) (.beq 0 0 (-4)) = some (plain.pc + (-4)) ∧
      -1048576 ≤ (-4 : Word).toInt ∧ (plain.pc.toNat : Int) + (-4 : Word).toInt < 0 := by
  refine ⟨next_of (by decide) (by decide), next_of (by decide) (by decide), by unfold Runs; decide, by decide, by decide,
    by decide, by decide⟩

/-- The invariant of a Running state. -/
theorem inv_holding_jal : (holding (.jal 0 0) plain).Inv where
  launch := by decide
  memWf := by decide
  memBound := by decide
  zeroCell := by decide
  embedded := by decide
  faultRec := by decide
  pcOk := show State.pcInProgram _ from by decide
  noTransfer := by decide

/-- The invariant of a Running state at a branch to itself. -/
theorem inv_holding_beq : (holding (.beq 31 31 0) plain).Inv where
  launch := by decide
  memWf := by decide
  memBound := by decide
  zeroCell := by decide
  embedded := by decide
  faultRec := by decide
  pcOk := show State.pcInProgram _ from by decide
  noTransfer := by decide

/-- The invariant of a Running state at `JALR x0, 0(x6)` to itself. -/
theorem inv_holding_jalr : (holding (.jalr 0 6 0) (atPc 0x100 0x101 0)).Inv where
  launch := by decide
  memWf := by decide
  memBound := by decide
  zeroCell := by decide
  embedded := by decide
  faultRec := by decide
  pcOk := show State.pcInProgram _ from by decide
  noTransfer := by decide

theorem witness_JumpToItselfLoops_jal :
    (holding (.jal 0 0) plain).Inv ∧ (holding (.jal 0 0) plain).status = .running ∧
      Runs (holding (.jal 0 0) plain) (.jal 0#5 0#32) ∧ (holding (.jal 0 0) plain).cfg.haltOnZeroPc = false := by
  refine ⟨inv_holding_jal, by decide, by unfold Runs; decide, by decide⟩
theorem witness_JumpToItselfLoops_beq :
    (holding (.beq 31 31 0) plain).Inv ∧ (holding (.beq 31 31 0) plain).status = .running ∧
      (holding (.beq 31 31 0) plain).hasReg 31 ∧ Runs (holding (.beq 31 31 0) plain) (.beq 31#5 31#5 0#32) ∧
      (holding (.beq 31 31 0) plain).cfg.haltOnZeroPc = false ∧
      executeFault (holding (.beq 31 31 0) plain) (.beq 31 31 0) = none ∧
      takenTarget (holding (.beq 31 31 0) plain) (.beq 31 31 0) = some (holding (.beq 31 31 0) plain).pc ∧
      writesOf (.beq 31 31 0) = none := by
  refine ⟨inv_holding_beq, by decide, by decide, by unfold Runs; decide, by decide, by decide, by decide, by decide⟩
theorem witness_JumpToItselfLoops_jalr :
    (holding (.jalr 0 6 0) (atPc 0x100 0x101 0)).Inv ∧
      Runs (holding (.jalr 0 6 0) (atPc 0x100 0x101 0)) (.jalr 0 6 0) ∧
      executeFault (holding (.jalr 0 6 0) (atPc 0x100 0x101 0)) (.jalr 0 6 0) = none ∧
      takenTarget (holding (.jalr 0 6 0) (atPc 0x100 0x101 0)) (.jalr 0 6 0) = some 0x100 ∧
      writesOf (.jalr 0 6 0) = some 0#5 := by
  refine ⟨inv_holding_jalr, by unfold Runs; decide, by decide, by decide, by decide⟩
/-- StoresReachTheNextFetch: `SW x7, 4(x0)` at 0 stores where the next step fetches, `SB x7, 7(x0)` the last byte of that
word, `SH x7, 8(x0)` the first halfword after it. -/
theorem witness_StoresReachTheNextFetch_sw :
    Memory.wf (holding (.sw 0 7 4) plain).mem ∧
      (∃ t, step (holding (.sw 0 7 4) plain) = .next t ∧ (holding (.sw 0 7 4) plain).reg 0 + 4 = t.pc) ∧
      Runs (holding (.sw 0 7 4) plain) (.sw 0 7 4) ∧ executeFault (holding (.sw 0 7 4) plain) (.sw 0 7 4) = none := by
  refine ⟨by decide, next_of (by decide) (by decide), by unfold Runs; decide, by decide⟩
theorem witness_StoresReachTheNextFetch_sb_sh :
    (∃ t, step (holding (.sb 0 7 7) plain) = .next t ∧ fetch t = 0x05000000) ∧
      Runs (holding (.sb 0 7 7) plain) (.sb 0 7 7) ∧ executeFault (holding (.sb 0 7 7) plain) (.sb 0 7 7) = none ∧
      (∃ t, step (holding (.sh 0 7 8) plain) = .next t ∧ fetch t = 0) ∧
      Runs (holding (.sh 0 7 8) plain) (.sh 0 7 8) ∧ executeFault (holding (.sh 0 7 8) plain) (.sh 0 7 8) = none := by
  refine ⟨next_of (by decide) (by decide), by unfold Runs; decide, by decide, next_of (by decide) (by decide),
    by unfold Runs; decide, by decide⟩
/-- StoresReachTheNextFetch on a store that raises: SW beyond Memory. -/
theorem witness_StoresReachTheNextFetch_raised :
    (∃ t, step (holding (.sw 6 7 4) plain) = .next t ∧ t.status = .faulted) ∧
      Runs (holding (.sw 6 7 4) plain) (.sw 6 7 4) := by
  exact ⟨next_of (by decide) (by decide), by unfold Runs; decide⟩
theorem witness_MemoryChangesOnlyByStores :
    Memory.wf (holding (.sb 6 7 3) plain).mem ∧
      ∃ t, step (holding (.sb 6 7 3) plain) = .next t ∧ t.mem.read 0xFFFF ≠ (holding (.sb 6 7 3) plain).mem.read 0xFFFF := by
  exact ⟨by decide, next_of (by decide) (by decide)⟩
/-- RegistersChangeOnlyByDestination and ParametersNeverChange. -/
theorem witness_RegistersChangeOnlyByDestination :
    ∃ t, step (holding (.addi 31 0 7) plain) = .next t ∧ t.reg 31 ≠ (holding (.addi 31 0 7) plain).reg 31 :=
  next_of (by decide) (by decide)

/-- FaultByPriority, StateAtAFault and the three statements about one kind: a step from a state with no fault record that
records each kind, and one that records none. -/
theorem witness_faults_recorded :
    (∃ t, step (holding (.addi 16 0 7) small) = .next t ∧ t.fault = some (.invalidRegister 16)) ∧
      (∃ t, step (holding (.lw 5 6 4) plain) = .next t ∧ t.fault = some (.invalidMemory 0x10000 4 4)) ∧
      (∃ t, step (holding (.jal 1 6) plain) = .next t ∧ t.fault = some (.invalidJump 6)) ∧
      (∃ t, step (holding (.beq 0 0 6) plain) = .next t ∧ t.fault = some (.invalidJump 6)) ∧
      (∃ t, step (plain.withFetchWord 32 0) = .next t ∧ t.fault = some (.invalidOp 0 0 0)) ∧
      (∃ t, step (holding (.addi 5 0 7) plain) = .next t ∧ t.fault = none) := by
  refine ⟨next_of (by decide) (by decide), next_of (by decide) (by decide), next_of (by decide) (by decide),
    next_of (by decide) (by decide), next_of (by decide) (by decide), next_of (by decide) (by decide)⟩
theorem witness_faults_no_record_before :
    (holding (.addi 16 0 7) small).fault = none ∧ (holding (.lw 5 6 4) plain).fault = none ∧
      (holding (.jal 1 6) plain).fault = none ∧ (plain.withFetchWord 32 0).fault = none := by
  decide

/-- TerminalStatesTakeNoStep. -/
theorem witness_TerminalStatesTakeNoStep :
    State.reset.launchOk ∧ State.reset.status = .halted ∧ (plain.raised (.invalidJump 2)).launchOk ∧
      (plain.raised (.invalidJump 2)).status = .faulted ∧ isNext (step (holding (.addi 5 0 7) plain)) = true := by
  decide
/-- UnlawfulLaunchesAreRefused: the edges of each condition of R282. -/
theorem witness_UnlawfulLaunchesAreRefused :
    (State.launch ⟨false, 4, false⟩ [0, 0, 0, 0]).launchOk ∧ (State.launch ⟨true, 2 ^ 31, true⟩ []).launchOk ∧
      ¬ (State.launch ⟨false, 0, false⟩ []).launchOk ∧ ¬ (State.launch ⟨false, 2 ^ 31 + 4, false⟩ []).launchOk ∧
      ¬ (State.launch ⟨false, 6, false⟩ []).launchOk ∧ ¬ (State.launch ⟨false, 8, false⟩ [0]).launchOk ∧
      ¬ (State.launch ⟨false, 4, false⟩ [0, 0, 0, 0, 0, 0, 0, 0]).launchOk := by
  decide
theorem witness_LaunchState :
    (1 : Nat) < [0x93#8, 0x00#8].length ∧ [0x93#8, 0x00#8].length ≤ 2 ∧ (State.launch ⟨true, 4, false⟩ []).hasReg 15 := by
  decide
/-- StepKeepsTheInvariant and RunningStatesStep: a Running state with the invariant, and its step. -/
theorem witness_StepKeepsTheInvariant :
    (holding (.jal 0 0) plain).Inv ∧ (holding (.jal 0 0) plain).status = .running ∧
      ∃ t, step (holding (.jal 0 0) plain) = .next t ∧ t.pc = 0 :=
  ⟨inv_holding_jal, by decide, next_of (by decide) (by decide)⟩
/-- LaunchMeetsTheInvariant and LaunchedRunsEndOnlyHaltedOrFaulted: `ADDI x1, x0, 5` launched in 4 bytes of memory, and the
state after its step. -/
theorem witness_LaunchedRunsEndOnlyHaltedOrFaulted :
    (State.launch ⟨false, 4, false⟩ [0x93, 0x00, 0x50, 0x00]).launchOk ∧
      ∃ t, Reaches (State.launch ⟨false, 4, false⟩ [0x93, 0x00, 0x50, 0x00]) t ∧ t.status = .halted := by
  refine ⟨by decide, ?_⟩
  obtain ⟨t, ht, hs⟩ := next_of (o := step (State.launch ⟨false, 4, false⟩ [0x93, 0x00, 0x50, 0x00]))
    (P := fun t => t.status = .halted) (by decide) (by decide)
  exact ⟨t, .tail .refl ht, hs⟩
/-- EmbeddedCellsAreInvisible: two embedded states that differ in the cell of x16. -/
theorem witness_EmbeddedCellsAreInvisible :
    (holding (.addi 5 0 7) small).cfg.embedded = true ∧
      AgreeWhereRegistersExist (holding (.addi 5 0 7) small) ((holding (.addi 5 0 7) small).setReg 16 1) ∧
      ∃ t, step (holding (.addi 5 0 7) small) = .next t ∧ t.pc = 4 := by
  refine ⟨by decide, ⟨rfl, rfl, rfl, rfl, rfl, rfl, rfl, fun i hi => ?_⟩, next_of (by decide) (by decide)⟩
  exact State.reg_setReg_other _ _ (by rintro rfl; exact absurd hi (by decide))
theorem witness_ReadOutCoversTheState : (15 < if small.cfg.embedded then 16 else 32) ∧ (31 < if plain.cfg.embedded then 16 else 32) := by
  decide
theorem witness_PlacedWordsRun :
    State.reset.launchOk ∧ Memory.wf State.reset.mem ∧ State.reset.pc.toNat % 4 = 0 ∧
      State.reset.pc.toNat < State.reset.cfg.memSize ∧ (atPc 0xFFFC 0 0).launchOk ∧ Memory.wf (atPc 0xFFFC 0 0).mem ∧
      (atPc 0xFFFC 0 0).pc.toNat % 4 = 0 ∧ (atPc 0xFFFC 0 0).pc.toNat < (atPc 0xFFFC 0 0).cfg.memSize := by
  decide
/-- LoadImmediateLoadsTheValue and LoadAddressLoadsTheAddress. -/
theorem witness_LoadImmediateLoadsTheValue : small.hasReg 15 ∧ small.hasReg 0 ∧ plain.hasReg 31 := by decide

end Sys2Proof.Tests
end

section
/-! The family 00_scope.md: what is fixed when the CORE is constructed stays fixed along every step (R6). -/

namespace Sys2Proof.Machine

/-! ### The end of a step -/

@[simp] theorem State.checkPc_cfg (s : State) : s.checkPc.cfg = s.cfg := by
  unfold State.checkPc
  split <;> rfl

@[simp] theorem State.checkPc_programLength (s : State) : s.checkPc.programLength = s.programLength := by
  unfold State.checkPc
  split <;> rfl

@[simp] theorem State.retire_cfg (s : State) : s.retire.cfg = s.cfg := by
  simp [State.retire]

@[simp] theorem State.retire_programLength (s : State) : s.retire.programLength = s.programLength := by
  simp [State.retire]

/-! ### Execute -/

/-- Execute always answers: with an effect of the decoded instruction, or with InvalidOp raised where no instruction is
decoded (R33, R255). -/
theorem execWord_effect (w : Word) (s : State) :
    ∃ u, execWord w s = .next u ∧
      ((∃ i, decode w = .ok i ∧ ExecEffect s u) ∨
        ∃ opcode funct3 funct7, decode w = .invalidOp opcode funct3 funct7 ∧
          u = s.raised (.invalidOp opcode funct3 funct7)) := by
  unfold execWord
  cases hd : decode w with
  | ok i =>
    obtain ⟨u, hu, he⟩ := exec_effect i s
    exact ⟨u, hu, .inl ⟨i, rfl, he⟩⟩
  | invalidOp opcode funct3 funct7 => exact ⟨_, rfl, .inr ⟨opcode, funct3, funct7, rfl, rfl⟩⟩

/-- No effect of an instruction reaches the parameters or PROGRAM_LENGTH. -/
theorem ExecEffect.parameters {s u : State} (h : ExecEffect s u) :
    u.cfg = s.cfg ∧ u.programLength = s.programLength := by
  cases h <;> exact ⟨rfl, rfl⟩

/-- Execute keeps the parameters and PROGRAM_LENGTH, also when it raises. -/
theorem execWord_parameters {w : Word} {s u : State} (h : execWord w s = .next u) :
    u.cfg = s.cfg ∧ u.programLength = s.programLength := by
  obtain ⟨v, hv, heffect⟩ := execWord_effect w s
  obtain rfl : v = u := by simpa [hv] using h
  obtain ⟨_, _, he⟩ | ⟨_, _, _, _, rfl⟩ := heffect
  · exact he.parameters
  · exact ⟨rfl, rfl⟩

end Sys2Proof.Machine

namespace Sys2Proof.Proofs

open Sys2Proof.Machine

/-- Settles O38: Execute keeps the parameters and PROGRAM_LENGTH whatever it runs, and so do both ways a step can end, at
a raise or through the lines after Execute. -/
theorem parametersNeverChange : Obligations.ParametersNeverChange := by
  intro s t h
  obtain ⟨_, _, _, u, hu, hend⟩ := step_next h
  obtain ⟨hcfg, hlen⟩ := execWord_parameters hu
  obtain ⟨_, rfl⟩ | ⟨_, rfl⟩ := hend
  · exact ⟨hcfg, hlen⟩
  · exact ⟨u.retire_cfg.trans hcfg, u.retire_programLength.trans hlen⟩

end Sys2Proof.Proofs
end

section
/-! The family 10_state.md, its layer of facts. First the lines after Execute, the launch image and the fetch; then what Execute
of an instruction leaves (`ExecOutcome`) and what a step leaves (`StepOutcome`), each said once in the vocabulary of the
statements and read off by every proof below. -/

namespace Sys2Proof.Machine

/-! ### Registers and states -/

/-- A register is missing only above x15 of an embedded CORE (R21). -/
theorem not_hasReg_iff {s : State} {i : RegIdx} : ¬ s.hasReg i ↔ s.cfg.embedded = true ∧ 16 ≤ i.toNat := by
  cases he : s.cfg.embedded with
  | true => simp [hasReg_embedded he]
  | false => simp [hasReg_of_not_embedded he]

/-- x0 exists in either file. -/
theorem hasReg_zero (s : State) : s.hasReg 0#5 := by
  by_contra h
  simpa using (not_hasReg_iff.mp h).2

/-- A Running state that meets the invariant has its PC in the program (R27). -/
theorem State.Inv.pcInProgram {s : State} (h : s.Inv) (hs : s.status = .running) : s.pcInProgram := by
  have hpc := h.pcOk
  rwa [State.pcMatchesStatus, hs] at hpc

/-- A Running state that meets the invariant has no fault record (R31). -/
theorem State.Inv.no_fault {s : State} (h : s.Inv) (hs : s.status = .running) : s.fault = none := by
  by_contra hf
  simpa [hs] using h.faultRec.mpr hf

/-! ### The lines after Execute (R33, R34) -/

@[simp] theorem State.checkPc_pc (s : State) : s.checkPc.pc = s.pc := by
  unfold State.checkPc
  split <;> rfl

@[simp] theorem State.checkPc_mem (s : State) : s.checkPc.mem = s.mem := by
  unfold State.checkPc
  split <;> rfl

@[simp] theorem State.checkPc_regs (s : State) : s.checkPc.regs = s.regs := by
  unfold State.checkPc
  split <;> rfl

@[simp] theorem State.checkPc_transfer (s : State) : s.checkPc.transfer = s.transfer := by
  unfold State.checkPc
  split <;> rfl

@[simp] theorem State.retire_pc (s : State) : s.retire.pc = s.transfer.getD (s.pc + 4#32) := by
  simp [State.retire]

@[simp] theorem State.retire_mem (s : State) : s.retire.mem = s.mem := by
  simp [State.retire]

@[simp] theorem State.retire_regs (s : State) : s.retire.regs = s.regs.set 0 0#32 := by
  simp [State.retire]

@[simp] theorem State.retire_transfer (s : State) : s.retire.transfer = none := by
  simp [State.retire]

@[simp] theorem State.reg_retire (s : State) (j : RegIdx) : s.retire.reg j = s.reg j :=
  (State.reg_congr (by simp) j).trans (s.reg_rezero j)

/-- Terminate halts a Running CORE exactly at the end of the program or at a return to 0 under HALT_ON_ZERO_PC (R34). -/
theorem terminateStatus_eq_halted_iff {s : State} (hs : s.status = .running) :
    terminateStatus s = .halted ↔
      s.programLength ≤ s.pc.toNat ∨ (s.cfg.haltOnZeroPc = true ∧ s.pc = 0#32) := by
  unfold terminateStatus
  by_cases hend : s.programLength ≤ s.pc.toNat
  · simp [hend]
  · by_cases hzero : s.cfg.haltOnZeroPc = true ∧ s.pc = 0#32
    · simp [hzero]
    · simp [hend, hzero, hs]

/-- Terminate leaves a Running CORE Running unless it halts it. -/
theorem terminateStatus_eq_running {s : State} (hs : s.status = .running) (hh : terminateStatus s ≠ .halted) :
    terminateStatus s = .running := by
  have hout := mt (terminateStatus_eq_halted_iff hs).mpr hh
  obtain ⟨hend, hzero⟩ := not_or.mp hout
  rw [terminateStatus, if_neg hend, if_neg hzero, hs]

/-- An instruction that did not raise and leaves an aligned PC ends the step Halted or Running, as Terminate has it (R34). -/
theorem State.retire_of_aligned {u : State} (hs : u.status = .running) (ha : u.retire.pc.toNat % 4 = 0) :
    u.retire.fault = u.fault ∧
    (u.retire.status = .halted ↔
      u.retire.programLength ≤ u.retire.pc.toNat ∨ (u.retire.cfg.haltOnZeroPc = true ∧ u.retire.pc = 0#32)) ∧
    (u.retire.status ≠ .halted → u.retire.status = .running) := by
  rw [State.retire_pc] at ha
  have hv : u.rezero.advance.status = .running := hs
  rw [State.retire_aligned ha]
  exact ⟨rfl, terminateStatus_eq_halted_iff hv, terminateStatus_eq_running hv⟩

/-- An instruction that did not raise and leaves a misaligned PC ends the step Faulted with InvalidJump (R254). -/
theorem State.retire_of_misaligned {u : State} (hm : u.retire.pc.toNat % 4 ≠ 0) :
    u.retire.status = .faulted ∧ u.retire.fault = some (.invalidJump u.retire.pc) := by
  rw [State.retire_pc] at hm
  rw [State.retire_pc, State.retire_misaligned hm]
  exact ⟨rfl, rfl⟩

/-! ### The invariant's clauses about Status, where a step can end -/

/-- A step that ends in the lines after Execute leaves a fault record exactly when it leaves Faulted. -/
theorem State.retire_faultMatchesStatus {u : State} (hs : u.status = .running) (hf : u.fault = none) :
    u.retire.faultMatchesStatus := by
  by_cases ha : u.retire.pc.toNat % 4 = 0
  · obtain ⟨hfault, -, hrun⟩ := State.retire_of_aligned hs ha
    by_cases hh : u.retire.status = .halted
    · simp [State.faultMatchesStatus, hh, hfault, hf]
    · simp [State.faultMatchesStatus, hrun hh, hfault, hf]
  · obtain ⟨hstatus, hfault⟩ := State.retire_of_misaligned ha
    simp [State.faultMatchesStatus, hstatus, hfault]

/-- A step that ends in the lines after Execute leaves the PC where its Status says (R27, R34, R256). -/
theorem State.retire_pcMatchesStatus {u : State} (hs : u.status = .running) : u.retire.pcMatchesStatus := by
  unfold State.pcMatchesStatus
  by_cases ha : u.retire.pc.toNat % 4 = 0
  · obtain ⟨-, hhalt, hrun⟩ := State.retire_of_aligned hs ha
    by_cases hh : u.retire.status = .halted
    · rw [hh]
      exact ⟨ha, hhalt.mp hh⟩
    · rw [hrun hh]
      exact ⟨ha, Nat.not_le.mp fun hend => hh (hhalt.mpr (.inl hend))⟩
  · obtain ⟨hstatus, hfault⟩ := State.retire_of_misaligned ha
    rw [hstatus, hfault]
    exact ⟨rfl, ha⟩

/-- A fault other than InvalidJump leaves the PC at the faulting instruction (R256). -/
theorem State.raised_pcMatchesStatus {s : State} {f : FaultRecord} (hp : s.pcInProgram)
    (hf : ∀ p, f ≠ .invalidJump p) : (s.raised f).pcMatchesStatus := by
  cases f with
  | invalidJump p => exact absurd rfl (hf p)
  | _ => exact hp

/-! ### The program image (R58) -/

/-- Byte `j` of the image at `k` and up is byte `j` of the list, and 0 beyond its end. -/
theorem Memory.read_ofImage (k j : Nat) (bs : List Byte) :
    (Memory.ofImage k bs).read (k + j) = bs[j]?.getD 0#8 := by
  induction bs generalizing k j with
  | nil => rfl
  | cons b rest ih =>
    cases j with
    | zero =>
      by_cases hb : b = 0#8
      · have hlow : ∀ c ∈ Memory.ofImage (k + 1) rest, k < c.1 := fun c hc => ((Memory.wf_ofImage _ _).2 c hc).1
        simp [Memory.ofImage, hb, Memory.read_eq_zero_of_lt hlow]
      · simp [Memory.ofImage, hb, Memory.read]
    | succ j =>
      have hrest := ih (k + 1) j
      rw [Nat.add_right_comm, Nat.add_assoc] at hrest
      by_cases hb : b = 0#8
      · simpa [Memory.ofImage, hb] using hrest
      · simpa [Memory.ofImage, hb, Memory.read] using hrest

end Sys2Proof.Machine

namespace Sys2Proof.Proofs

open Sys2Proof.Machine Sys2Proof.Claims

/-! ### The fetch (R51, R56) -/

/-- The fetch reads the word at the PC. -/
theorem fetch_eq_wordAt (s : State) : fetch s = wordAt s.mem s.pc.toNat := by
  apply BitVec.eq_of_getLsbD_eq
  intro i hi
  rw [fetch, Memory.getLsbD_readLE hi]
  have hi4 : i / 8 < 4 := by omega
  simp only [wordAt, BitVec.getLsbD_append, hi4, decide_true, Bool.true_and]
  split_ifs with h0 h1 h2
  · rw [show i / 8 = 0 by omega, show i % 8 = i by omega, Nat.add_zero]
  · rw [show i / 8 = 1 by omega, show i % 8 = i - 8 by omega]
  · rw [show i / 8 = 2 by omega, show i % 8 = i - 8 - 8 by omega]
  · rw [show i / 8 = 3 by omega, show i % 8 = i - 8 - 8 - 8 by omega]

/-- The lines after Execute, written out as the statements have them, are the model's. -/
theorem afterExecute_eq_retire (u : State) : afterExecute u = u.retire := by
  by_cases ha : (u.transfer.getD (u.pc + 4#32)).toNat % 4 = 0
  · rw [State.retire_aligned ha, State.terminate]
    by_cases hend : u.programLength ≤ (u.transfer.getD (u.pc + 4#32)).toNat
    · rw [show terminateStatus u.rezero.advance = .halted from if_pos hend]
      simp only [afterExecute, ha, hend, ne_eq, not_true, if_true, if_false]
      rfl
    · by_cases hzero : u.cfg.haltOnZeroPc = true ∧ u.transfer.getD (u.pc + 4#32) = 0#32
      · rw [show terminateStatus u.rezero.advance = .halted from (if_neg hend).trans (if_pos hzero)]
        simp only [afterExecute, ha, hend, ne_eq, not_true, if_false]
        exact if_pos hzero
      · rw [show terminateStatus u.rezero.advance = u.status from (if_neg hend).trans (if_neg hzero)]
        simp only [afterExecute, ha, hend, ne_eq, not_true, if_false]
        exact if_neg hzero
  · rw [State.retire_misaligned ha]
    exact if_pos ha

end Sys2Proof.Proofs
end

section
/-! What Execute of an instruction leaves, by the vocabulary of the statements: which registers its format reads and writes
(R26), where it accesses memory and transfers to, and which fault comes first (R257). -/

namespace Sys2Proof.Proofs

open Sys2Proof.Machine Sys2Proof.Claims

/-! ### The fault of Execute -/

/-- What a fault of Execute can be: a missing register of the instruction's format, or its access misaligned or out of
bounds (R252, R253). -/
theorem executeFault_cases {s : State} {i : Instr} {f : FaultRecord} (h : executeFault s i = some f) :
    (∃ k, f = .invalidRegister k ∧ ¬ s.hasReg k ∧ (k ∈ readsOf i ∨ writesOf i = some k)) ∨
    (∃ a n, f = .invalidMemory a n n ∧ accessOf s i = some (a, n) ∧ ¬ AccessOk s a n) := by
  have hdest (hb : badDestination s i = some f) :
      ∃ k, f = .invalidRegister k ∧ ¬ s.hasReg k ∧ (k ∈ readsOf i ∨ writesOf i = some k) := by
    unfold badDestination at hb
    split at hb
    · rename_i rd hw
      split at hb
      · cases hb
      · rename_i hd
        exact ⟨rd, (Option.some.inj hb).symm, hd, .inr hw⟩
    · cases hb
  unfold executeFault at h
  split at h
  · rename_i k hk
    have hmissing : ¬ s.hasReg k := by simpa using List.find?_some hk
    exact .inl ⟨k, (Option.some.inj h).symm, hmissing, .inl (List.mem_of_find?_eq_some hk)⟩
  · split at h
    · rename_i a n hacc
      split at h
      · exact .inl (hdest h)
      · rename_i hbad
        exact .inr ⟨a, n, (Option.some.inj h).symm, hacc, hbad⟩
    · exact .inl (hdest h)

/-- Execute never raises InvalidJump: the check on the new PC comes after it (R254). -/
theorem executeFault_ne_invalidJump {s : State} {i : Instr} {f : FaultRecord} (h : executeFault s i = some f)
    (p : Word) : f ≠ .invalidJump p := by
  obtain ⟨_, rfl, _⟩ | ⟨_, _, rfl, _⟩ := executeFault_cases h <;> simp

/-! ### The outcomes of Execute -/

/-- What an instruction none of whose checks failed leaves from `s` (R26): one constructor per shape of format. -/
inductive Completes (i : Instr) (s : State) : State → Prop where
  /-- rd takes a value: the ALU instructions, loads, LUI and AUIPC. -/
  | writes (rd : RegIdx) (v : Word) : writesOf i = some rd → takenTarget s i = none → s.hasReg rd →
      Completes i s (s.setReg rd v)
  /-- The access takes the low bytes of a value: the stores. -/
  | stores (a : Word) (n : Width) (v : Word) : writesOf i = none → takenTarget s i = none →
      accessOf s i = some (a, n.bytes) → s.canAccess a n → Completes i s (s.storeAt a n v)
  /-- Control transfers: a taken branch. -/
  | branches (p : Word) : writesOf i = none → takenTarget s i = some p → Completes i s (s.transferTo p)
  /-- rd takes the link and control transfers: JAL and JALR. -/
  | links (rd : RegIdx) (p : Word) : writesOf i = some rd → takenTarget s i = some p → s.hasReg rd →
      Completes i s ((s.setReg rd (linkValue s)).transferTo p)
  /-- Nothing: a branch not taken. -/
  | passes : writesOf i = none → takenTarget s i = none → Completes i s s

/-- Everything Execute of `i` can leave from `s`: the first fault that applies raised, or the instruction completed. -/
inductive ExecOutcome (i : Instr) (s : State) : State → Prop where
  /-- A check failed: Status and the record, and nothing else (R251). -/
  | raises (f : FaultRecord) : executeFault s i = some f → ExecOutcome i s (s.raised f)
  /-- No check failed. -/
  | completes {u : State} : executeFault s i = none → Completes i s u → ExecOutcome i s u

section Shapes

variable {i : Instr} {s : State} {rd rs1 rs2 : RegIdx} {imm : Word}

theorem aluImm_outcome {f : Word → Word} (hr : readsOf i = [rs1]) (hw : writesOf i = some rd)
    (ha : accessOf s i = none) (ht : takenTarget s i = none) :
    ∃ u, aluImm f rd rs1 s = .next u ∧ ExecOutcome i s u := by
  by_cases h1 : s.hasReg rs1
  · by_cases hd : s.hasReg rd
    · exact ⟨_, aluImm_next h1 hd, .completes (by simp [executeFault, badDestination, *]) (.writes _ _ hw ht hd)⟩
    · exact ⟨_, aluImm_raises_rd h1 hd, .raises _ (by simp [executeFault, badDestination, *])⟩
  · exact ⟨_, aluImm_raises_rs1 h1, .raises _ (by simp [executeFault, *])⟩

theorem aluReg_outcome {f : Word → Word → Word} (hr : readsOf i = [rs1, rs2]) (hw : writesOf i = some rd)
    (ha : accessOf s i = none) (ht : takenTarget s i = none) :
    ∃ u, aluReg f rd rs1 rs2 s = .next u ∧ ExecOutcome i s u := by
  by_cases h1 : s.hasReg rs1
  · by_cases h2 : s.hasReg rs2
    · by_cases hd : s.hasReg rd
      · exact ⟨_, aluReg_next h1 h2 hd, .completes (by simp [executeFault, badDestination, *]) (.writes _ _ hw ht hd)⟩
      · exact ⟨_, aluReg_raises_rd h1 h2 hd, .raises _ (by simp [executeFault, badDestination, *])⟩
    · exact ⟨_, aluReg_raises_rs2 h1 h2, .raises _ (by simp [executeFault, *])⟩
  · exact ⟨_, aluReg_raises_rs1 h1, .raises _ (by simp [executeFault, *])⟩

theorem load_outcome {n : Width} {ext : Word → Word} (hr : readsOf i = [rs1]) (hw : writesOf i = some rd)
    (ha : accessOf s i = some (effectiveAddress (s.reg rs1) imm, n.bytes)) (ht : takenTarget s i = none) :
    ∃ u, load n ext rd rs1 imm s = .next u ∧ ExecOutcome i s u := by
  by_cases h1 : s.hasReg rs1
  · by_cases hok : s.canAccess (effectiveAddress (s.reg rs1) imm) n
    · by_cases hd : s.hasReg rd
      · exact ⟨_, load_next h1 hok hd, .completes (by simp [executeFault, badDestination, *]) (.writes _ _ hw ht hd)⟩
      · exact ⟨_, load_raises_rd h1 hok hd, .raises _ (by simp [executeFault, badDestination, *])⟩
    · exact ⟨_, load_raises_memory h1 hok, .raises _ (by simp [executeFault, *])⟩
  · exact ⟨_, load_raises_rs1 h1, .raises _ (by simp [executeFault, *])⟩

theorem store_outcome {n : Width} (hr : readsOf i = [rs1, rs2]) (hw : writesOf i = none)
    (ha : accessOf s i = some (effectiveAddress (s.reg rs1) imm, n.bytes)) (ht : takenTarget s i = none) :
    ∃ u, store n rs1 rs2 imm s = .next u ∧ ExecOutcome i s u := by
  by_cases h1 : s.hasReg rs1
  · by_cases h2 : s.hasReg rs2
    · by_cases hok : s.canAccess (effectiveAddress (s.reg rs1) imm) n
      · exact ⟨_, store_next h1 h2 hok, .completes (by simp [executeFault, badDestination, *])
          (.stores _ _ _ hw ht ha hok)⟩
      · exact ⟨_, store_raises_memory h1 h2 hok, .raises _ (by simp [executeFault, *])⟩
    · exact ⟨_, store_raises_rs2 h1 h2, .raises _ (by simp [executeFault, *])⟩
  · exact ⟨_, store_raises_rs1 h1, .raises _ (by simp [executeFault, *])⟩

theorem branch_outcome {cond : Word → Word → Bool} (hr : readsOf i = [rs1, rs2]) (hw : writesOf i = none)
    (ha : accessOf s i = none)
    (ht : takenTarget s i = if cond (s.reg rs1) (s.reg rs2) then some (pcTarget s imm) else none) :
    ∃ u, branch cond rs1 rs2 imm s = .next u ∧ ExecOutcome i s u := by
  by_cases h1 : s.hasReg rs1
  · by_cases h2 : s.hasReg rs2
    · refine ⟨_, branch_next h1 h2, .completes (by simp [executeFault, badDestination, *]) ?_⟩
      by_cases hc : cond (s.reg rs1) (s.reg rs2) = true
      · rw [if_pos hc] at ht ⊢
        exact .branches _ hw ht
      · rw [if_neg hc] at ht ⊢
        exact .passes hw ht
    · exact ⟨_, branch_raises_rs2 h1 h2, .raises _ (by simp [executeFault, *])⟩
  · exact ⟨_, branch_raises_rs1 h1, .raises _ (by simp [executeFault, *])⟩

/-- A rule that only writes rd: LUI and AUIPC. -/
theorem writeOnly_outcome {v : Word} (hr : readsOf i = []) (hw : writesOf i = some rd) (ha : accessOf s i = none)
    (ht : takenTarget s i = none) :
    ∃ u, orRaise s (regWrite s rd v) .next = .next u ∧ ExecOutcome i s u := by
  by_cases hd : s.hasReg rd
  · rw [regWrite_ok hd, orRaise_ok]
    exact ⟨_, rfl, .completes (by simp [executeFault, badDestination, *]) (.writes _ _ hw ht hd)⟩
  · rw [regWrite_error hd, orRaise_error]
    exact ⟨_, rfl, .raises _ (by simp [executeFault, badDestination, *])⟩

theorem execJal_outcome : ∃ u, execJal rd imm s = .next u ∧ ExecOutcome (.jal rd imm) s u := by
  by_cases hd : s.hasReg rd
  · exact ⟨_, execJal_next hd, .completes (by simp [executeFault, readsOf, accessOf, badDestination, writesOf, hd])
      (.links _ _ rfl rfl hd)⟩
  · exact ⟨_, execJal_raises_rd hd, .raises _ (by simp [executeFault, readsOf, accessOf, badDestination, writesOf, hd])⟩

theorem execJalr_outcome : ∃ u, execJalr rd rs1 imm s = .next u ∧ ExecOutcome (.jalr rd rs1 imm) s u := by
  by_cases h1 : s.hasReg rs1
  · by_cases hd : s.hasReg rd
    · exact ⟨_, execJalr_next h1 hd,
        .completes (by simp [executeFault, readsOf, accessOf, badDestination, writesOf, h1, hd]) (.links _ _ rfl rfl hd)⟩
    · exact ⟨_, execJalr_raises_rd h1 hd,
        .raises _ (by simp [executeFault, readsOf, accessOf, badDestination, writesOf, h1, hd])⟩
  · exact ⟨_, execJalr_raises_rs1 h1, .raises _ (by simp [executeFault, readsOf, h1])⟩

end Shapes

/-- Execute of every instruction answers, with one of its outcomes. -/
theorem exec_outcome (i : Instr) (s : State) : ∃ u, exec i s = .next u ∧ ExecOutcome i s u := by
  cases i
  case lui | auipc => exact writeOnly_outcome rfl rfl rfl rfl
  case jal => exact execJal_outcome
  case jalr => exact execJalr_outcome
  case beq | bne | blt | bge | bltu | bgeu =>
    exact branch_outcome rfl rfl rfl (by simp [takenTarget, pcTarget, ltS, ltU])
  case lb | lh | lw | lbu | lhu => exact load_outcome rfl rfl rfl rfl
  case sb | sh | sw => exact store_outcome rfl rfl rfl rfl
  case addi | slti | sltiu | xori | ori | andi | slli | srli | srai => exact aluImm_outcome rfl rfl rfl rfl
  case add | sub | sll | slt | sltu | xor | srl | sra | or | and | mul | mulh | mulhsu | mulhu | div | divu | rem | remu =>
    exact aluReg_outcome rfl rfl rfl rfl

end Sys2Proof.Proofs
end

section
/-! What a step leaves, and what follows for every completed instruction: its frame, its registers, its transfer, and the
invariant's clauses about memory and cells. -/

namespace Sys2Proof.Proofs

open Sys2Proof.Machine Sys2Proof.Claims

/-! ### A completed instruction -/

section Completed

variable {i : Instr} {s u : State}

/-- A completed instruction reaches only registers, memory and the transfer mark. -/
theorem Completes.sameRest (h : Completes i s u) : SameRest s u := by
  cases h <;> exact ⟨rfl, rfl, rfl, rfl, rfl⟩

/-- A completed instruction sets the transfer mark exactly when it takes a transfer (R28). -/
theorem Completes.transfer (h : Completes i s u) (hs : s.transfer = none) : u.transfer = takenTarget s i := by
  cases h with
  | writes _ _ _ ht _ => exact hs.trans ht.symm
  | stores _ _ _ _ ht _ _ => exact hs.trans ht.symm
  | branches _ _ ht => exact ht.symm
  | links _ _ _ ht _ => exact ht.symm
  | passes _ ht => exact hs.trans ht.symm

/-- A register write changes the value of no other register, and never that of x0 (R22). -/
theorem reg_changed_by_setReg {rd j : RegIdx} {v : Word} (hj : (s.setReg rd v).reg j ≠ s.reg j) :
    j ≠ 0#5 ∧ j = rd := by
  rw [State.reg_setReg] at hj
  by_cases hrd : j = rd ∧ rd ≠ 0#5
  · exact ⟨hrd.1 ▸ hrd.2, hrd.1⟩
  · exact absurd (if_neg hrd) hj

/-- A completed instruction changes the value of its rd at most (R22, R26). -/
theorem Completes.changed_reg (h : Completes i s u) {j : RegIdx} (hj : u.reg j ≠ s.reg j) :
    j ≠ 0#5 ∧ writesOf i = some j := by
  cases h with
  | writes rd v hw _ _ =>
    obtain ⟨h0, rfl⟩ := reg_changed_by_setReg hj
    exact ⟨h0, hw⟩
  | links rd p hw _ _ =>
    obtain ⟨h0, rfl⟩ := reg_changed_by_setReg hj
    exact ⟨h0, hw⟩
  | stores | branches | passes => exact absurd rfl hj

/-- A completed instruction keeps Memory canonical. -/
theorem Completes.memWf (h : Completes i s u) (hs : Memory.wf s.mem) : Memory.wf u.mem := by
  cases h with
  | stores a n v _ _ _ _ => exact Memory.wf_writeLE hs _ _ _
  | writes | branches | links | passes => exact hs

/-- A completed instruction keeps Memory below MEM_SIZE (R50, R54). -/
theorem Completes.memInBounds (h : Completes i s u) (hs : s.memInBounds) : u.memInBounds := by
  cases h with
  | stores a n v _ _ _ hok =>
    intro c hc
    rcases Memory.mem_writeLE hc with hold | ⟨_, hlt⟩
    · exact hs c hold
    · exact lt_of_lt_of_le hlt hok.2
  | writes | branches | links | passes => exact hs

/-- A write to an existing register leaves the cells above x15 of an embedded CORE at 0 (R21, R24). -/
theorem setReg_embeddedCellsZero {rd : RegIdx} {v : Word} (hd : s.hasReg rd) (hs : s.embeddedCellsZero) :
    (s.setReg rd v).embeddedCellsZero := by
  intro he k hk
  have hlt : rd.toNat < 16 := (hasReg_embedded he rd).mp hd
  rw [← hs he k hk]
  exact Vector.getElem_set_ne rd.isLt k.isLt (by omega)

/-- A completed instruction leaves the cells above x15 of an embedded CORE at 0 (R21). -/
theorem Completes.embeddedCellsZero (h : Completes i s u) (hs : s.embeddedCellsZero) : u.embeddedCellsZero := by
  cases h with
  | writes rd v _ _ hd => exact setReg_embeddedCellsZero hd hs
  | links rd p _ _ hd => exact setReg_embeddedCellsZero (s := s) hd hs
  | stores | branches | passes => exact hs

end Completed

/-! ### The step -/

/-- What a step can leave (R33): InvalidOp or the fault of Execute raised, or the instruction completed and retired. Every
part starts with Taken false. -/
inductive StepOutcome (s : State) : State → Prop where
  /-- No instruction is decoded at the PC (R255). -/
  | undecodable (opcode : BitVec 7) (funct3 : BitVec 3) (funct7 : BitVec 7) :
      decode (wordAt s.mem s.pc.toNat) = .invalidOp opcode funct3 funct7 →
      StepOutcome s ({ s with transfer := none }.raised (.invalidOp opcode funct3 funct7))
  /-- Execute raised. -/
  | raises (i : Instr) (f : FaultRecord) : Runs s i → executeFault s i = some f →
      StepOutcome s ({ s with transfer := none }.raised f)
  /-- Execute completed, and the lines after it ran. -/
  | retires (i : Instr) (u : State) : Runs s i → executeFault s i = none →
      Completes i { s with transfer := none } u → StepOutcome s u.retire

/-- A step that answers was defined and ended in one of its outcomes. -/
theorem step_outcome {s t : State} (h : step s = .next t) : StepDefined s ∧ StepOutcome s t := by
  obtain ⟨hl, hs, hp, u, hu, hend⟩ := step_next h
  refine ⟨⟨hl, hs, hp⟩, ?_⟩
  rw [fetch_eq_wordAt, execWord] at hu
  cases hd : decode (wordAt s.mem s.pc.toNat) with
  | invalidOp opcode funct3 funct7 =>
    simp only [hd, raise] at hu
    cases hu
    obtain ⟨_, rfl⟩ | ⟨hn, _⟩ := hend
    · exact .undecodable _ _ _ hd
    · exact absurd rfl hn
  | ok i =>
    simp only [hd] at hu
    obtain ⟨v, hv, hout⟩ := exec_outcome i { s with transfer := none }
    obtain rfl : v = u := by simpa [hv] using hu
    cases hout with
    | raises f hf =>
      obtain ⟨_, rfl⟩ | ⟨hn, _⟩ := hend
      · exact .raises i f hd hf
      · exact absurd rfl hn
    | completes hf hc =>
      obtain ⟨-, -, hstatus, -, -⟩ := hc.sameRest
      have hstatus : v.status = .running := hstatus.trans hs
      obtain ⟨hfaulted, _⟩ | ⟨_, rfl⟩ := hend
      · simp [hstatus] at hfaulted
      · exact .retires i v hd hf hc

/-- A defined step is Execute of the fetched word with Taken false, and the end of the step (R33). -/
theorem step_of_defined {s : State} (h : StepDefined s) :
    step s = endStep (execWord (fetch s) { s with transfer := none }) := by
  obtain ⟨hl, hs, hp⟩ := h
  exact beginStep_go hl hs hp _

/-- A defined step answers a next state (R33). -/
theorem step_answers {s : State} (h : StepDefined s) : ∃ t, step s = .next t := by
  obtain ⟨u, hu, _⟩ := execWord_effect (fetch s) { s with transfer := none }
  rw [step_of_defined h, hu]
  exact ⟨_, endStep_next u⟩

/-- From a Running state that meets the invariant a step is defined. -/
theorem stepDefined_of_inv {s : State} (h : s.Inv) (hs : s.status = .running) : StepDefined s :=
  ⟨h.launch, hs, h.pcInProgram hs⟩

/-- The PC holds one instruction. -/
theorem runs_unique {s : State} {i j : Instr} (hi : Runs s i) (hj : Runs s j) : i = j :=
  Decoded.ok.inj (hi.symm.trans hj)

/-- A step that runs `i` without a fault of Execute completes it and retires. -/
theorem StepOutcome.of_runs {s t : State} {i : Instr} (h : StepOutcome s t) (hi : Runs s i)
    (hf : executeFault s i = none) : ∃ u, Completes i { s with transfer := none } u ∧ t = u.retire := by
  cases h with
  | undecodable _ _ _ hd => exact absurd (hi.symm.trans hd) (by simp)
  | raises j f hj hfj =>
    obtain rfl := runs_unique hi hj
    simp [hf] at hfj
  | retires j u hj _ hc =>
    obtain rfl := runs_unique hi hj
    exact ⟨u, hc, rfl⟩

/-- After a step that retires, the PC is the taken target or PC + 4 (R28). -/
theorem Completes.retire_newPc {s u : State} {i : Instr} (h : Completes i { s with transfer := none } u) :
    u.retire.pc = newPc s i := by
  obtain ⟨-, hpc, -⟩ := h.sameRest
  rw [State.retire_pc, h.transfer rfl, hpc]
  rfl

/-- While a step retires, the completed instruction has left Running and the fault record as they were. -/
theorem Completes.status_fault {s u : State} {i : Instr} (h : Completes i { s with transfer := none } u) :
    u.status = s.status ∧ u.fault = s.fault := by
  obtain ⟨-, -, hstatus, hfault, -⟩ := h.sameRest
  exact ⟨hstatus, hfault⟩

end Sys2Proof.Proofs
end

section
/-! The statements of 10_state.md about the step, read off its outcomes. -/

namespace Sys2Proof.Proofs

open Sys2Proof.Machine Sys2Proof.Claims

/-! ### The invariant (R22, R25, R27, R31, R34, R50, R256) -/

/-- A fault other than InvalidJump keeps the invariant of a Running state: only Status and the record change. -/
theorem raised_keeps_inv {s : State} {f : FaultRecord} (h : s.Inv) (hs : s.status = .running)
    (hf : ∀ p, f ≠ .invalidJump p) : ({ s with transfer := none }.raised f).Inv where
  launch := h.launch
  memWf := h.memWf
  memBound := h.memBound
  zeroCell := h.zeroCell
  embedded := h.embedded
  faultRec := by simp [State.faultMatchesStatus]
  pcOk := State.raised_pcMatchesStatus (h.pcInProgram hs) hf
  noTransfer := rfl

/-- A completed instruction that retires keeps the invariant of a Running state. -/
theorem retire_keeps_inv {s u : State} {i : Instr} (h : s.Inv) (hs : s.status = .running)
    (hc : Completes i { s with transfer := none } u) : u.retire.Inv := by
  obtain ⟨hcfg, -, hstatus, hfault, hlen⟩ := hc.sameRest
  have hrun : u.status = .running := hstatus.trans hs
  have hnone : u.fault = none := hfault.trans (h.no_fault hs)
  have hcells : u.embeddedCellsZero := hc.embeddedCellsZero h.embedded
  have hbound : u.memInBounds := hc.memInBounds h.memBound
  exact {
    launch := by simpa [State.launchOk, hcfg, hlen] using h.launch
    memWf := by simpa using hc.memWf h.memWf
    memBound := by simpa [State.memInBounds] using hbound
    zeroCell := by simp
    embedded := by
      intro he k hk
      have hk0 : u.retire.regs[k.val]'k.isLt = u.regs[k.val]'k.isLt := by
        simp only [State.retire_regs]
        exact Vector.getElem_set_ne _ k.isLt (by omega)
      exact hk0.trans (hcells (by simpa using he) k hk)
    faultRec := State.retire_faultMatchesStatus hrun hnone
    pcOk := State.retire_pcMatchesStatus hrun
    noTransfer := by simp }

/-- Settles O50: each outcome of a step keeps the invariant, a raise because it changes Status and the record alone, a
retired instruction clause by clause. -/
theorem stepKeepsTheInvariant : Obligations.StepKeepsTheInvariant := by
  intro s t hinv h
  obtain ⟨⟨-, hs, -⟩, hout⟩ := step_outcome h
  cases hout with
  | undecodable _ _ _ _ => exact raised_keeps_inv hinv hs (by simp)
  | raises i f _ hf => exact raised_keeps_inv hinv hs (executeFault_ne_invalidJump hf)
  | retires i u _ _ hc => exact retire_keeps_inv hinv hs hc

/-! ### Registers (R21 to R26) -/

/-- Settles O12: a write outside the file is the error; inside it changes its cell alone, and reading back is
`State.reg_setReg`. -/
theorem registerWriteThenRead : Obligations.RegisterWriteThenRead := by
  intro s i v
  refine ⟨fun hout => regWrite_error (Nat.not_lt.mpr hout) v, fun hin => ⟨_, regWrite_ok hin v, rfl, ?_, ?_, ?_⟩⟩
  · simp
  · intro k hk
    exact Vector.getElem_set_ne i.isLt k.isLt (Ne.symm hk)
  · intro j
    rw [State.reg_setReg]
    by_cases h0 : j = 0#5
    · subst h0
      rw [if_neg fun hc => hc.2 hc.1.symm, if_pos rfl, State.reg_zero]
    · by_cases hji : j = i
      · subst hji
        simp [h0]
      · simp [h0, hji]

/-- Settles O11: `hasReg` is the bound, and `State.reg` the value read. -/
theorem registerReadRule : Obligations.RegisterReadRule := by
  intro s i
  exact ⟨fun hout => regRead_error (Nat.not_lt.mpr hout), fun hin => regRead_ok hin⟩

/-- Settles O37: a raise changes no cell, re-zeroing changes no value, and a completed instruction changes its rd at most. -/
theorem registersChangeOnlyByDestination : Obligations.RegistersChangeOnlyByDestination := by
  intro s t j h hj
  obtain ⟨-, hout⟩ := step_outcome h
  cases hout with
  | undecodable _ _ _ _ => exact absurd rfl hj
  | raises i f _ _ => exact absurd rfl hj
  | retires i u hi _ hc =>
    rw [State.reg_retire] at hj
    obtain ⟨h0, hw⟩ := hc.changed_reg hj
    exact ⟨h0, i, hi, hw⟩

/-- Settles O41: InvalidRegister is a fault of Execute, and the register it names is missing. -/
theorem invalidRegisterOnlyInEmbeddedMode : Obligations.InvalidRegisterOnlyInEmbeddedMode := by
  intro s t k h hnone hk
  obtain ⟨⟨-, hs, -⟩, hout⟩ := step_outcome h
  cases hout with
  | undecodable _ _ _ _ => simp at hk
  | raises i f hi hf =>
    obtain rfl : f = .invalidRegister k := by simpa using hk
    obtain ⟨k', hk', hmissing, huses⟩ | ⟨_, _, hmem, _⟩ := executeFault_cases hf
    · obtain rfl : k = k' := by simpa using hk'
      obtain ⟨hemb, hindex⟩ := not_hasReg_iff.mp hmissing
      exact ⟨hemb, hindex, i, hi, huses⟩
    · simp at hmem
  | retires i u _ _ hc =>
    obtain ⟨hstatus, hfault⟩ := hc.status_fault
    by_cases ha : u.retire.pc.toNat % 4 = 0
    · obtain ⟨hkept, -⟩ := State.retire_of_aligned (hstatus.trans hs) ha
      simp [hkept, hfault, hnone] at hk
    · obtain ⟨-, hjump⟩ := State.retire_of_misaligned ha
      simp [hjump] at hk

/-! ### The PC and the end of a run (R28, R29, R34, R35) -/

/-- Settles O31: the instruction completed and retired, and retiring sets the PC from its transfer. -/
theorem newPcIsTargetOrPlusFour : Obligations.NewPcIsTargetOrPlusFour := by
  intro s t i h hi hf
  obtain ⟨u, hc, rfl⟩ := (step_outcome h).2.of_runs hi hf
  exact ⟨hc.retire_newPc, u.retire_transfer⟩

/-- Settles O32: a step that did not fault retired with an aligned PC, where Terminate decides. -/
theorem terminationRule : Obligations.TerminationRule := by
  intro s t h hok
  obtain ⟨⟨-, hs, -⟩, hout⟩ := step_outcome h
  cases hout with
  | undecodable _ _ _ _ => exact absurd rfl hok
  | raises i f _ _ => exact absurd rfl hok
  | retires i u _ _ hc =>
    obtain ⟨hstatus, -⟩ := hc.status_fault
    by_cases ha : u.retire.pc.toNat % 4 = 0
    · exact (State.retire_of_aligned (hstatus.trans hs) ha).2
    · exact absurd (State.retire_of_misaligned ha).1 hok

/-- A target below address 0 wraps by 2^32 (R29). -/
theorem toNat_add_of_below_zero {pc offset : Word} (hneg : (pc.toNat : Int) + offset.toInt < 0) :
    ((pc + offset).toNat : Int) = pc.toNat + offset.toInt + 2 ^ 32 := by
  have hp := pc.isLt
  have ho := offset.isLt
  rw [BitVec.toInt_eq_toNat_cond] at hneg ⊢
  rw [BitVec.toNat_add]
  split at hneg <;> omega

/-- Settles O33: the wrapped target lies beyond every MEM_SIZE, so an aligned one is beyond the program. -/
theorem wrappedTargetsEndTheRun : Obligations.WrappedTargetsEndTheRun := by
  intro s t i offset h hi hf htarget hlow hneg
  obtain ⟨⟨hl, hs, -⟩, hout⟩ := step_outcome h
  obtain ⟨u, hc, rfl⟩ := hout.of_runs hi hf
  obtain ⟨hcfg, -, hstatus, -, hlen⟩ := hc.sameRest
  have hpc : u.retire.pc = s.pc + offset := by
    rw [hc.retire_newPc, newPc, htarget, Option.getD_some]
  have hwrap := toNat_add_of_below_zero hneg
  have hhigh : 2 ^ 32 - 2 ^ 20 ≤ u.retire.pc.toNat := by
    rw [hpc]
    omega
  refine ⟨hhigh, fun ha => ?_, fun hm => hpc ▸ State.retire_of_misaligned hm⟩
  obtain ⟨-, hhalt, -⟩ := State.retire_of_aligned (hstatus.trans hs) ha
  obtain ⟨-, hmem, -, -, hfits⟩ := hl
  refine hhalt.mpr (.inl ?_)
  rw [State.retire_programLength, hlen]
  change s.programLength ≤ _
  omega

/-- Settles O51: such a step is defined, and Execute always answers. -/
theorem runningStatesStep : Obligations.RunningStatesStep := fun _ hinv hs =>
  step_answers (stepDefined_of_inv hinv hs)

/-- Settles O44: the case on Status at the start of the step. -/
theorem terminalStatesTakeNoStep : Obligations.TerminalStatesTakeNoStep := by
  refine ⟨fun s t h => (step_next h).2.1, fun s hl => ⟨fun hs => ?_, fun hs => ?_⟩⟩
  · rw [step, beginStep, if_pos hl, hs]
  · rw [step, beginStep, if_pos hl, hs]

/-- Settles O29: `step` is Execute of the decoded word and `endStep`, whose last lines are `afterExecute`. -/
theorem stepRunsTheDecodedInstruction : Obligations.StepRunsTheDecodedInstruction := by
  intro s hdef
  have hstep : step s = endStep (execWord (wordAt s.mem s.pc.toNat) { s with transfer := none }) := by
    rw [← fetch_eq_wordAt]
    exact step_of_defined hdef
  refine ⟨fun i u hi hu => ?_, fun opcode funct3 funct7 hd => ?_⟩
  · have hend : step s = endStep (.next u) := by
      rw [hstep, execWord, show decode (wordAt s.mem s.pc.toNat) = .ok i from hi]
      exact congrArg endStep hu
    rw [hend, endStep_next, afterExecute_eq_retire]
    exact ⟨fun hf => by rw [if_pos hf], fun hn => by rw [if_neg hn]⟩
  · rw [hstep, execWord, hd]
    rfl

/-! ### Jumps to their own address (R28, R215 to R220, R230, R231) -/

/-- What a write leaves in the cell of x0 does not outlive the re-zero (R25). -/
theorem rezero_setReg_zero (s : State) (v : Word) : (s.setReg 0#5 v).rezero = s.rezero := by
  simp [State.rezero, State.setReg]

/-- The checks on the PC leave a Running state that meets the invariant as it is, unless it stands at 0 under
HALT_ON_ZERO_PC. -/
theorem checkPc_eq_self {s : State} (h : s.Inv) (hs : s.status = .running)
    (hz : ¬ (s.cfg.haltOnZeroPc = true ∧ s.pc = 0#32)) : s.checkPc = s := by
  obtain ⟨haligned, hlt⟩ := h.pcInProgram hs
  have hgoes : terminateStatus s = s.status := by
    rw [terminateStatus, if_neg (Nat.not_le.mpr hlt), if_neg hz]
  rw [State.checkPc, if_pos haligned, State.terminate, hgoes]

/-- An instruction whose one effect after the re-zero is a transfer to its own address leaves the state as it was. -/
theorem retire_to_own_address {s u : State} (h : s.Inv) (hs : s.status = .running)
    (hz : ¬ (s.cfg.haltOnZeroPc = true ∧ s.pc = 0#32)) (hu : u.rezero = s.transferTo s.pc) : u.retire = s := by
  have hback : (s.transferTo s.pc).advance = s := by
    rw [State.advance, State.transferTo]
    simp [← h.noTransfer]
  rw [State.retire, hu, hback, checkPc_eq_self h hs hz]

/-- A step of a branch, or of a jump that links to x0, that is taken to its own address leaves the state as it was. -/
theorem step_to_own_address {s : State} {i : Instr} (h : s.Inv) (hs : s.status = .running)
    (hz : ¬ (s.cfg.haltOnZeroPc = true ∧ s.pc = 0#32)) (hi : Runs s i) (hf : executeFault s i = none)
    (htarget : takenTarget s i = some s.pc) (hw : writesOf i = none ∨ writesOf i = some 0#5) :
    step s = .next s := by
  obtain ⟨t, ht⟩ := step_answers (stepDefined_of_inv h hs)
  obtain ⟨u, hc, rfl⟩ := (step_outcome ht).2.of_runs hi hf
  have hclear : { s with transfer := none } = s := by rw [← h.noTransfer]
  rw [hclear] at hc
  have hrezero : u.rezero = s.transferTo s.pc := by
    cases hc with
    | branches p _ hp =>
      obtain rfl : p = s.pc := by simpa [hp] using htarget
      exact State.rezero_eq_self h.zeroCell
    | links rd p hrd hp _ =>
      obtain rfl : p = s.pc := by simpa [hp] using htarget
      obtain rfl : rd = 0#5 := by simpa [hrd] using hw
      exact (rezero_setReg_zero (s.transferTo s.pc) _).trans (State.rezero_eq_self h.zeroCell)
    | writes _ _ _ hp _ | stores _ _ _ _ hp _ _ | passes _ hp => simp [hp] at htarget
  rw [ht, retire_to_own_address h hs hz hrezero]

/-- Settles O34: the named self-jumps are taken to their own address and read and write registers that exist. -/
theorem jumpToItselfLoops : Obligations.JumpToItselfLoops := by
  intro s h hs hz
  refine ⟨fun i => step_to_own_address h hs hz, fun hi => ?_, fun r hr hi => ?_⟩
  · have hf : executeFault s (.jal 0#5 0#32) = none := if_pos (hasReg_zero s)
    exact step_to_own_address h hs hz hi hf (by simp [takenTarget]) (.inr rfl)
  · rcases hi with hi | hi | hi <;>
      exact step_to_own_address h hs hz hi (by simp [executeFault, readsOf, accessOf, badDestination, writesOf, hr])
        (by simp [takenTarget]) (.inl rfl)

end Sys2Proof.Proofs
end

section
/-! The statements of 10_state.md about single states: launch, reset and read-out (R37, R39, R58, R280, R281). -/

namespace Sys2Proof.Proofs

open Sys2Proof.Machine Sys2Proof.Claims

/-- Every cell of a launched CORE is 0 (R39). -/
theorem launch_cell (c : Config) (image : List Byte) (i : RegIdx) :
    (State.launch c image).regs[i.toNat]'i.isLt = 0#32 :=
  Vector.getElem_replicate i.isLt

/-- Every register of a launched CORE reads 0 (R39). -/
theorem launch_reg (c : Config) (image : List Byte) (i : RegIdx) : (State.launch c image).reg i = 0#32 := by
  rw [State.reg, launch_cell, ite_self]

/-- Byte `k` of a launched CORE's Memory is byte `k` of the image, 0 beyond it (R58). -/
theorem launch_read (c : Config) (image : List Byte) (k : Nat) :
    (State.launch c image).mem.read k = image[k]?.getD 0#8 := by
  have hread := Memory.read_ofImage 0 k image
  rwa [Nat.zero_add] at hread

/-- Settles O46: cells and Memory by the laws above, every other field as `State.launch` sets it. -/
theorem launchState : Obligations.LaunchState := by
  intro c image
  refine ⟨fun i _ => ⟨launch_reg c image i, launch_cell c image i⟩, rfl, fun k hk => ?_, fun k hk => ?_,
    rfl, rfl, rfl, rfl, rfl⟩
  · rw [launch_read, List.getElem?_eq_getElem hk, Option.getD_some]
  · rw [launch_read, List.getElem?_eq_none hk, Option.getD_none]

/-- Settles O47: both are the same fields, the image's memory being empty. -/
theorem resetIsTheLaunchWithoutImage : Obligations.ResetIsTheLaunchWithoutImage := rfl

/-- Settles O48: the reset state is Halted at PC 0, the end of its empty program. -/
theorem resetMeetsTheInvariant : Obligations.ResetMeetsTheInvariant where
  launch := by decide
  memWf := ⟨List.Pairwise.nil, by simp [State.reset]⟩
  memBound := by simp [State.memInBounds, State.reset]
  zeroCell := rfl
  embedded := by simp [State.embeddedCellsZero, State.reset, Config.default]
  faultRec := by simp [State.faultMatchesStatus, State.reset]
  pcOk := ⟨rfl, .inl (Nat.le_refl 0)⟩
  noTransfer := rfl

/-- Settles O54: the registers are the values of the list of indices below REG_COUNT; the rest is the read-out's definition. -/
theorem readOutCoversTheState : Obligations.ReadOutCoversTheState := by
  intro s
  refine ⟨?_, fun k hk => ?_, fun a => rfl, rfl⟩
  · rw [State.outRegs, List.length_map, List.length_range, regCount]
  · have hk' : k < regCount s.cfg := hk
    rw [State.outRegs, List.getElem?_map, List.getElem?_range hk', Option.map_some]

end Sys2Proof.Proofs
end

section
/-! Registers x16 to x31 of an embedded CORE (R21): two states that agree wherever registers exist run alike. The relation is
carried through the checked operations, the shapes of instruction and the lines after Execute. -/

namespace Sys2Proof.Proofs

open Sys2Proof.Machine Sys2Proof.Claims

/-- A state and the same state with other cells, embedded, whose existing registers read alike (R21). -/
inductive EmbeddedAgree (s : State) : State → Prop where
  /-- The other cells are `r`. -/
  | cells (r : Vector Word 32) : s.cfg.embedded = true →
      (∀ j, s.hasReg j → State.reg { s with regs := r } j = s.reg j) → EmbeddedAgree s { s with regs := r }

/-- For embedded states the relation is the statement's. -/
theorem embeddedAgree_iff {s t : State} (he : s.cfg.embedded = true) :
    EmbeddedAgree s t ↔ AgreeWhereRegistersExist s t := by
  constructor
  · rintro ⟨r, _, hr⟩
    exact ⟨rfl, rfl, rfl, rfl, rfl, rfl, rfl, fun i hi => hr i ((hasReg_embedded he i).mpr hi)⟩
  · rintro ⟨hcfg, hpc, hmem, hstatus, hfault, hlen, htransfer, hreg⟩
    obtain ⟨cfg, regs, pc, mem, status, fault, len, transfer⟩ := t
    dsimp only at hcfg hpc hmem hstatus hfault hlen htransfer
    subst hcfg hpc hmem hstatus hfault hlen htransfer
    exact .cells regs he fun j hj => hreg j ((hasReg_embedded he j).mp hj)

/-- Both computations answer, with states that agree. -/
def ResultsAgree (x y : Result) : Prop := ∃ u v, x = .next u ∧ y = .next v ∧ EmbeddedAgree u v

/-! ### The operations -/

section Operations

variable {s t : State}

theorem EmbeddedAgree.embedded (h : EmbeddedAgree s t) : s.cfg.embedded = true := by
  obtain ⟨_, he, _⟩ := h
  exact he

theorem EmbeddedAgree.next (h : EmbeddedAgree s t) : ResultsAgree (.next s) (.next t) := ⟨s, t, rfl, rfl, h⟩

theorem EmbeddedAgree.raise (h : EmbeddedAgree s t) (f : FaultRecord) : ResultsAgree (raise s f) (raise t f) := by
  obtain ⟨r, he, hr⟩ := h
  exact ⟨_, _, rfl, rfl, .cells r he hr⟩

theorem EmbeddedAgree.setReg (h : EmbeddedAgree s t) (i : RegIdx) (v : Word) :
    EmbeddedAgree (s.setReg i v) (t.setReg i v) := by
  obtain ⟨r, he, hr⟩ := h
  refine .cells (r.set i.toNat v i.isLt) he fun j hj => ?_
  change (State.setReg { s with regs := r } i v).reg j = _
  rw [State.reg_setReg, State.reg_setReg, hr j hj]

theorem EmbeddedAgree.storeAt (h : EmbeddedAgree s t) (a : Word) (n : Width) (v : Word) :
    EmbeddedAgree (s.storeAt a n v) (t.storeAt a n v) := by
  obtain ⟨r, he, hr⟩ := h
  exact .cells r he hr

theorem EmbeddedAgree.transferTo (h : EmbeddedAgree s t) (p : Word) :
    EmbeddedAgree (s.transferTo p) (t.transferTo p) := by
  obtain ⟨r, he, hr⟩ := h
  exact .cells r he hr

theorem EmbeddedAgree.pc (h : EmbeddedAgree s t) : t.pc = s.pc := by
  obtain ⟨_, _, _⟩ := h
  rfl

theorem EmbeddedAgree.hasReg_iff (h : EmbeddedAgree s t) (i : RegIdx) : t.hasReg i ↔ s.hasReg i := by
  obtain ⟨_, _, _⟩ := h
  rfl

theorem EmbeddedAgree.reg (h : EmbeddedAgree s t) {i : RegIdx} (hi : s.hasReg i) : t.reg i = s.reg i := by
  obtain ⟨_, _, hr⟩ := h
  exact hr i hi

theorem EmbeddedAgree.canAccess_iff (h : EmbeddedAgree s t) (a : Word) (n : Width) :
    t.canAccess a n ↔ s.canAccess a n := by
  obtain ⟨_, _, _⟩ := h
  rfl

/-- A checked read of a register goes on alike: it finds the same value or raises the same fault. -/
theorem EmbeddedAgree.read (h : EmbeddedAgree s t) (i : RegIdx) {k k' : Word → Result}
    (hk : ∀ a, ResultsAgree (k a) (k' a)) :
    ResultsAgree (orRaise s (regRead s i) k) (orRaise t (regRead t i) k') := by
  by_cases hi : s.hasReg i
  · rw [regRead_ok hi, regRead_ok ((h.hasReg_iff i).mpr hi), h.reg hi]
    exact hk _
  · rw [regRead_error hi, regRead_error (mt (h.hasReg_iff i).mp hi)]
    exact h.raise _

/-- A checked write of a register goes on alike. -/
theorem EmbeddedAgree.write (h : EmbeddedAgree s t) (i : RegIdx) (v : Word) {k : State → Result}
    (hk : ∀ {u w}, EmbeddedAgree u w → ResultsAgree (k u) (k w)) :
    ResultsAgree (orRaise s (regWrite s i v) k) (orRaise t (regWrite t i v) k) := by
  by_cases hi : s.hasReg i
  · rw [regWrite_ok hi, regWrite_ok ((h.hasReg_iff i).mpr hi)]
    exact hk (h.setReg i v)
  · rw [regWrite_error hi, regWrite_error (mt (h.hasReg_iff i).mp hi)]
    exact h.raise _

/-- A checked load goes on alike: the memories are the same. -/
theorem EmbeddedAgree.memRead (h : EmbeddedAgree s t) (a : Word) (n : Width) {k k' : Word → Result}
    (hk : ∀ v, ResultsAgree (k v) (k' v)) :
    ResultsAgree (orRaise s (memRead s a n) k) (orRaise t (memRead t a n) k') := by
  by_cases hok : s.canAccess a n
  · have hmem : t.mem = s.mem := by obtain ⟨_, _, _⟩ := h; rfl
    rw [memRead_ok hok, memRead_ok ((h.canAccess_iff a n).mpr hok), hmem]
    exact hk _
  · rw [memRead_error hok, memRead_error (mt (h.canAccess_iff a n).mp hok)]
    exact h.raise _

/-- A checked store goes on alike. -/
theorem EmbeddedAgree.memWrite (h : EmbeddedAgree s t) (a : Word) (n : Width) (v : Word) :
    ResultsAgree (orRaise s (memWrite s a n v) .next) (orRaise t (memWrite t a n v) .next) := by
  by_cases hok : s.canAccess a n
  · rw [memWrite_ok hok, memWrite_ok ((h.canAccess_iff a n).mpr hok)]
    exact (h.storeAt a n v).next
  · rw [memWrite_error hok, memWrite_error (mt (h.canAccess_iff a n).mp hok)]
    exact h.raise _

end Operations

/-! ### The instructions -/

section Instructions

variable {s t : State} (h : EmbeddedAgree s t)
include h

theorem aluImm_agree (f : Word → Word) (rd rs1 : RegIdx) : ResultsAgree (aluImm f rd rs1 s) (aluImm f rd rs1 t) :=
  h.read rs1 fun a => h.write rd (f a) EmbeddedAgree.next

theorem aluReg_agree (f : Word → Word → Word) (rd rs1 rs2 : RegIdx) :
    ResultsAgree (aluReg f rd rs1 rs2 s) (aluReg f rd rs1 rs2 t) :=
  h.read rs1 fun a => h.read rs2 fun b => h.write rd (f a b) EmbeddedAgree.next

theorem load_agree (n : Width) (ext : Word → Word) (rd rs1 : RegIdx) (imm : Word) :
    ResultsAgree (load n ext rd rs1 imm s) (load n ext rd rs1 imm t) :=
  h.read rs1 fun _ => h.memRead _ n fun v => h.write rd (ext v) EmbeddedAgree.next

theorem store_agree (n : Width) (rs1 rs2 : RegIdx) (imm : Word) :
    ResultsAgree (store n rs1 rs2 imm s) (store n rs1 rs2 imm t) :=
  h.read rs1 fun _ => h.read rs2 fun v => h.memWrite _ n v

theorem branch_agree (cond : Word → Word → Bool) (rs1 rs2 : RegIdx) (imm : Word) :
    ResultsAgree (branch cond rs1 rs2 imm s) (branch cond rs1 rs2 imm t) := by
  refine h.read rs1 fun a => h.read rs2 fun b => ?_
  rw [pcTarget, pcTarget, h.pc]
  split
  · exact (h.transferTo _).next
  · exact h.next

theorem execAuipc_agree (rd : RegIdx) (imm : Word) : ResultsAgree (execAuipc rd imm s) (execAuipc rd imm t) := by
  rw [execAuipc, execAuipc, pcTarget, pcTarget, h.pc]
  exact h.write rd _ EmbeddedAgree.next

theorem execJal_agree (rd : RegIdx) (imm : Word) : ResultsAgree (execJal rd imm s) (execJal rd imm t) := by
  rw [execJal, execJal, linkValue, linkValue, pcTarget, pcTarget, h.pc]
  exact h.write rd _ fun hu => (hu.transferTo _).next

theorem execJalr_agree (rd rs1 : RegIdx) (imm : Word) :
    ResultsAgree (execJalr rd rs1 imm s) (execJalr rd rs1 imm t) := by
  rw [execJalr, execJalr, linkValue, linkValue, h.pc]
  exact h.read rs1 fun _ => h.write rd _ fun hu => (hu.transferTo _).next

/-- Every instruction runs alike from states that agree. -/
theorem exec_agree (i : Instr) : ResultsAgree (exec i s) (exec i t) := by
  cases i
  case lui => exact h.write _ _ EmbeddedAgree.next
  case auipc => exact execAuipc_agree h _ _
  case jal => exact execJal_agree h _ _
  case jalr => exact execJalr_agree h _ _ _
  case beq | bne | blt | bge | bltu | bgeu => exact branch_agree h _ _ _ _
  case lb | lh | lw | lbu | lhu => exact load_agree h _ _ _ _ _
  case sb | sh | sw => exact store_agree h _ _ _ _
  case addi | slti | sltiu | xori | ori | andi | slli | srli | srai => exact aluImm_agree h _ _ _
  case add | sub | sll | slt | sltu | xor | srl | sra | or | and | mul | mulh | mulhsu | mulhu | div | divu | rem | remu =>
    exact aluReg_agree h _ _ _ _

theorem execWord_agree (w : Word) : ResultsAgree (execWord w s) (execWord w t) := by
  unfold execWord
  split
  · exact exec_agree h _
  · exact h.raise _

end Instructions

/-! ### The step -/

section Step

variable {s t : State}

theorem EmbeddedAgree.advance (h : EmbeddedAgree s t) : EmbeddedAgree s.advance t.advance := by
  obtain ⟨r, he, hr⟩ := h
  exact .cells r he hr

theorem EmbeddedAgree.checkPc (h : EmbeddedAgree s t) : EmbeddedAgree s.checkPc t.checkPc := by
  obtain ⟨r, he, hr⟩ := h
  by_cases ha : s.pc.toNat % 4 = 0
  · rw [State.checkPc, State.checkPc, if_pos ha, if_pos ha]
    exact .cells r he hr
  · rw [State.checkPc, State.checkPc, if_neg ha, if_neg ha]
    exact .cells r he hr

theorem EmbeddedAgree.retire (h : EmbeddedAgree s t) : EmbeddedAgree s.retire t.retire :=
  (h.setReg 0#5 0#32).advance.checkPc

theorem EmbeddedAgree.clearTransfer (h : EmbeddedAgree s t) :
    EmbeddedAgree { s with transfer := none } { t with transfer := none } := by
  obtain ⟨r, he, hr⟩ := h
  exact .cells r he hr

/-- The end of a step keeps agreement. -/
theorem endStep_agree {x y : Result} (h : ResultsAgree x y) : ResultsAgree (endStep x) (endStep y) := by
  obtain ⟨u, v, rfl, rfl, huv⟩ := h
  have hstatus : v.status = u.status := by obtain ⟨_, _, _⟩ := huv; rfl
  by_cases hf : u.status = .faulted
  · rw [endStep_next, endStep_next, if_pos hf, if_pos (hstatus.trans hf)]
    exact huv.clearTransfer.next
  · rw [endStep_next, endStep_next, if_neg hf, if_neg (hstatus ▸ hf)]
    exact huv.retire.next

/-- A defined step of one of two agreeing states is one of the other, and they end in agreement. -/
theorem step_agree (h : EmbeddedAgree s t) (hs : StepDefined s) : ResultsAgree (step s) (step t) := by
  have ht : StepDefined t := by obtain ⟨_, _, _⟩ := h; exact hs
  have hfetch : fetch t = fetch s := by obtain ⟨_, _, _⟩ := h; rfl
  rw [step_of_defined hs, step_of_defined ht, hfetch]
  exact endStep_agree (execWord_agree h.clearTransfer _)

end Step

/-- Settles O53: a step that answers is defined, and a defined step keeps agreement. -/
theorem embeddedCellsAreInvisible : Obligations.EmbeddedCellsAreInvisible := by
  intro s t s' he hagree h
  obtain ⟨u, t', hu, ht, hout⟩ := step_agree ((embeddedAgree_iff he).mpr hagree) (step_outcome h).1
  obtain rfl : s' = u := by simpa [h] using hu
  exact ⟨t', ht, (embeddedAgree_iff hout.embedded).mp hout⟩

end Sys2Proof.Proofs
end

section
/-! The family 20_memory.md. First the bytes of a little-endian access, as the statements write them; then the store and load
forms, and the memory a step leaves; then the statements. -/

namespace Sys2Proof.Machine

/-! ### The bytes of a word (R51, R52) -/

/-- Byte `k` of a word, written as a shift and a truncation. -/
theorem byteOf_eq_ushiftRight (v : Word) (k : Nat) : byteOf v k = (v >>> (8 * k)).setWidth 8 := by
  ext i hi
  simp [byteOf]

/-- A word is its four bytes. -/
theorem eq_of_bytes_eq {v w : Word} (h : ∀ k < 4, (v >>> (8 * k)).setWidth 8 = (w >>> (8 * k)).setWidth 8) : v = w := by
  apply BitVec.eq_of_getLsbD_eq
  intro i hi
  have hbyte := congrArg (·.getLsbD (i % 8)) (h (i / 8) (by omega))
  have hpos : 8 * (i / 8) + i % 8 = i := by omega
  have hlt : i % 8 < 8 := by omega
  simpa [hlt, hpos] using hbyte

/-! ### The bytes of a little-endian read (R51, R53) -/

/-- Byte `k` of a read of `n` bytes is the byte `k` above its address, and 0 from the width up. -/
theorem Memory.byte_readLE (m : Memory) (a n : Nat) {k : Nat} (hk : k < 4) :
    (m.readLE a n >>> (8 * k)).setWidth 8 = if k < n then m.read (a + k) else 0#8 := by
  apply BitVec.eq_of_getLsbD_eq
  intro i hi
  have hbyte : (8 * k + i) / 8 = k := by omega
  have hbit : (8 * k + i) % 8 = i := by omega
  rw [BitVec.getLsbD_setWidth, BitVec.getLsbD_ushiftRight, Memory.getLsbD_readLE (by omega), hbyte, hbit]
  by_cases hn : k < n <;> simp [hi, hn]

/-- The low 8 bits of a one-byte read are the byte. -/
theorem Memory.extractLsb'_readLE_one (m : Memory) (a : Nat) : (m.readLE a 1).extractLsb' 0 8 = m.read a := by
  apply BitVec.eq_of_getLsbD_eq
  intro i hi
  rw [BitVec.getLsbD_extractLsb', Nat.zero_add, Memory.getLsbD_readLE (by omega)]
  have hbyte : i / 8 = 0 := by omega
  have hbit : i % 8 = i := by omega
  simp [hi, hbyte, hbit]

/-- The low 16 bits of a two-byte read are the two bytes, the lower address lowest. -/
theorem Memory.extractLsb'_readLE_two (m : Memory) (a : Nat) :
    (m.readLE a 2).extractLsb' 0 16 = m.read (a + 1) ++ m.read a := by
  apply BitVec.eq_of_getLsbD_eq
  intro i hi
  rw [BitVec.getLsbD_extractLsb', Nat.zero_add, Memory.getLsbD_readLE (by omega), BitVec.getLsbD_append]
  by_cases hlow : i < 8
  · have hbyte : i / 8 = 0 := by omega
    have hbit : i % 8 = i := by omega
    simp [hi, hlow, hbyte, hbit]
  · have hbyte : i / 8 = 1 := by omega
    have hbit : i % 8 = i - 8 := by omega
    simp [hi, hlow, hbyte, hbit]

end Sys2Proof.Machine

namespace Sys2Proof.Proofs

open Sys2Proof.Machine Sys2Proof.Claims

/-- A four-byte read is the word at its address: a fetch from there. -/
theorem readLE_four_eq_wordAt (s : State) (a : Word) : s.mem.readLE a.toNat 4 = wordAt s.mem a.toNat :=
  fetch_eq_wordAt { s with pc := a }

/-- The next fetch reads the four bytes from the PC up (R56). -/
theorem byte_fetch (s : State) {k : Nat} (hk : k < 4) :
    (fetch s >>> (8 * k)).setWidth 8 = s.mem.read (s.pc.toNat + k) := by
  rw [fetch, Memory.byte_readLE _ _ _ hk, if_pos hk]

/-- Every byte after a store: the stored one or the one before (R54). -/
theorem read_writeLE {m : Memory} (h : Memory.wf m) (a n : Nat) (v : Word) (c : Nat) :
    (m.writeLE a n v).read c = byteAfter m a n v c := by
  unfold byteAfter
  split
  · rename_i hin
    rw [← byteOf_eq_ushiftRight, ← Memory.read_writeLE_inside h v (show c - a < n by omega), Nat.add_sub_cancel' hin.1]
  · exact Memory.read_writeLE_outside h v (by omega)

/-! ### An instruction whose Execute raises nothing (R257) -/

/-- Every register it reads exists. -/
theorem hasReg_of_executeFault_none {s : State} {i : Instr} (h : executeFault s i = none) {k : RegIdx}
    (hk : k ∈ readsOf i) : s.hasReg k := by
  unfold executeFault at h
  split at h
  · cases h
  · rename_i hnone
    simpa using List.find?_eq_none.mp hnone k hk

/-- Its access is aligned and in bounds. -/
theorem accessOk_of_executeFault_none {s : State} {i : Instr} (h : executeFault s i = none) {a : Word} {n : Nat}
    (ha : accessOf s i = some (a, n)) : AccessOk s a n := by
  unfold executeFault at h
  split at h
  · cases h
  · simp only [ha] at h
    split at h
    · assumption
    · cases h

/-! ### The store and load forms (R60, R180 to R184, R195 to R197) -/

section Forms

variable {s : State} {rs1 rs2 rd : RegIdx} {imm : Word}

/-- A store form reads rs1 and rs2 and accesses its bytes at x[rs1] + imm. -/
theorem storeForm_format {st : (RegIdx → RegIdx → Word → Instr) × Nat} (hst : st ∈ storeForms) :
    readsOf (st.1 rs1 rs2 imm) = [rs1, rs2] ∧ accessOf s (st.1 rs1 rs2 imm) = some (s.reg rs1 + imm, st.2) := by
  simp only [storeForms, List.mem_cons, List.not_mem_nil, or_false] at hst
  obtain rfl | rfl | rfl := hst <;> exact ⟨rfl, rfl⟩

/-- A store form whose checks pass stores the low bytes of x[rs2] at x[rs1] + imm. -/
theorem exec_storeForm {st : (RegIdx → RegIdx → Word → Instr) × Nat} (hst : st ∈ storeForms)
    (h1 : s.hasReg rs1) (h2 : s.hasReg rs2) (hok : AccessOk s (s.reg rs1 + imm) st.2) :
    ∃ n : Width, n.bytes = st.2 ∧ exec (st.1 rs1 rs2 imm) s = .next (s.storeAt (s.reg rs1 + imm) n (s.reg rs2)) := by
  simp only [storeForms, List.mem_cons, List.not_mem_nil, or_false] at hst
  obtain rfl | rfl | rfl := hst
  · exact ⟨.byte, rfl, store_next h1 h2 hok⟩
  · exact ⟨.half, rfl, store_next h1 h2 hok⟩
  · exact ⟨.word, rfl, store_next h1 h2 hok⟩

/-- A load whose checks pass writes rd with what its extension makes of the bytes read. -/
theorem load_next_of_value {n : Width} {ext : Word → Word} {v : Word} (h1 : s.hasReg rs1) (hd : s.hasReg rd)
    (hok : s.canAccess (s.reg rs1 + imm) n) (hv : ext (s.mem.readLE (s.reg rs1 + imm).toNat n.bytes) = v) :
    load n ext rd rs1 imm s = .next (s.setReg rd v) :=
  hv ▸ load_next h1 hok hd

/-- A load form whose checks pass writes rd with the value it makes of the bytes at x[rs1] + imm. -/
theorem exec_loadForm {ld : (RegIdx → RegIdx → Word → Instr) × Nat × ((Nat → Byte) → Word)} (hld : ld ∈ loadForms)
    (h1 : s.hasReg rs1) (hd : s.hasReg rd) (hok : AccessOk s (s.reg rs1 + imm) ld.2.1) :
    exec (ld.1 rd rs1 imm) s =
      .next (s.setReg rd (ld.2.2 fun k => s.mem.read ((s.reg rs1 + imm).toNat + k))) := by
  have hbyte := Memory.extractLsb'_readLE_one s.mem (s.reg rs1 + imm).toNat
  have hhalf := Memory.extractLsb'_readLE_two s.mem (s.reg rs1 + imm).toNat
  have hword := readLE_four_eq_wordAt s (s.reg rs1 + imm)
  simp only [loadForms, List.mem_cons, List.not_mem_nil, or_false] at hld
  obtain rfl | rfl | rfl | rfl | rfl := hld
  · exact load_next_of_value (n := .byte) h1 hd hok (congrArg (BitVec.signExtend 32) hbyte)
  · exact load_next_of_value (n := .half) h1 hd hok (congrArg (BitVec.signExtend 32) hhalf)
  · exact load_next_of_value (n := .word) h1 hd hok hword
  · exact load_next_of_value (n := .byte) h1 hd hok (congrArg (BitVec.setWidth 32) hbyte)
  · exact load_next_of_value (n := .half) h1 hd hok (congrArg (BitVec.setWidth 32) hhalf)

/-- A step that runs a store form without a fault of Execute leaves the bytes before it with the stored ones among them. -/
theorem read_after_store_step {st : (RegIdx → RegIdx → Word → Instr) × Nat} (hst : st ∈ storeForms) {t : State}
    (hwf : Memory.wf s.mem) (hstep : step s = .next t) (hruns : Runs s (st.1 rs1 rs2 imm))
    (hf : executeFault s (st.1 rs1 rs2 imm) = none) (c : Nat) :
    t.mem.read c = byteAfter s.mem (s.reg rs1 + imm).toNat st.2 (s.reg rs2) c := by
  obtain ⟨hreads, haccess⟩ := storeForm_format (s := s) (rs1 := rs1) (rs2 := rs2) (imm := imm) hst
  have h1 : s.hasReg rs1 := hasReg_of_executeFault_none hf (by simp [hreads])
  have h2 : s.hasReg rs2 := hasReg_of_executeFault_none hf (by simp [hreads])
  obtain ⟨hdef, -⟩ := step_outcome hstep
  obtain ⟨n, hn, hexec⟩ :=
    exec_storeForm (s := { s with transfer := none }) hst h1 h2 (accessOk_of_executeFault_none hf haccess)
  have hnotFaulted : s.status ≠ .faulted := by
    obtain ⟨-, hrunning, -⟩ := hdef
    simp [hrunning]
  obtain ⟨hdecoded, -⟩ := stepRunsTheDecodedInstruction s hdef
  obtain ⟨-, hretire⟩ := hdecoded _ _ hruns hexec
  replace hretire := hretire hnotFaulted
  rw [afterExecute_eq_retire, hstep] at hretire
  cases hretire
  rw [State.retire_mem, State.storeAt_mem, hn]
  exact read_writeLE hwf _ _ _ c

end Forms

/-! ### The statements -/

/-- Settles O13: the check of MemRead, and the bytes of a little-endian read. -/
theorem memoryReadRule : Obligations.MemoryReadRule := by
  intro s a n
  exact ⟨fun hbad => memRead_error hbad, fun halign hbound =>
    ⟨_, memRead_ok ⟨halign, hbound⟩, fun k hk => Memory.byte_readLE _ _ _ hk⟩⟩

/-- Settles O14: the check of MemWrite, and every byte after a store. -/
theorem memoryWriteRule : Obligations.MemoryWriteRule := by
  intro s a n v hwf
  exact ⟨fun hbad => memWrite_error hbad v, fun halign hbound =>
    ⟨_, memWrite_ok ⟨halign, hbound⟩ v, rfl, Memory.wf_writeLE hwf _ _ _, read_writeLE hwf _ _ _⟩⟩

/-- Settles O15: MEM_SIZE and the address are multiples of the width. -/
theorem alignedAccessInBounds : Obligations.AlignedAccessInBounds := by
  intro s a n hlaunch halign
  obtain ⟨-, -, hsize, -, -⟩ := hlaunch
  cases n <;> simp only [Width.bytes] at halign ⊢ <;> omega

/-- Settles O30. -/
theorem fetchReadsTheWordAtThePc : Obligations.FetchReadsTheWordAtThePc := fetch_eq_wordAt

/-- Settles O28: the store leaves the registers and parameters the load's checks read, and the load reads the bytes after
it. -/
theorem storeThenLoadAtAnyWidth : Obligations.StoreThenLoadAtAnyWidth := by
  intro st hst ld hld s rs1 rs2 rb rd imm off hwf h1 h2 hb hd hstore hload
  obtain ⟨n, hn, hexec⟩ := exec_storeForm hst h1 h2 hstore
  have hbytes : (s.storeAt (s.reg rs1 + imm) n (s.reg rs2)).mem.read =
      byteAfter s.mem (s.reg rs1 + imm).toNat st.2 (s.reg rs2) := by
    rw [State.storeAt_mem, hn]
    exact funext (read_writeLE hwf _ _ _)
  refine ⟨_, _, hexec, exec_loadForm hld hb hd hload, ?_⟩
  rw [hbytes, State.reg_storeAt]
  by_cases h0 : rd = 0#5
  · rw [if_pos h0, h0, State.reg_zero]
  · rw [if_neg h0, State.reg_setReg_same _ _ h0]

/-- Settles O35: the next fetch reads the memory the step leaves, and four stored bytes are the stored word. -/
theorem storesReachTheNextFetch : Obligations.StoresReachTheNextFetch := by
  intro st hst s t rs1 rs2 imm hwf hstep hruns
  obtain ⟨-, hlen⟩ := parametersNeverChange s t hstep
  refine ⟨hlen, fun hf => ?_⟩
  have hbytes : ∀ k < 4, (fetch t >>> (8 * k)).setWidth 8 =
      byteAfter s.mem (s.reg rs1 + imm).toNat st.2 (s.reg rs2) (t.pc.toNat + k) := fun k hk => by
    rw [byte_fetch t hk, read_after_store_step hst hwf hstep hruns hf]
  refine ⟨hbytes, fun hfour hpc => eq_of_bytes_eq fun k hk => ?_⟩
  rw [hbytes k hk, hfour, hpc, byteAfter, if_pos (by omega), Nat.add_sub_cancel_left]

/-- Settles O36: of a step's outcomes only a completed store reaches Memory, and it keeps every byte outside its access. -/
theorem memoryChangesOnlyByStores : Obligations.MemoryChangesOnlyByStores := by
  intro s t a hwf hstep hchanged
  obtain ⟨-, hout⟩ := step_outcome hstep
  cases hout with
  | undecodable | raises => exact absurd rfl hchanged
  | retires i u hruns _ hc =>
    rw [State.retire_mem] at hchanged
    cases hc with
    | writes | branches | links | passes => exact absurd rfl hchanged
    | stores ea n v hw _ haccess _ =>
      have hin : ea.toNat ≤ a ∧ a < ea.toNat + n.bytes := by
        by_contra hout
        exact hchanged (Memory.read_writeLE_outside hwf v (by omega))
      exact ⟨i, ea, n.bytes, hruns, hw, haccess, hin⟩

end Sys2Proof.Proofs
end

section
/-! The family 30_encoding.md. First the immediates of a word: the value, the range and the low bits of a sign-extended field (R8,
R82 to R88). -/

namespace Sys2Proof

/-! ### Sign extension (R8) -/

/-- Sign extension keeps the value within the range of the field's width. -/
theorem signExtend_bounds {n : Nat} (hn : n ≤ 32) (x : BitVec n) :
    -2 ^ (n - 1) ≤ (x.signExtend 32).toInt ∧ (x.signExtend 32).toInt < 2 ^ (n - 1) := by
  rw [BitVec.toInt_signExtend_of_le hn]
  exact ⟨x.le_toInt, x.toInt_lt⟩

/-- Sign extension keeps the bits of the field. -/
theorem toNat_signExtend_mod {n : Nat} (hn : n ≤ 32) (x : BitVec n) : (x.signExtend 32).toNat % 2 ^ n = x.toNat := by
  have hlow : (x.signExtend 32).setWidth n = x := by
    apply BitVec.eq_of_getLsbD_eq
    intro i hi
    have hi32 : i < 32 := by omega
    rw [BitVec.getLsbD_setWidth, BitVec.getLsbD_signExtend]
    simp [hi, hi32]
  rw [← BitVec.toNat_setWidth, hlow]

/-! ### The low bits of the immediates, by the fields they are made of -/

theorem toNat_immI_mod (w : Word) : (immI w).toNat % 2 ^ 12 = (w.extractLsb' 20 12).toNat :=
  toNat_signExtend_mod (by decide) _

theorem toNat_immS_mod (w : Word) :
    (immS w).toNat % 2 ^ 12 = (w.extractLsb' 25 7).toNat * 2 ^ 5 + (w.extractLsb' 7 5).toNat := by
  rw [immS, toNat_signExtend_mod (by decide), toNat_append_add]

theorem toNat_immB_mod (w : Word) :
    (immB w).toNat % 2 ^ 13 =
      (w.extractLsb' 31 1).toNat * 2 ^ 12 + (w.extractLsb' 7 1).toNat * 2 ^ 11 + (w.extractLsb' 25 6).toNat * 2 ^ 5 +
        (w.extractLsb' 8 4).toNat * 2 := by
  rw [immB, toNat_signExtend_mod (by decide)]
  iterate 4 rw [toNat_append_add]
  rw [BitVec.toNat_ofNat]
  omega

theorem toNat_immU (w : Word) : (immU w).toNat = (w.extractLsb' 12 20).toNat * 2 ^ 12 := by
  rw [immU, toNat_append_add, BitVec.toNat_ofNat, Nat.zero_mod, Nat.add_zero]

theorem toNat_immJ_mod (w : Word) :
    (immJ w).toNat % 2 ^ 21 =
      (w.extractLsb' 31 1).toNat * 2 ^ 20 + (w.extractLsb' 12 8).toNat * 2 ^ 12 + (w.extractLsb' 20 1).toNat * 2 ^ 11 +
        (w.extractLsb' 21 10).toNat * 2 := by
  rw [immJ, toNat_signExtend_mod (by decide)]
  iterate 4 rw [toNat_append_add]
  rw [BitVec.toNat_ofNat]
  omega

/-! ### Every immediate of a word is one its format carries (R82 to R87) -/

theorem immFits12_iff {imm : Word} : immFits12 imm = true ↔ -2048 ≤ imm.toInt ∧ imm.toInt ≤ 2047 := by
  simp [immFits12]

theorem immFitsB_iff {imm : Word} :
    immFitsB imm = true ↔ imm.toNat % 2 = 0 ∧ -4096 ≤ imm.toInt ∧ imm.toInt ≤ 4094 := by
  simp [immFitsB]

theorem immFitsU_iff {imm : Word} : immFitsU imm = true ↔ imm.toNat % 4096 = 0 := by
  simp [immFitsU]

theorem immFitsJ_iff {imm : Word} :
    immFitsJ imm = true ↔ imm.toNat % 2 = 0 ∧ -1048576 ≤ imm.toInt ∧ imm.toInt ≤ 1048574 := by
  simp [immFitsJ]

/-- A sign-extended field of 12 bits fits 12 bits. -/
theorem immFits12_signExtend (x : BitVec 12) : immFits12 (x.signExtend 32) = true := by
  have := signExtend_bounds (by decide) x
  rw [immFits12_iff]
  omega

theorem immFits12_immI (w : Word) : immFits12 (immI w) = true := immFits12_signExtend _

theorem immFits12_immS (w : Word) : immFits12 (immS w) = true := immFits12_signExtend _

theorem immFitsB_immB (w : Word) : immFitsB (immB w) = true := by
  have hbounds : -2 ^ 12 ≤ (immB w).toInt ∧ (immB w).toInt < 2 ^ 12 := signExtend_bounds (n := 13) (by decide) _
  have hlow := toNat_immB_mod w
  have heven : (immB w).toNat % 2 = 0 := by omega
  have hint := BitVec.toInt_eq_toNat_cond (immB w)
  rw [immFitsB_iff]
  split at hint <;> omega

theorem immFitsU_immU (w : Word) : immFitsU (immU w) = true := by
  rw [immFitsU_iff, toNat_immU]
  omega

theorem immFitsJ_immJ (w : Word) : immFitsJ (immJ w) = true := by
  have hbounds : -2 ^ 20 ≤ (immJ w).toInt ∧ (immJ w).toInt < 2 ^ 20 := signExtend_bounds (n := 21) (by decide) _
  have hlow := toNat_immJ_mod w
  have heven : (immJ w).toNat % 2 = 0 := by omega
  have hint := BitVec.toInt_eq_toNat_cond (immJ w)
  rw [immFitsJ_iff]
  split at hint <;> omega

/-! ### A word is its format's encoding of its own fields (R80) -/

theorem encR_fields (w : Word) :
    encR (funct7Of w) (funct3Of w) (opcodeOf w) (rdOf w) (rs1Of w) (rs2Of w) = w := by
  apply BitVec.eq_of_toNat_eq
  rw [encR_toNat]
  simp only [funct7Of, funct3Of, opcodeOf, rdOf, rs1Of, rs2Of, toNat_field]
  omega

theorem encShift_fields (w : Word) :
    encShift (funct7Of w) (funct3Of w) (opcodeOf w) (rdOf w) (rs1Of w) (shamtOf w) = w := encR_fields w

/-- The field of an I-type word above rs1 is the low bits of its immediate (R82). -/
theorem immI_field (w : Word) : (immI w).extractLsb' 0 12 = w.extractLsb' 20 12 := by
  have himm := toNat_immI_mod w
  apply BitVec.eq_of_toNat_eq
  rw [toNat_field]
  omega

/-- The field above rs2 of an S-type word is bits 11:5 of its immediate (R83). -/
theorem immS_field_high (w : Word) : (immS w).extractLsb' 5 7 = funct7Of w := by
  have himm := toNat_immS_mod w
  apply BitVec.eq_of_toNat_eq
  rw [toNat_field, funct7Of]
  omega

/-- The field below funct3 of an S-type word is bits 4:0 of its immediate (R83). -/
theorem immS_field_low (w : Word) : (immS w).extractLsb' 0 5 = rdOf w := by
  have himm := toNat_immS_mod w
  apply BitVec.eq_of_toNat_eq
  rw [toNat_field, rdOf]
  omega

theorem encI_fields (w : Word) : encI (funct3Of w) (opcodeOf w) (rdOf w) (rs1Of w) (immI w) = w := by
  apply BitVec.eq_of_toNat_eq
  rw [encI_toNat, immI_field]
  simp only [funct3Of, opcodeOf, rdOf, rs1Of, toNat_field]
  omega

theorem encS_fields (w : Word) : encS (funct3Of w) (opcodeOf w) (rs1Of w) (rs2Of w) (immS w) = w := by
  rw [encS, immS_field_high, immS_field_low]
  exact encR_fields w

/-- The four parts of a B-type word's immediate lie at bits 31, 30:25, 11:8 and 7 (R84). -/
theorem immB_fields (w : Word) :
    (immB w).extractLsb' 12 1 = w.extractLsb' 31 1 ∧ (immB w).extractLsb' 5 6 = w.extractLsb' 25 6 ∧
    (immB w).extractLsb' 1 4 = w.extractLsb' 8 4 ∧ (immB w).extractLsb' 11 1 = w.extractLsb' 7 1 := by
  have himm := toNat_immB_mod w
  refine ⟨?_, ?_, ?_, ?_⟩ <;> (apply BitVec.eq_of_toNat_eq; rw [toNat_field]; omega)

theorem encB_fields (w : Word) : encB (funct3Of w) (opcodeOf w) (rs1Of w) (rs2Of w) (immB w) = w := by
  obtain ⟨h12, h5, h1, h11⟩ := immB_fields w
  apply BitVec.eq_of_toNat_eq
  rw [encB_toNat, h12, h5, h1, h11]
  simp only [funct3Of, opcodeOf, rs1Of, rs2Of, toNat_field]
  omega

theorem encU_fields (w : Word) : encU (opcodeOf w) (rdOf w) (immU w) = w := by
  apply BitVec.eq_of_toNat_eq
  rw [encU_toNat]
  simp only [opcodeOf, rdOf, toNat_field, toNat_immU]
  omega

/-- The four parts of a J-type word's immediate lie at bits 31, 30:21, 20 and 19:12 (R87). -/
theorem immJ_fields (w : Word) :
    (immJ w).extractLsb' 20 1 = w.extractLsb' 31 1 ∧ (immJ w).extractLsb' 1 10 = w.extractLsb' 21 10 ∧
    (immJ w).extractLsb' 11 1 = w.extractLsb' 20 1 ∧ (immJ w).extractLsb' 12 8 = w.extractLsb' 12 8 := by
  have himm := toNat_immJ_mod w
  refine ⟨?_, ?_, ?_, ?_⟩ <;> (apply BitVec.eq_of_toNat_eq; rw [toNat_field]; omega)

theorem encJ_fields (w : Word) : encJ (opcodeOf w) (rdOf w) (immJ w) = w := by
  obtain ⟨h20, h1, h11, h12⟩ := immJ_fields w
  apply BitVec.eq_of_toNat_eq
  rw [encJ_toNat, h20, h1, h11, h12]
  simp only [opcodeOf, rdOf, toNat_field]
  omega

end Sys2Proof
end

section
/-! The family 30_encoding.md: the decoder by the opcode of the word (R91, R96), what each of its rows gives back as an encoding
(R92), and the row of the opcode table of every decoded word. -/

namespace Sys2Proof

/-! ### The decoder (R94, R96, R97) -/

theorem decode_eq_ok_iff {w : Word} {i : Instr} : decode w = .ok i ↔ decodeRow w = some i := by
  unfold decode
  cases decodeRow w <;> simp

theorem decode_of_decodeRow_none {w : Word} (h : decodeRow w = none) :
    decode w = .invalidOp (opcodeOf w) (funct3Of w) (funct7Of w) := by
  rw [decode, h]

/-! ### The decoder on a word of each opcode (R91) -/

section Opcode

variable {w : Word}

theorem decodeRow_lui (h : opcodeOf w = 0x37#7) : decodeRow w = some (.lui (rdOf w) (immU w)) := by
  simp [decodeRow, h]

theorem decodeRow_auipc (h : opcodeOf w = 0x17#7) : decodeRow w = some (.auipc (rdOf w) (immU w)) := by
  simp [decodeRow, h]

theorem decodeRow_jal (h : opcodeOf w = 0x6F#7) : decodeRow w = some (.jal (rdOf w) (immJ w)) := by
  simp [decodeRow, h]

theorem decodeRow_jalr (h : opcodeOf w = 0x67#7) :
    decodeRow w = if funct3Of w = 0#3 then some (.jalr (rdOf w) (rs1Of w) (immI w)) else none := by
  simp [decodeRow, h]

theorem decodeRow_branch (h : opcodeOf w = 0x63#7) :
    decodeRow w = branchRow (funct3Of w) (rs1Of w) (rs2Of w) (immB w) := by
  simp [decodeRow, h]

theorem decodeRow_load (h : opcodeOf w = 0x03#7) :
    decodeRow w = loadRow (funct3Of w) (rdOf w) (rs1Of w) (immI w) := by
  simp [decodeRow, h]

theorem decodeRow_store (h : opcodeOf w = 0x23#7) :
    decodeRow w = storeRow (funct3Of w) (rs1Of w) (rs2Of w) (immS w) := by
  simp [decodeRow, h]

theorem decodeRow_opImm (h : opcodeOf w = 0x13#7) :
    decodeRow w = opImmRow (funct3Of w) (funct7Of w) (rdOf w) (rs1Of w) (immI w) (shamtOf w) := by
  simp [decodeRow, h]

theorem decodeRow_op (h : opcodeOf w = 0x33#7) :
    decodeRow w = opRow (funct3Of w) (funct7Of w) (rdOf w) (rs1Of w) (rs2Of w) := by
  simp [decodeRow, h]

/-- The opcodes of the CORE (R91). -/
def coreOpcodes : List (BitVec 7) := [0x37#7, 0x17#7, 0x6F#7, 0x67#7, 0x63#7, 0x03#7, 0x23#7, 0x13#7, 0x33#7]

/-- A word of any other opcode is no instruction. -/
theorem decodeRow_none_of_opcode (h : opcodeOf w ∉ coreOpcodes) : decodeRow w = none := by
  simp only [coreOpcodes, List.mem_cons, List.not_mem_nil, or_false, not_or] at h
  simp [decodeRow, h]

end Opcode

/-! ### An instruction of a row is well formed and encodes the row's fields (R80, R92) -/

section Rows

variable {f3 : BitVec 3} {f7 : BitVec 7} {rd rs1 rs2 : RegIdx} {imm : Word} {shamt : BitVec 5} {i : Instr}

theorem encode_of_branchRow (hfits : immFitsB imm = true) (h : branchRow f3 rs1 rs2 imm = some i) :
    i.wf = true ∧ encode i = encB f3 0x63#7 rs1 rs2 imm := by
  unfold branchRow at h
  split_ifs at h with hf3 hf3 hf3 hf3 hf3 hf3 <;> (cases h; subst hf3; exact ⟨hfits, rfl⟩)

theorem encode_of_loadRow (hfits : immFits12 imm = true) (h : loadRow f3 rd rs1 imm = some i) :
    i.wf = true ∧ encode i = encI f3 0x03#7 rd rs1 imm := by
  unfold loadRow at h
  split_ifs at h with hf3 hf3 hf3 hf3 hf3 <;> (cases h; subst hf3; exact ⟨hfits, rfl⟩)

theorem encode_of_storeRow (hfits : immFits12 imm = true) (h : storeRow f3 rs1 rs2 imm = some i) :
    i.wf = true ∧ encode i = encS f3 0x23#7 rs1 rs2 imm := by
  unfold storeRow at h
  split_ifs at h with hf3 hf3 hf3 <;> (cases h; subst hf3; exact ⟨hfits, rfl⟩)

/-- For the shifts the immediate's place is taken by funct7 and the shift amount (R88). -/
theorem encode_of_opImmRow (hfits : immFits12 imm = true) (h : opImmRow f3 f7 rd rs1 imm shamt = some i) :
    i.wf = true ∧ (encode i = encI f3 0x13#7 rd rs1 imm ∨ encode i = encShift f7 f3 0x13#7 rd rs1 shamt) := by
  unfold opImmRow at h
  split_ifs at h with hf3 hf3 hf3 hf3 hf3 hf3 hshift hshift hshift
  case pos | pos | pos | pos | pos | pos => cases h; subst hf3; exact ⟨hfits, .inl rfl⟩
  case pos | pos | pos => cases h; obtain ⟨rfl, rfl⟩ := hshift; exact ⟨rfl, .inr rfl⟩

theorem encode_of_op0Row (h : op0Row f3 rd rs1 rs2 = some i) :
    i.wf = true ∧ encode i = encR 0x00#7 f3 0x33#7 rd rs1 rs2 := by
  unfold op0Row at h
  split_ifs at h with hf3 hf3 hf3 hf3 hf3 hf3 hf3 hf3 <;> (cases h; subst hf3; exact ⟨rfl, rfl⟩)

theorem encode_of_mulDivRow (h : mulDivRow f3 rd rs1 rs2 = some i) :
    i.wf = true ∧ encode i = encR 0x01#7 f3 0x33#7 rd rs1 rs2 := by
  unfold mulDivRow at h
  split_ifs at h with hf3 hf3 hf3 hf3 hf3 hf3 hf3 hf3 <;> (cases h; subst hf3; exact ⟨rfl, rfl⟩)

theorem encode_of_opRow (h : opRow f3 f7 rd rs1 rs2 = some i) :
    i.wf = true ∧ encode i = encR f7 f3 0x33#7 rd rs1 rs2 := by
  unfold opRow at h
  split_ifs at h with h0 hsub hsra h1
  · subst h0
    exact encode_of_op0Row h
  · cases h
    obtain ⟨rfl, rfl⟩ := hsub
    exact ⟨rfl, rfl⟩
  · cases h
    obtain ⟨rfl, rfl⟩ := hsra
    exact ⟨rfl, rfl⟩
  · subst h1
    exact encode_of_mulDivRow h

end Rows

/-- An instruction the decoder gives is well formed and encodes the word (R80 to R96). -/
theorem encode_of_decodeRow {w : Word} {i : Instr} (h : decodeRow w = some i) : i.wf = true ∧ encode i = w := by
  by_cases hop : opcodeOf w ∈ coreOpcodes
  · simp only [coreOpcodes, List.mem_cons, List.not_mem_nil, or_false] at hop
    rcases hop with hop | hop | hop | hop | hop | hop | hop | hop | hop
    · rw [decodeRow_lui hop] at h
      cases h
      have hword := encU_fields w
      rw [hop] at hword
      exact ⟨immFitsU_immU w, hword⟩
    · rw [decodeRow_auipc hop] at h
      cases h
      have hword := encU_fields w
      rw [hop] at hword
      exact ⟨immFitsU_immU w, hword⟩
    · rw [decodeRow_jal hop] at h
      cases h
      have hword := encJ_fields w
      rw [hop] at hword
      exact ⟨immFitsJ_immJ w, hword⟩
    · rw [decodeRow_jalr hop] at h
      split_ifs at h with hf3
      cases h
      have hword := encI_fields w
      rw [hf3, hop] at hword
      exact ⟨immFits12_immI w, hword⟩
    · rw [decodeRow_branch hop] at h
      obtain ⟨hwf, henc⟩ := encode_of_branchRow (immFitsB_immB w) h
      exact ⟨hwf, henc.trans (hop ▸ encB_fields w)⟩
    · rw [decodeRow_load hop] at h
      obtain ⟨hwf, henc⟩ := encode_of_loadRow (immFits12_immI w) h
      exact ⟨hwf, henc.trans (hop ▸ encI_fields w)⟩
    · rw [decodeRow_store hop] at h
      obtain ⟨hwf, henc⟩ := encode_of_storeRow (immFits12_immS w) h
      exact ⟨hwf, henc.trans (hop ▸ encS_fields w)⟩
    · rw [decodeRow_opImm hop] at h
      obtain ⟨hwf, henc | henc⟩ := encode_of_opImmRow (immFits12_immI w) h
      · exact ⟨hwf, henc.trans (hop ▸ encI_fields w)⟩
      · exact ⟨hwf, henc.trans (hop ▸ encShift_fields w)⟩
    · rw [decodeRow_op hop] at h
      obtain ⟨hwf, henc⟩ := encode_of_opRow h
      exact ⟨hwf, henc.trans (hop ▸ encR_fields w)⟩
  · simp [decodeRow_none_of_opcode hop] at h

/-- Decoding the word of a well-formed instruction gives it back (R80 to R96): every field and, where the format carries it,
the immediate is read back as it was written. -/
theorem decodeRow_encode {i : Instr} (h : i.wf = true) : decodeRow (encode i) = some i := by
  cases i
  case lui => rw [encode, decodeRow_lui (opcodeOf_encU ..), rdOf_encU, immU_encU h]
  case auipc => rw [encode, decodeRow_auipc (opcodeOf_encU ..), rdOf_encU, immU_encU h]
  case jal => rw [encode, decodeRow_jal (opcodeOf_encJ ..), rdOf_encJ, immJ_encJ h]
  case jalr =>
    rw [encode, decodeRow_jalr (opcodeOf_encI ..), if_pos (funct3Of_encI ..), rdOf_encI, rs1Of_encI, immI_encI h]
  case beq | bne | blt | bge | bltu | bgeu =>
    rw [encode, decodeRow_branch (opcodeOf_encB ..), funct3Of_encB, rs1Of_encB, rs2Of_encB, immB_encB h]
    rfl
  case lb | lh | lw | lbu | lhu =>
    rw [encode, decodeRow_load (opcodeOf_encI ..), funct3Of_encI, rdOf_encI, rs1Of_encI, immI_encI h]
    rfl
  case sb | sh | sw =>
    rw [encode, decodeRow_store (opcodeOf_encS ..), funct3Of_encS, rs1Of_encS, rs2Of_encS, immS_encS h]
    rfl
  case addi | slti | sltiu | xori | ori | andi =>
    rw [encode, decodeRow_opImm (opcodeOf_encI ..), funct3Of_encI, rdOf_encI, rs1Of_encI, immI_encI h]
    rfl
  case slli | srli | srai =>
    rw [encode, decodeRow_opImm (opcodeOf_encShift ..), funct3Of_encShift, funct7Of_encShift, rdOf_encShift,
      rs1Of_encShift, shamtOf_encShift]
    rfl
  case add | sub | sll | slt | sltu | xor | srl | sra | or | and | mul | mulh | mulhsu | mulhu | div | divu | rem | remu =>
    rw [encode, decodeRow_op (opcodeOf_encR ..), funct3Of_encR, funct7Of_encR, rdOf_encR, rs1Of_encR, rs2Of_encR]
    rfl

end Sys2Proof
end

section
/-! The family 30_encoding.md: the opcode table (R91, R92). A word with a row's fixed bits decodes to an instruction of the row,
and a word that decodes has the fixed bits of its instruction's row. -/

namespace Sys2Proof

variable {w : Word} {r : OpcodeRow}

/-- The word decodes to an instruction of the row's mnemonic. -/
def DecodesInRow (w : Word) (r : OpcodeRow) : Prop := ∃ i, decodeRow w = some i ∧ i.mnemonic = r.mnemonic

theorem decodesInRow_uJump (hr : r ∈ uJumpRows) (h : w &&& r.mask = r.pattern) : DecodesInRow w r := by
  fin_cases hr
  · exact ⟨_, decodeRow_lui ((and_opcode_mask (by decide)).mp h), rfl⟩
  · exact ⟨_, decodeRow_auipc ((and_opcode_mask (by decide)).mp h), rfl⟩
  · exact ⟨_, decodeRow_jal ((and_opcode_mask (by decide)).mp h), rfl⟩
  · obtain ⟨hop, hf3⟩ := (and_funct3_mask (by decide)).mp h
    exact ⟨_, (decodeRow_jalr hop).trans (if_pos hf3), rfl⟩

theorem decodesInRow_branch (hr : r ∈ branchRows) (h : w &&& r.mask = r.pattern) : DecodesInRow w r := by
  fin_cases hr <;>
  · obtain ⟨hop, hf3⟩ := (and_funct3_mask (by decide)).mp h
    exact ⟨_, (decodeRow_branch hop).trans (by rw [hf3]; rfl), rfl⟩

theorem decodesInRow_memory (hr : r ∈ memoryRows) (h : w &&& r.mask = r.pattern) : DecodesInRow w r := by
  fin_cases hr
  iterate 5
    · obtain ⟨hop, hf3⟩ := (and_funct3_mask (by decide)).mp h
      exact ⟨_, (decodeRow_load hop).trans (by rw [hf3]; rfl), rfl⟩
  iterate 3
    · obtain ⟨hop, hf3⟩ := (and_funct3_mask (by decide)).mp h
      exact ⟨_, (decodeRow_store hop).trans (by rw [hf3]; rfl), rfl⟩

theorem decodesInRow_opImm (hr : r ∈ opImmRows) (h : w &&& r.mask = r.pattern) : DecodesInRow w r := by
  fin_cases hr
  iterate 6
    · obtain ⟨hop, hf3⟩ := (and_funct3_mask (by decide)).mp h
      exact ⟨_, (decodeRow_opImm hop).trans (by rw [hf3]; rfl), rfl⟩
  iterate 3
    · obtain ⟨hop, hf3, hf7⟩ := (and_funct7_mask (by decide)).mp h
      exact ⟨_, (decodeRow_opImm hop).trans (by rw [hf3, hf7]; rfl), rfl⟩

theorem decodesInRow_op (hr : r ∈ opRows ++ mulDivRows) (h : w &&& r.mask = r.pattern) : DecodesInRow w r := by
  fin_cases hr <;>
  · obtain ⟨hop, hf3, hf7⟩ := (and_funct7_mask (by decide)).mp h
    exact ⟨_, (decodeRow_op hop).trans (by rw [hf3, hf7]; rfl), rfl⟩

/-- A word with a row's fixed bits decodes to an instruction of the row. -/
theorem decodesInRow_of_matches (hr : r ∈ opcodeTable) (h : w &&& r.mask = r.pattern) : DecodesInRow w r := by
  simp only [opcodeTable, List.append_assoc] at hr
  rcases List.mem_append.mp hr with hr | hr
  · exact decodesInRow_uJump hr h
  rcases List.mem_append.mp hr with hr | hr
  · exact decodesInRow_branch hr h
  rcases List.mem_append.mp hr with hr | hr
  · exact decodesInRow_memory hr h
  rcases List.mem_append.mp hr with hr | hr
  · exact decodesInRow_opImm hr h
  · exact decodesInRow_op hr h

/-- No two rows share a mnemonic. -/
theorem eq_of_mnemonic_eq {r r' : OpcodeRow} (hr : r ∈ opcodeTable) (hr' : r' ∈ opcodeTable)
    (h : r.mnemonic = r'.mnemonic) : r = r' := by
  have hnodup : (opcodeTable.map OpcodeRow.mnemonic).Nodup := by decide
  exact List.inj_on_of_nodup_map hnodup hr hr' h

end Sys2Proof

namespace Sys2Proof.Laws.EncodesItsRow

/-- Every instruction's word has the fixed bits of its row. -/
theorem every_instr (i : Instr) : Statement i := by
  cases i with
  | lui => exact lui ..
  | auipc => exact auipc ..
  | jal => exact jal ..
  | jalr => exact jalr ..
  | beq => exact beq ..
  | bne => exact bne ..
  | blt => exact blt ..
  | bge => exact bge ..
  | bltu => exact bltu ..
  | bgeu => exact bgeu ..
  | lb => exact lb ..
  | lh => exact lh ..
  | lw => exact lw ..
  | lbu => exact lbu ..
  | lhu => exact lhu ..
  | sb => exact sb ..
  | sh => exact sh ..
  | sw => exact sw ..
  | addi => exact addi ..
  | slti => exact slti ..
  | sltiu => exact sltiu ..
  | xori => exact xori ..
  | ori => exact ori ..
  | andi => exact andi ..
  | slli => exact slli ..
  | srli => exact srli ..
  | srai => exact srai ..
  | add => exact add ..
  | sub => exact sub ..
  | sll => exact sll ..
  | slt => exact slt ..
  | sltu => exact sltu ..
  | xor => exact xor ..
  | srl => exact srl ..
  | sra => exact sra ..
  | or => exact or ..
  | and => exact and ..
  | mul => exact mul ..
  | mulh => exact mulh ..
  | mulhsu => exact mulhsu ..
  | mulhu => exact mulhu ..
  | div => exact div ..
  | divu => exact divu ..
  | rem => exact rem ..
  | remu => exact remu ..

end Sys2Proof.Laws.EncodesItsRow

namespace Sys2Proof

open Laws

/-- A word that decodes has the fixed bits of its instruction's row. -/
theorem matches_of_decodeRow {w : Word} {i : Instr} (h : decodeRow w = some i) :
    ∃ r ∈ opcodeTable, r.mnemonic = i.mnemonic ∧ w &&& r.mask = r.pattern := by
  obtain ⟨r, hr, hname, hmatch⟩ := EncodesItsRow.every_instr i
  rw [(encode_of_decodeRow h).2, EncodesItsRow.matchesWord_iff] at hmatch
  exact ⟨r, hr, hname, hmatch⟩

end Sys2Proof
end

section
/-! The statements of 30_encoding.md about words: fields, immediates, the decoder and its rejections. -/

namespace Sys2Proof.Proofs

open Sys2Proof.Machine Sys2Proof.Claims

/-! ### Decoding and encoding (R80 to R96) -/

/-- Settles O6: decoding reads back every field the format holds. -/
theorem decodeOfEncodeIsTheInstruction : Obligations.DecodeOfEncodeIsTheInstruction := fun _ hwf =>
  decode_eq_ok_iff.mpr (decodeRow_encode hwf)

/-- Settles O7: a row's instruction encodes the fields it was read from, and those are the word. -/
theorem encodeOfDecodeIsTheWord : Obligations.EncodeOfDecodeIsTheWord := fun _ _ h =>
  encode_of_decodeRow (decode_eq_ok_iff.mp h)

/-- Settles O8: forward row by row; backward the word has the fixed bits of its instruction's row, and the mnemonic names
no other. -/
theorem decodeFollowsTheOpcodeTable : Obligations.DecodeFollowsTheOpcodeTable := by
  intro w r hr
  simp only [decode_eq_ok_iff]
  refine ⟨decodesInRow_of_matches hr, fun ⟨i, hi, hname⟩ => ?_⟩
  obtain ⟨r', hr', hname', hmatch⟩ := matches_of_decodeRow hi
  obtain rfl := eq_of_mnemonic_eq hr' hr (hname'.trans hname)
  exact hmatch

/-! ### Fields and immediates (R81 to R89) -/

/-- A field as a number, in the statements' words. -/
theorem toNat_field_eq_bitsOf (w : Word) (lo len : Nat) : (w.extractLsb' lo len).toNat = bitsOf w lo len :=
  toNat_field w lo len

/-- Settles O2: each field is an `extractLsb'`, whose number is the quotient and remainder. -/
theorem fieldsAreTheFixedBits : Obligations.FieldsAreTheFixedBits := fun w =>
  ⟨toNat_field w 0 7, toNat_field w 7 5, toNat_field w 12 3, toNat_field w 15 5, toNat_field w 20 5, toNat_field w 25 7⟩

/-- The signed value of a sign-extended field (R8). -/
theorem toInt_signExtend_eq_sextValue {n : Nat} (h0 : 0 < n) (hn : n ≤ 32) (x : BitVec n) :
    (x.signExtend 32).toInt = sextValue n x.toNat := by
  have hpow : 2 ^ n = 2 * 2 ^ (n - 1) := by rw [← Nat.pow_succ', Nat.succ_eq_add_one, Nat.sub_add_cancel h0]
  have hsign : 2 * x.toNat < 2 ^ n ↔ x.toNat < 2 ^ (n - 1) := by omega
  rw [BitVec.toInt_signExtend_of_le hn, BitVec.toInt_eq_toNat_cond, sextValue]
  simp only [hsign, Nat.cast_pow, Nat.cast_ofNat]

/-- imm_U is the word with its low 12 bits cleared (R86). -/
theorem immU_eq_and (w : Word) : immU w = w &&& 0xFFFFF000#32 := by
  have hm : ∀ i < 32, BitVec.getLsbD 0xFFFFF000#32 i = decide (12 ≤ i) := by decide
  apply BitVec.eq_of_getLsbD_eq
  intro i hi
  rw [BitVec.getLsbD_and, hm i hi, immU, BitVec.getLsbD_append]
  by_cases hlow : i < 12
  · simp [hlow]
  · have hhigh : 12 ≤ i := by omega
    have hin : i - 12 < 20 := by omega
    simp [hlow, hhigh, hin]

/-- Settles O3: each immediate is the sign extension of an append of fields, read as numbers part by part. -/
theorem immediatesAreTheFormulas : Obligations.ImmediatesAreTheFormulas := by
  intro w
  have hI : (immI w).toInt = sextValue 12 (bitsOf w 20 12) := by
    rw [immI, toInt_signExtend_eq_sextValue (by decide) (by decide), toNat_field_eq_bitsOf]
  have hS : (immS w).toInt = sextValue 12 (bitsOf w 25 7 * 2 ^ 5 + bitsOf w 7 5) := by
    rw [immS, toInt_signExtend_eq_sextValue (by decide) (by decide)]
    simp only [toNat_append_add, toNat_field_eq_bitsOf]
  have hB : (immB w).toInt =
      sextValue 13 (bitsOf w 31 1 * 2 ^ 12 + bitsOf w 7 1 * 2 ^ 11 + bitsOf w 25 6 * 2 ^ 5 + bitsOf w 8 4 * 2) := by
    rw [immB, toInt_signExtend_eq_sextValue (by decide) (by decide)]
    simp only [toNat_append_add, toNat_field_eq_bitsOf, BitVec.toNat_ofNat]
    congr 1
    omega
  have hJ : (immJ w).toInt =
      sextValue 21 (bitsOf w 31 1 * 2 ^ 20 + bitsOf w 12 8 * 2 ^ 12 + bitsOf w 20 1 * 2 ^ 11 + bitsOf w 21 10 * 2) := by
    rw [immJ, toInt_signExtend_eq_sextValue (by decide) (by decide)]
    simp only [toNat_append_add, toNat_field_eq_bitsOf, BitVec.toNat_ofNat]
    congr 1
    omega
  exact ⟨hI, hS, hB, immU_eq_and w, hJ, immFits12_iff.mp (immFits12_immI w), immFits12_iff.mp (immFits12_immS w),
    immFitsJ_iff.mp (immFitsJ_immJ w)⟩

/-- Settles O4: the range is the format's, and bit 1 of the offset is bit 8 of the word. -/
theorem branchOffsetRange : Obligations.BranchOffsetRange := by
  intro w
  refine ⟨immFitsB_iff.mp (immFitsB_immB w), fun h8 => ?_⟩
  have hlow := toNat_immB_mod w
  have hmod : (immB w).toNat % 4 = 2 := by
    simp only [toNat_field_eq_bitsOf] at hlow
    simp only [bitsOf] at hlow h8
    omega
  refine ⟨hmod, fun pc hpc => ?_⟩
  rw [BitVec.toNat_add]
  omega

/-- A word whose imm_I field is a number has that number's sign extension as imm_I (R82). -/
theorem immI_of_bits {w : Word} {k : Nat} (h : bitsOf w 20 12 = k) : immI w = (BitVec.ofNat 12 k).signExtend 32 := by
  subst h
  rw [immI, ← toNat_field_eq_bitsOf, BitVec.ofNat_toNat, BitVec.setWidth_eq]

/-- Settles O5: the three fields as numbers decide imm_I, which then computes. -/
theorem signExtensionAtTheEdges : Obligations.SignExtensionAtTheEdges := by
  intro w
  refine ⟨fun h => ?_, fun h => immI_of_bits h, fun h => immI_of_bits h⟩
  rw [immI_of_bits h]
  exact ⟨rfl, rfl⟩

/-! ### Words that are no instruction (R97, R98, R100, R255) -/

/-- Settles O9: a decoded word has its row's fixed bits, so a word with no row's is rejected; the step is that of O29. -/
theorem undefinedWordsRaiseInvalidOp : Obligations.UndefinedWordsRaiseInvalidOp := by
  refine ⟨fun w hnone => decode_of_decodeRow_none ?_, by decide, by decide, fun s opcode funct3 funct7 hdef => ?_⟩
  · rw [Option.eq_none_iff_forall_ne_some]
    intro i hi
    obtain ⟨r, hr, -, hmatch⟩ := matches_of_decodeRow hi
    exact hnone r hr hmatch
  · obtain ⟨-, hinvalid⟩ := stepRunsTheDecodedInstruction s hdef
    exact hinvalid opcode funct3 funct7

/-- Settles O10: none of these opcodes is the CORE's, whose bits 1:0 are all 11. -/
theorem systemOpcodesAreInvalid : Obligations.SystemOpcodesAreInvalid := by
  refine ⟨fun w h => decode_of_decodeRow_none (decodeRow_none_of_opcode fun hcore => ?_), by decide, by decide, by decide⟩
  have hcodes : ∀ op ∈ coreOpcodes,
      op.toNat ∉ [0x0F, 0x73, 0x2F, 0x1B, 0x3B, 0x0B, 0x2B, 0x5B, 0x7B] ∧ op.toNat % 4 = 3 := by decide
  obtain ⟨hother, hlow⟩ := hcodes _ hcore
  rw [opcodeOf, toNat_field_eq_bitsOf] at hother hlow
  rcases h with h | h
  · exact hother h
  · simp only [bitsOf] at h hlow
    omega

/-- Settles O1: eleven fixed words, decoded by computing. -/
theorem specWordsDecode : Obligations.SpecWordsDecode := by
  unfold Obligations.SpecWordsDecode
  decide

end Sys2Proof.Proofs
end

section
/-! The statements of 30_encoding.md about pseudo-instructions (R103): LI and LA add the two parts of a value in rd. -/

namespace Sys2Proof.Proofs

open Sys2Proof.Machine Sys2Proof.Claims

/-! ### The two parts of a value -/

/-- The low part and the value agree in their low 12 bits. -/
theorem toNat_loPart_mod (v : Word) : (loPart v).toNat % 2 ^ 12 = v.toNat % 2 ^ 12 := by
  rw [loPart, toNat_signExtend_mod (by decide), toNat_field, pow_zero, Nat.div_one]

/-- Without its low part a value has its low 12 bits clear. -/
theorem toNat_sub_loPart_mod (v : Word) : (v - loPart v).toNat % 4096 = 0 := by
  have hlow := toNat_loPart_mod v
  rw [BitVec.toNat_sub]
  omega

/-- Moving bits 31:12 down and up again restores a value whose low 12 bits are clear. -/
theorem upper_bits_restore {v : Word} (h : v.toNat % 4096 = 0) : ((v >>> 12) &&& 0xFFFFF#32) <<< 12 = v := by
  have hmask : (0xFFFFF#32).toNat = 2 ^ 20 - 1 := rfl
  apply BitVec.eq_of_toNat_eq
  rw [BitVec.toNat_shiftLeft, BitVec.toNat_and, hmask, Nat.and_two_pow_sub_one_eq_mod, BitVec.toNat_ushiftRight,
    Nat.shiftLeft_eq, Nat.shiftRight_eq_div_pow]
  omega

/-- The high part is what the low part leaves. -/
theorem hiPart_eq_sub (v : Word) : hiPart v = v - loPart v := upper_bits_restore (toNat_sub_loPart_mod v)

/-- The two parts add up to the value. -/
theorem hiPart_add_loPart (v : Word) : hiPart v + loPart v = v := by
  rw [hiPart_eq_sub, BitVec.sub_add_cancel]

theorem immFitsU_hiPart (v : Word) : immFitsU (hiPart v) = true := by
  rw [immFitsU_iff, hiPart_eq_sub, toNat_sub_loPart_mod]

theorem immFits12_loPart (v : Word) : immFits12 (loPart v) = true := immFits12_signExtend _

/-! ### Writing a register, once and twice -/

section Writes

variable {s : State} {rd : RegIdx}

/-- A register write writes only its register, and what goes to x0 is no value of it (R22, R24). -/
theorem writesOnly_setReg {u v : Word} (h : rd ≠ 0#5 → u = v) : WritesOnly s (s.setReg rd u) rd v := by
  refine ⟨fun j => ?_, fun _ => rfl, ⟨rfl, rfl, rfl, rfl, rfl⟩, rfl⟩
  rw [State.reg_setReg]
  by_cases hj : j = rd ∧ rd ≠ 0#5
  · rw [if_pos hj, if_pos hj, h hj.2]
  · rw [if_neg hj, if_neg hj]

/-- The later of two writes to a register is the one that stays. -/
theorem setReg_setReg (u v : Word) : (s.setReg rd u).setReg rd v = s.setReg rd v := by
  simp [State.setReg]

/-- ADDI on existing registers writes the sum (R120). -/
theorem exec_addi {rs1 : RegIdx} (h1 : s.hasReg rs1) (hd : s.hasReg rd) (imm : Word) :
    exec (.addi rd rs1 imm) s = .next (s.setReg rd (s.reg rs1 + imm)) :=
  aluImm_next h1 hd

/-- An instruction that only writes `hi` to rd, then ADDI rd, rd, `lo`, leave the sum in rd. -/
theorem execAll_upper_addi {first : Instr} {hi : Word} (lo : Word) (hd : s.hasReg rd)
    (hfirst : exec first s = .next (s.setReg rd hi)) :
    ∃ t, execAll [first, .addi rd rd lo] s = .next t ∧ WritesOnly s t rd (hi + lo) := by
  have hsecond := exec_addi (s := s.setReg rd hi) hd hd lo
  rw [setReg_setReg] at hsecond
  refine ⟨s.setReg rd ((s.setReg rd hi).reg rd + lo), by simp only [execAll, hfirst, hsecond],
    writesOnly_setReg fun h0 => ?_⟩
  rw [State.reg_setReg_same _ _ h0]

/-- LUI on an existing register writes its immediate (R210). -/
theorem exec_lui (hd : s.hasReg rd) (imm : Word) : exec (.lui rd imm) s = .next (s.setReg rd imm) := by
  rw [exec, execLui, regWrite_ok hd, orRaise_ok]

/-- AUIPC on an existing register writes the PC plus its immediate (R211). -/
theorem exec_auipc (hd : s.hasReg rd) (imm : Word) : exec (.auipc rd imm) s = .next (s.setReg rd (s.pc + imm)) := by
  rw [exec, execAuipc, regWrite_ok hd, orRaise_ok, pcTarget]

end Writes

/-- Settles O56: the short form adds the value to x0, the long form adds its two parts. -/
theorem loadImmediateLoadsTheValue : Obligations.LoadImmediateLoadsTheValue := by
  intro s pc rd imm hd
  by_cases hshort : immFits12 imm = true
  · rw [expandPseudo, if_pos hshort]
    refine ⟨by simpa [Instr.wf] using hshort, s.setReg rd (s.reg 0#5 + imm), ?_, writesOnly_setReg fun _ => ?_⟩
    · have haddi := exec_addi (hasReg_zero s) hd imm
      simp only [execAll, BitVec.ofNat_eq_ofNat, haddi]
    · rw [State.reg_zero, BitVec.zero_add]
  · rw [expandPseudo, if_neg hshort]
    refine ⟨by simp [Instr.wf, immFitsU_hiPart, immFits12_loPart], ?_⟩
    have hrun := execAll_upper_addi (loPart imm) hd (exec_lui hd (hiPart imm))
    rwa [hiPart_add_loPart] at hrun

/-- Settles O57: AUIPC and ADDI add the PC and the two parts of the distance to the symbol. -/
theorem loadAddressLoadsTheAddress : Obligations.LoadAddressLoadsTheAddress := by
  intro s rd sym hd
  have hsum : s.pc + hiPart (sym - s.pc) + loPart (sym - s.pc) = sym := by
    rw [BitVec.add_assoc, hiPart_add_loPart, BitVec.add_comm, BitVec.sub_add_cancel]
  have hrun := execAll_upper_addi (loPart (sym - s.pc)) hd (exec_auipc hd (hiPart (sym - s.pc)))
  rwa [hsum] at hrun

end Sys2Proof.Proofs
end

section
/-! The statements of 40_alu_imm.md (R120 to R128): the result values by arithmetic, what an OP-IMM word decodes to, and the
one rule of the register-immediate shape that every instruction of the family is an instance of. -/

namespace Sys2Proof.Proofs

open Sys2Proof.Machine Sys2Proof.Claims

/-! ### Result values by arithmetic (R9, R121, R122, R126 to R128) -/

/-- The signed comparison as a value (R121, R143). -/
theorem setIf_ltS (a b : Word) : setIf (ltS a b) = if a.toInt < b.toInt then 1#32 else 0#32 := by
  simp only [setIf, ltS, decide_eq_true_eq]

/-- The unsigned comparison as a value (R122, R144). -/
theorem setIf_ltU (a b : Word) : setIf (ltU a b) = if a.toNat < b.toNat then 1#32 else 0#32 := by
  simp only [setIf, ltU, decide_eq_true_eq]

/-- A left shift multiplies by a power of two, modulo 2^32 (R126). -/
theorem shiftLeft_eq_ofNat_mul (a : Word) (n : Nat) : a <<< n = BitVec.ofNat 32 (a.toNat * 2 ^ n) := by
  apply BitVec.eq_of_toNat_eq
  rw [BitVec.toNat_shiftLeft, Nat.shiftLeft_eq, BitVec.toNat_ofNat]

/-- A logical right shift divides by a power of two, rounding down (R127). -/
theorem ushiftRight_eq_ofNat_div (a : Word) (n : Nat) : a >>> n = BitVec.ofNat 32 (a.toNat / 2 ^ n) := by
  have hlt : a.toNat / 2 ^ n < 2 ^ 32 := (Nat.div_le_self ..).trans_lt a.isLt
  apply BitVec.eq_of_toNat_eq
  rw [BitVec.toNat_ushiftRight, Nat.shiftRight_eq_div_pow, BitVec.toNat_ofNat, Nat.mod_eq_of_lt hlt]

/-- An arithmetic right shift divides the signed value by a power of two, rounding down (R128). -/
theorem sshiftRight_eq_ofInt_div (a : Word) (n : Nat) : a.sshiftRight n = BitVec.ofInt 32 (a.toInt / 2 ^ n) := by
  rw [BitVec.sshiftRight, Int.shiftRight_eq_div_pow, Nat.cast_pow, Nat.cast_ofNat]

/-! ### Words of the opcode OP-IMM (R91, R92, R97) -/

section Decoding

variable {w : Word} {i : Instr}

/-- A word of the opcode whose funct3 and funct7 name a row decodes to the row's instruction. -/
theorem decode_opImm_ok (hop : opcodeOf w = 0x13#7)
    (hrow : opImmRow (funct3Of w) (funct7Of w) (rdOf w) (rs1Of w) (immI w) (shamtOf w) = some i) : decode w = .ok i :=
  decode_eq_ok_iff.mpr ((decodeRow_opImm hop).trans hrow)

/-- A word of the opcode whose funct3 and funct7 name no row is InvalidOp with its own fields. -/
theorem decode_opImm_invalid (hop : opcodeOf w = 0x13#7)
    (hrow : opImmRow (funct3Of w) (funct7Of w) (rdOf w) (rs1Of w) (immI w) (shamtOf w) = none) :
    decode w = .invalidOp 0x13#7 (funct3Of w) (funct7Of w) := by
  rw [decode_of_decodeRow_none ((decodeRow_opImm hop).trans hrow), hop]

end Decoding

/-! ### The rule of the shape (R26, R257) -/

/-- An instruction of the register-immediate shape: rd takes the value, or the first missing one of rs1 and rd is raised. -/
theorem rule_of_exec_eq_aluImm {i : Instr} {s : State} {rd rs1 : RegIdx} {f : Word → Word}
    (hexec : exec i s = aluImm f rd rs1 s) :
    (s.hasReg rs1 → s.hasReg rd → ∃ t, exec i s = .next t ∧ WritesOnly s t rd (f (s.reg rs1))) ∧
    (¬ s.hasReg rs1 → Raises i s (.invalidRegister rs1)) ∧
    (s.hasReg rs1 → ¬ s.hasReg rd → Raises i s (.invalidRegister rd)) :=
  ⟨fun h1 hd => ⟨_, hexec.trans (aluImm_next h1 hd), writesOnly_setReg fun _ => rfl⟩,
    fun h1 => hexec.trans (aluImm_raises_rs1 h1), fun h1 hd => hexec.trans (aluImm_raises_rd h1 hd)⟩

/-- A row without a funct7 check: its funct3 alone names the instruction, and the instruction has the shape. -/
theorem aluImmRule_of_row {mk : RegIdx → RegIdx → Word → Instr} {p : Word} {f : Word → Word → Word}
    (hp : p &&& 0x0000707F#32 = p) (hop : opcodeOf p = 0x13#7)
    (hrow : ∀ f7 rd rs1 imm shamt, opImmRow (funct3Of p) f7 rd rs1 imm shamt = some (mk rd rs1 imm))
    (hexec : ∀ s rd rs1 imm, exec (mk rd rs1 imm) s = aluImm (fun a => f a imm) rd rs1 s) : AluImmRule mk p f := by
  refine ⟨fun w h => ?_, fun s rd rs1 imm => rule_of_exec_eq_aluImm (hexec s rd rs1 imm)⟩
  obtain ⟨hopw, hf3⟩ := (and_funct3_mask hp).mp h
  exact decode_opImm_ok (hopw.trans hop) (by rw [hf3, hrow])

/-- A row of a shift: funct3 and funct7 name the instruction, and the instruction has the shape. -/
theorem shiftImmRule_of_row {mk : RegIdx → RegIdx → BitVec 5 → Instr} {p : Word} {f : Word → Nat → Word}
    (hp : p &&& 0xFE00707F#32 = p) (hop : opcodeOf p = 0x13#7)
    (hrow : ∀ rd rs1 imm shamt, opImmRow (funct3Of p) (funct7Of p) rd rs1 imm shamt = some (mk rd rs1 shamt))
    (hexec : ∀ s rd rs1 shamt, exec (mk rd rs1 shamt) s = aluImm (fun a => f a shamt.toNat) rd rs1 s) :
    ShiftImmRule mk p f := by
  refine ⟨fun w h => ?_, fun s rd rs1 shamt => rule_of_exec_eq_aluImm (hexec s rd rs1 shamt)⟩
  obtain ⟨hopw, hf3, hf7⟩ := (and_funct7_mask hp).mp h
  exact decode_opImm_ok (hopw.trans hop) (by rw [hf3, hf7, hrow, shamtOf, rs2Of])

/-! ### The statements -/

/-- Settles O16: each of the six is a row of the shape; the comparisons are read as numbers. -/
theorem immediateAluRules : Obligations.ImmediateAluRules := by
  refine ⟨?addi, ?slti, ?sltiu, ?xori, ?ori, ?andi⟩
  case addi | xori | ori | andi =>
    exact aluImmRule_of_row (by decide) (by decide) (fun _ _ _ _ _ => rfl) fun _ _ _ _ => rfl
  case slti =>
    refine aluImmRule_of_row (by decide) (by decide) (fun _ _ _ _ _ => rfl) fun s rd rs1 imm => ?_
    simp only [exec, execSlti, setIf_ltS]
  case sltiu =>
    refine aluImmRule_of_row (by decide) (by decide) (fun _ _ _ _ _ => rfl) fun s rd rs1 imm => ?_
    simp only [exec, execSltiu, setIf_ltU]

/-- Settles O17: each of the three is a row of the shape, its shift read as arithmetic; no other funct7 names a row. -/
theorem shiftImmediateRules : Obligations.ShiftImmediateRules := by
  refine ⟨?slli, ?srli, ?srai, fun w => ⟨fun hop hf3 h0 => ?_, fun hop hf3 h0 h20 => ?_⟩⟩
  case slli =>
    refine shiftImmRule_of_row (by decide) (by decide) (fun _ _ _ _ => rfl) fun s rd rs1 shamt => ?_
    simp only [exec, execSlli, shiftLeft_eq_ofNat_mul]
  case srli =>
    refine shiftImmRule_of_row (by decide) (by decide) (fun _ _ _ _ => rfl) fun s rd rs1 shamt => ?_
    simp only [exec, execSrli, ushiftRight_eq_ofNat_div]
  case srai =>
    refine shiftImmRule_of_row (by decide) (by decide) (fun _ _ _ _ => rfl) fun s rd rs1 shamt => ?_
    simp only [exec, execSrai, sshiftRight_eq_ofInt_div]
  · rw [decode_opImm_invalid hop (by simp [opImmRow, hf3, h0]), hf3]
  · rw [decode_opImm_invalid hop (by simp [opImmRow, hf3, h0, h20]), hf3]

end Sys2Proof.Proofs
end

section
/-! The statements of 41_alu_reg.md (R140 to R149): what an OP word decodes to, and the one rule of the register-register
shape that every instruction of the family is an instance of. The result values are those of 40_alu_imm.md. -/

namespace Sys2Proof.Proofs

open Sys2Proof.Machine Sys2Proof.Claims

/-- The shift amount taken from a register is its value modulo 32: bits 31:5 are ignored (R88, R142, R146, R147). -/
theorem toNat_shiftAmount (v : Word) : (shiftAmount v).toNat = v.toNat % 32 := by
  rw [shiftAmount, toNat_field, pow_zero, Nat.div_one]
  rfl

/-- A word of the opcode OP whose funct3 and funct7 name a row decodes to the row's instruction (R92). -/
theorem decode_op_ok {w : Word} {i : Instr} (hop : opcodeOf w = 0x33#7)
    (hrow : opRow (funct3Of w) (funct7Of w) (rdOf w) (rs1Of w) (rs2Of w) = some i) : decode w = .ok i :=
  decode_eq_ok_iff.mpr ((decodeRow_op hop).trans hrow)

/-- A row of OP: funct3 and funct7 name the instruction, and the instruction has the register-register shape, so rd takes
the value, or the first missing one of rs1, rs2 and rd is raised (R26, R257). -/
theorem aluRegRule_of_row {mk : RegIdx → RegIdx → RegIdx → Instr} {p : Word} {f : Word → Word → Word}
    (hp : p &&& 0xFE00707F#32 = p) (hop : opcodeOf p = 0x33#7)
    (hrow : ∀ rd rs1 rs2, opRow (funct3Of p) (funct7Of p) rd rs1 rs2 = some (mk rd rs1 rs2))
    (hexec : ∀ s rd rs1 rs2, exec (mk rd rs1 rs2) s = aluReg f rd rs1 rs2 s) : AluRegRule mk p f := by
  refine ⟨fun w h => ?word, fun s rd rs1 rs2 => ⟨fun h1 h2 hd => ?next, fun h1 => ?rs1, fun h1 h2 => ?rs2,
    fun h1 h2 hd => ?rd⟩⟩
  case word =>
    obtain ⟨hopw, hf3, hf7⟩ := (and_funct7_mask hp).mp h
    exact decode_op_ok (hopw.trans hop) (by rw [hf3, hf7, hrow])
  case next => exact ⟨_, (hexec ..).trans (aluReg_next h1 h2 hd), writesOnly_setReg fun _ => rfl⟩
  case rs1 => exact (hexec ..).trans (aluReg_raises_rs1 h1)
  case rs2 => exact (hexec ..).trans (aluReg_raises_rs2 h1 h2)
  case rd => exact (hexec ..).trans (aluReg_raises_rd h1 h2 hd)

/-- Settles O18: each of the ten is a row of the shape; comparisons and shifts are read as arithmetic. -/
theorem registerAluRules : Obligations.RegisterAluRules := by
  refine ⟨?add, ?sub, ?sll, ?slt, ?sltu, ?xor, ?srl, ?sra, ?or, ?and⟩
  case add | sub | xor | or | and =>
    exact aluRegRule_of_row (by decide) (by decide) (fun _ _ _ => rfl) fun _ _ _ _ => rfl
  case sll =>
    refine aluRegRule_of_row (by decide) (by decide) (fun _ _ _ => rfl) fun s rd rs1 rs2 => ?_
    simp only [exec, execSll, shiftLeft_eq_ofNat_mul, toNat_shiftAmount]
  case slt =>
    refine aluRegRule_of_row (by decide) (by decide) (fun _ _ _ => rfl) fun s rd rs1 rs2 => ?_
    simp only [exec, execSlt, setIf_ltS]
  case sltu =>
    refine aluRegRule_of_row (by decide) (by decide) (fun _ _ _ => rfl) fun s rd rs1 rs2 => ?_
    simp only [exec, execSltu, setIf_ltU]
  case srl =>
    refine aluRegRule_of_row (by decide) (by decide) (fun _ _ _ => rfl) fun s rd rs1 rs2 => ?_
    simp only [exec, execSrl, ushiftRight_eq_ofNat_div, toNat_shiftAmount]
  case sra =>
    refine aluRegRule_of_row (by decide) (by decide) (fun _ _ _ => rfl) fun s rd rs1 rs2 => ?_
    simp only [exec, execSra, sshiftRight_eq_ofInt_div, toNat_shiftAmount]

end Sys2Proof.Proofs
end

section
/-! The statements of 42_muldiv.md (R160 to R167): the result values of the model as products of sign- or zero-extended
words and as truncating quotients and remainders, and the laws that tie the two halves, and quotient and remainder,
together. Every instruction of the family has the register-register shape of 41_alu_reg.md. -/

namespace Sys2Proof.Proofs

open Sys2Proof.Machine Sys2Proof.Claims

/-! ### Words as truncated integers (R7) -/

/-- A word is the truncation of its own signed value. -/
theorem trunc32_toInt (a : Word) : trunc32 a.toInt = a := BitVec.ofInt_toInt

/-- A word is the truncation of its own unsigned value. -/
theorem trunc32_toNat (a : Word) : trunc32 a.toNat = a := by
  rw [trunc32, BitVec.ofInt_natCast, BitVec.ofNat_toNat, BitVec.setWidth_eq]

/-- Truncation keeps products. -/
theorem trunc32_mul (m n : Int) : trunc32 (m * n) = trunc32 m * trunc32 n := BitVec.ofInt_mul m n

/-- Truncation keeps sums. -/
theorem trunc32_add (m n : Int) : trunc32 (m + n) = trunc32 m + trunc32 n := BitVec.ofInt_add m n

/-- Zero extension keeps the unsigned value, as sign extension keeps the signed one by its definition. -/
theorem setWidth_64_eq_ofInt (a : Word) : a.setWidth 64 = BitVec.ofInt 64 a.toNat := by
  rw [BitVec.ofInt_natCast, BitVec.ofNat_toNat]

/-- Bits 63:32 of an integer in 64-bit two's complement are its quotient by 2^32 rounded down (R161). -/
theorem extractLsb'_ofInt_high (p : Int) : (BitVec.ofInt 64 p).extractLsb' 32 32 = trunc32 (p / 2 ^ 32) := by
  apply BitVec.eq_of_toNat_eq
  simp only [trunc32, BitVec.extractLsb'_toNat, BitVec.toNat_ofInt, Nat.shiftRight_eq_div_pow]
  omega

/-! ### The multiplications (R160 to R163) -/

/-- The low word of the product of the unsigned readings is the product of the words. -/
theorem mulLow_eq_mul (a b : Word) : mulLow a b = a * b := by
  rw [mulLow, trunc32_mul, trunc32_toNat, trunc32_toNat]

/-- The high word of the signed product, read off a 64-bit product. -/
theorem mulHighSS_eq_extractLsb' (a b : Word) :
    mulHighSS a b = (a.signExtend 64 * b.signExtend 64).extractLsb' 32 32 := by
  rw [mulHighSS, BitVec.signExtend, BitVec.signExtend, ← BitVec.ofInt_mul, extractLsb'_ofInt_high]

/-- The high word of the signed by unsigned product, read off a 64-bit product. -/
theorem mulHighSU_eq_extractLsb' (a b : Word) :
    mulHighSU a b = (a.signExtend 64 * b.setWidth 64).extractLsb' 32 32 := by
  rw [mulHighSU, BitVec.signExtend, setWidth_64_eq_ofInt, ← BitVec.ofInt_mul, extractLsb'_ofInt_high]

/-- The high word of the unsigned product, read off a 64-bit product. -/
theorem mulHighUU_eq_extractLsb' (a b : Word) :
    mulHighUU a b = (a.setWidth 64 * b.setWidth 64).extractLsb' 32 32 := by
  rw [setWidth_64_eq_ofInt, setWidth_64_eq_ofInt, ← BitVec.ofInt_mul, extractLsb'_ofInt_high]
  rfl

/-- An integer of 64-bit two's complement is its high word, read signed, above its low word. -/
theorem toInt_high_mul_add_low {p : Int} (hlo : -2 ^ 63 ≤ p) (hhi : p < 2 ^ 63) :
    (trunc32 (p / 2 ^ 32)).toInt * 2 ^ 32 + (trunc32 p).toNat = p := by
  have hhigh : (trunc32 (p / 2 ^ 32)).toInt = p / 2 ^ 32 := by
    rw [trunc32, BitVec.toInt_ofInt, Int.bmod_eq_of_le (by omega) (by omega)]
  rw [hhigh, trunc32, BitVec.toNat_ofInt]
  omega

/-- A number below 2^64 is its high word, read unsigned, above its low word. -/
theorem toNat_high_mul_add_low {p : Nat} (hp : p < 2 ^ 64) :
    (trunc32 (p / 2 ^ 32 : Nat)).toNat * 2 ^ 32 + (trunc32 p).toNat = p := by
  simp only [trunc32, BitVec.ofInt_natCast, BitVec.toNat_ofNat]
  omega

/-- The signed high word and the low word make the signed product. -/
theorem mulHighSS_mul_add_mulLow (a b : Word) :
    (mulHighSS a b).toInt * 2 ^ 32 + (mulLow a b).toNat = a.toInt * b.toInt := by
  have hlow : mulLow a b = trunc32 (a.toInt * b.toInt) := by
    rw [mulLow_eq_mul, trunc32_mul, trunc32_toInt, trunc32_toInt]
  have hlo : -2 ^ 62 ≤ a.toInt * b.toInt := BitVec.le_toInt_mul_toInt
  have hhi : a.toInt * b.toInt ≤ 2 ^ 62 := BitVec.toInt_mul_toInt_le
  rw [hlow]
  exact toInt_high_mul_add_low (by omega) (by omega)

/-- The signed by unsigned high word and the low word make the signed by unsigned product. -/
theorem mulHighSU_mul_add_mulLow (a b : Word) :
    (mulHighSU a b).toInt * 2 ^ 32 + (mulLow a b).toNat = a.toInt * b.toNat := by
  have hlow : mulLow a b = trunc32 (a.toInt * b.toNat) := by
    rw [mulLow_eq_mul, trunc32_mul, trunc32_toInt, trunc32_toNat]
  have halo : -2 ^ 31 ≤ a.toInt := a.le_toInt
  have hahi : a.toInt < 2 ^ 31 := BitVec.toInt_lt
  have hb : b.toNat < 2 ^ 32 := b.isLt
  rw [hlow]
  exact toInt_high_mul_add_low (by nlinarith) (by nlinarith)

/-- The unsigned high word and the low word make the unsigned product. -/
theorem mulHighUU_mul_add_mulLow (a b : Word) :
    (mulHighUU a b).toNat * 2 ^ 32 + (mulLow a b).toNat = a.toNat * b.toNat := by
  have hlt : a.toNat * b.toNat < 2 ^ 32 * 2 ^ 32 := Nat.mul_lt_mul'' a.isLt b.isLt
  exact toNat_high_mul_add_low (by omega)

/-! ### The divisions (R9, R164 to R167) -/

/-- The signed reading of a word is 0 for the word 0 alone. -/
theorem toInt_eq_zero_iff (b : Word) : b.toInt = 0 ↔ b = 0#32 := BitVec.toInt_inj (y := 0#32)

/-- The operands of the signed overflow, as words. -/
theorem signedOverflow_iff (a b : Word) :
    (a.toInt = -2 ^ 31 ∧ b.toInt = -1) ↔ (a = 0x80000000#32 ∧ b = 0xFFFFFFFF#32) :=
  and_congr (BitVec.toInt_inj (y := 0x80000000#32)) (BitVec.toInt_inj (y := 0xFFFFFFFF#32))

/-- rem_trunc is the remainder of truncating division. -/
theorem remTrunc_eq_tmod (m n : Int) : remTrunc m n = m.tmod n := (Int.tmod_def m n).symm

/-- The quotient of DIV by a divisor that is not 0: the overflow is the truncated quotient too, 2^31 modulo 2^32. -/
theorem divSigned_of_ne_zero {a b : Word} (hb : b ≠ 0#32) : divSigned a b = trunc32 (a.toInt.tdiv b.toInt) := by
  rw [divSigned, if_neg (mt (toInt_eq_zero_iff b).mp hb)]
  split
  next hoverflow =>
    obtain ⟨ha, hneg⟩ := hoverflow
    rw [ha, hneg]
    rfl
  next => rfl

/-- The remainder of REM is that of truncating division for every divisor: by 0 it is the dividend, at the overflow 0. -/
theorem remSigned_eq_trunc32_tmod (a b : Word) : remSigned a b = trunc32 (a.toInt.tmod b.toInt) := by
  unfold remSigned
  split
  next hzero => rw [hzero, Int.tmod_zero, trunc32_toInt]
  next =>
    split
    next hoverflow =>
      obtain ⟨ha, hneg⟩ := hoverflow
      rw [ha, hneg]
      rfl
    next => rw [remTrunc_eq_tmod]

/-- The signed remainder fits in a word. -/
theorem toInt_remSigned (a b : Word) : (remSigned a b).toInt = a.toInt.tmod b.toInt := by
  rw [remSigned_eq_trunc32_tmod, ← BitVec.toInt_srem, trunc32_toInt]

/-- The quotient of DIVU by a divisor that is not 0. -/
theorem divUnsigned_of_ne_zero {a b : Word} (hb : b ≠ 0#32) : divUnsigned a b = trunc32 (a.toNat / b.toNat : Nat) :=
  if_neg hb

/-- The remainder of REMU is that of the numbers for every divisor: by 0 it is the dividend. -/
theorem remUnsigned_eq_trunc32_mod (a b : Word) : remUnsigned a b = trunc32 (a.toNat % b.toNat : Nat) := by
  unfold remUnsigned
  split
  next hzero => rw [hzero, BitVec.toNat_zero, Nat.mod_zero, trunc32_toNat]
  next => rfl

/-- The unsigned remainder fits in a word. -/
theorem toNat_remUnsigned (a b : Word) : (remUnsigned a b).toNat = a.toNat % b.toNat := by
  rw [remUnsigned_eq_trunc32_mod, ← BitVec.toNat_umod, trunc32_toNat]

/-- The division law for the signed pair: by 0 the product vanishes and the remainder is the dividend. -/
theorem divSigned_mul_add_remSigned (a b : Word) : divSigned a b * b + remSigned a b = a := by
  by_cases hb : b = 0#32
  · rw [remSigned_eq_trunc32_tmod, hb, BitVec.toInt_zero, Int.tmod_zero, trunc32_toInt, BitVec.mul_zero, BitVec.zero_add]
  · calc divSigned a b * b + remSigned a b
      _ = trunc32 (a.toInt.tdiv b.toInt) * trunc32 b.toInt + trunc32 (a.toInt.tmod b.toInt) := by
        rw [divSigned_of_ne_zero hb, remSigned_eq_trunc32_tmod, trunc32_toInt]
      _ = trunc32 a.toInt := by rw [← trunc32_mul, ← trunc32_add, Int.tdiv_mul_add_tmod]
      _ = a := trunc32_toInt a

/-- The division law for the unsigned pair. -/
theorem divUnsigned_mul_add_remUnsigned (a b : Word) : divUnsigned a b * b + remUnsigned a b = a := by
  by_cases hb : b = 0#32
  · rw [remUnsigned_eq_trunc32_mod, hb, BitVec.toNat_zero, Nat.mod_zero, trunc32_toNat, BitVec.mul_zero, BitVec.zero_add]
  · calc divUnsigned a b * b + remUnsigned a b
      _ = trunc32 (a.toNat / b.toNat : Nat) * trunc32 b.toNat + trunc32 (a.toNat % b.toNat : Nat) := by
        rw [divUnsigned_of_ne_zero hb, remUnsigned_eq_trunc32_mod, trunc32_toNat]
      _ = trunc32 a.toNat := by
        rw [← trunc32_mul, ← trunc32_add, ← Nat.cast_mul, ← Nat.cast_add, Nat.div_add_mod']
      _ = a := trunc32_toNat a

/-- A truncating remainder that is not 0 has the dividend's sign (R166). -/
theorem tmod_eq_zero_or_neg_iff (m n : Int) : m.tmod n = 0 ∨ (m.tmod n < 0 ↔ m < 0) := by
  have hsign := Int.sign_tmod m n
  split at hsign
  next => exact .inl (Int.sign_eq_zero_iff_zero.mp hsign)
  next => exact .inr (by rw [← Int.sign_neg_iff, hsign, Int.sign_neg_iff])

/-! ### The statements -/

/-- Settles O19: each of the four is a row of the register-register shape; each high word is read off its 64-bit product. -/
theorem multiplyRules : Obligations.MultiplyRules := by
  refine ⟨?mul, ?mulh, ?mulhsu, ?mulhu⟩
  case mul =>
    refine aluRegRule_of_row (by decide) (by decide) (fun _ _ _ => rfl) fun s rd rs1 rs2 => ?_
    simp only [exec, execMul, ← mulLow_eq_mul]
  case mulh =>
    refine aluRegRule_of_row (by decide) (by decide) (fun _ _ _ => rfl) fun s rd rs1 rs2 => ?_
    simp only [exec, execMulh, ← mulHighSS_eq_extractLsb']
  case mulhsu =>
    refine aluRegRule_of_row (by decide) (by decide) (fun _ _ _ => rfl) fun s rd rs1 rs2 => ?_
    simp only [exec, execMulhsu, ← mulHighSU_eq_extractLsb']
  case mulhu =>
    refine aluRegRule_of_row (by decide) (by decide) (fun _ _ _ => rfl) fun s rd rs1 rs2 => ?_
    simp only [exec, execMulhu, ← mulHighUU_eq_extractLsb']

/-- Settles O20: each of the four is a row of the register-register shape; the model's tests of the signed values are tests
of the words. -/
theorem divideRules : Obligations.DivideRules := by
  refine ⟨?div, ?divu, ?rem, ?remu⟩
  case div =>
    refine aluRegRule_of_row (by decide) (by decide) (fun _ _ _ => rfl) fun s rd rs1 rs2 => ?_
    simp only [← toInt_eq_zero_iff, ← signedOverflow_iff]
    rfl
  case divu =>
    exact aluRegRule_of_row (by decide) (by decide) (fun _ _ _ => rfl) fun _ _ _ _ => rfl
  case rem =>
    refine aluRegRule_of_row (by decide) (by decide) (fun _ _ _ => rfl) fun s rd rs1 rs2 => ?_
    simp only [← toInt_eq_zero_iff, ← signedOverflow_iff, ← remTrunc_eq_tmod]
    rfl
  case remu =>
    exact aluRegRule_of_row (by decide) (by decide) (fun _ _ _ => rfl) fun _ _ _ _ => rfl

/-- Settles O26: the four results are read from rd, and are the truncating quotient and remainder. -/
theorem divisionIdentity : Obligations.DivisionIdentity := by
  intro s rd rs1 rs2 h1 h2 hd h0
  refine ⟨_, _, _, _, aluReg_next h1 h2 hd, aluReg_next h1 h2 hd, aluReg_next h1 h2 hd, aluReg_next h1 h2 hd, ?_⟩
  simp only [State.reg_setReg_same s _ h0, toInt_remSigned, toNat_remUnsigned]
  refine ⟨divSigned_mul_add_remSigned .., divUnsigned_mul_add_remUnsigned .., fun hb => ⟨?magnitude,
    tmod_eq_zero_or_neg_iff .., ?below⟩⟩
  case magnitude =>
    rw [Int.natAbs_tmod]
    exact Nat.mod_lt _ (Int.natAbs_pos.mpr (mt (toInt_eq_zero_iff _).mp hb))
  case below => exact Nat.mod_lt _ (BitVec.toNat_pos_of_ne_zero hb)

/-- Settles O27: the results are read from rd, and each high word with the low word makes its product. -/
theorem multiplyHalvesMakeTheProduct : Obligations.MultiplyHalvesMakeTheProduct := by
  intro s rd rs1 rs2 h1 h2 hd h0
  refine ⟨_, _, _, _, aluReg_next h1 h2 hd, aluReg_next h1 h2 hd, aluReg_next h1 h2 hd, aluReg_next h1 h2 hd, ?_⟩
  simp only [State.reg_setReg_same s _ h0]
  exact ⟨mulHighSS_mul_add_mulLow .., mulHighSU_mul_add_mulLow .., mulHighUU_mul_add_mulLow ..⟩

end Sys2Proof.Proofs
end

section
/-! The statements of 43_loads.md (R180 to R184): what a LOAD word decodes to, and the one rule of the load shape that every
instruction of the family is an instance of. The loaded values are those of the load forms in 20_memory.md. -/

namespace Sys2Proof.Proofs

open Sys2Proof.Machine Sys2Proof.Claims

/-- A word of the opcode LOAD whose funct3 names a row decodes to the row's instruction (R92). -/
theorem decode_load_ok {w : Word} {i : Instr} (hop : opcodeOf w = 0x03#7)
    (hrow : loadRow (funct3Of w) (rdOf w) (rs1Of w) (immI w) = some i) : decode w = .ok i :=
  decode_eq_ok_iff.mpr ((decodeRow_load hop).trans hrow)

/-- A load form that is a row of LOAD: funct3 names the instruction, and the instruction has the load shape, so rd takes the
value of the bytes, or the first of a missing rs1, a bad access and a missing rd is raised (R26, R257). -/
theorem loadRule_of_row {mk : RegIdx → RegIdx → Word → Instr} {p : Word} (n : Width) {ext : Word → Word}
    {value : (Nat → Byte) → Word} (hp : p &&& 0x0000707F#32 = p) (hop : opcodeOf p = 0x03#7)
    (hrow : ∀ rd rs1 imm, loadRow (funct3Of p) rd rs1 imm = some (mk rd rs1 imm))
    (hform : (mk, n.bytes, value) ∈ loadForms)
    (hexec : ∀ s rd rs1 imm, exec (mk rd rs1 imm) s = load n ext rd rs1 imm s) : LoadRule mk p n.bytes value := by
  refine ⟨fun w h => ?word, fun s rd rs1 imm => ⟨fun h1 hok hd => ?next, fun h1 => ?rs1, fun h1 hbad => ?memory,
    fun h1 hok hd => ?rd⟩⟩
  case word =>
    obtain ⟨hopw, hf3⟩ := (and_funct3_mask hp).mp h
    exact decode_load_ok (hopw.trans hop) (by rw [hf3, hrow])
  case next => exact ⟨_, exec_loadForm hform h1 hd hok, writesOnly_setReg fun _ => rfl⟩
  case rs1 => exact (hexec ..).trans (load_raises_rs1 h1)
  case memory => exact (hexec ..).trans (load_raises_memory h1 hbad)
  case rd => exact (hexec ..).trans (load_raises_rd h1 hok hd)

/-- Settles O21: each of the five is a row of LOAD and a load form of its width. -/
theorem loadRules : Obligations.LoadRules := by
  refine ⟨?lb, ?lh, ?lw, ?lbu, ?lhu⟩
  case lb | lbu =>
    exact loadRule_of_row .byte (by decide) (by decide) (fun _ _ _ => rfl) (by simp [loadForms, Width.bytes])
      fun _ _ _ _ => rfl
  case lh | lhu =>
    exact loadRule_of_row .half (by decide) (by decide) (fun _ _ _ => rfl) (by simp [loadForms, Width.bytes])
      fun _ _ _ _ => rfl
  case lw =>
    exact loadRule_of_row .word (by decide) (by decide) (fun _ _ _ => rfl) (by simp [loadForms, Width.bytes])
      fun _ _ _ _ => rfl

end Sys2Proof.Proofs
end

section
/-! The statements of 44_stores.md (R195 to R197): what a STORE word decodes to, the frame of a completed store, and the one
rule of the store shape that every instruction of the family is an instance of. -/

namespace Sys2Proof.Proofs

open Sys2Proof.Machine Sys2Proof.Claims

/-- A word of the opcode STORE whose funct3 names a row decodes to the row's instruction (R92). -/
theorem decode_store_ok {w : Word} {i : Instr} (hop : opcodeOf w = 0x23#7)
    (hrow : storeRow (funct3Of w) (rs1Of w) (rs2Of w) (immS w) = some i) : decode w = .ok i :=
  decode_eq_ok_iff.mpr ((decodeRow_store hop).trans hrow)

/-- A store into canonical memory changes its bytes and nothing else (R54). -/
theorem storesOnly_storeAt {s : State} (hwf : Memory.wf s.mem) (a : Word) (n : Width) (v : Word) :
    StoresOnly s (s.storeAt a n v) a.toNat n.bytes v :=
  ⟨read_writeLE hwf _ _ _, State.reg_storeAt s a n v, ⟨rfl, rfl, rfl, rfl, rfl⟩, rfl⟩

/-- A store form that is a row of STORE: funct3 names the instruction, and the instruction has the store shape, so its bytes
are stored, or the first of a missing rs1, a missing rs2 and a bad access is raised (R26, R257). -/
theorem storeRule_of_row {mk : RegIdx → RegIdx → Word → Instr} {p : Word} (n : Width) (hp : p &&& 0x0000707F#32 = p)
    (hop : opcodeOf p = 0x23#7) (hrow : ∀ rs1 rs2 imm, storeRow (funct3Of p) rs1 rs2 imm = some (mk rs1 rs2 imm))
    (hexec : ∀ s rs1 rs2 imm, exec (mk rs1 rs2 imm) s = store n rs1 rs2 imm s) : StoreRule mk p n.bytes := by
  refine ⟨fun w h => ?word, fun s rs1 rs2 imm hwf => ⟨fun h1 h2 hok => ?next, fun h1 => ?rs1, fun h1 h2 => ?rs2,
    fun h1 h2 hbad => ?memory⟩⟩
  case word =>
    obtain ⟨hopw, hf3⟩ := (and_funct3_mask hp).mp h
    exact decode_store_ok (hopw.trans hop) (by rw [hf3, hrow])
  case next => exact ⟨_, (hexec ..).trans (store_next h1 h2 hok), storesOnly_storeAt hwf ..⟩
  case rs1 => exact (hexec ..).trans (store_raises_rs1 h1)
  case rs2 => exact (hexec ..).trans (store_raises_rs2 h1 h2)
  case memory => exact (hexec ..).trans (store_raises_memory h1 h2 hbad)

/-- Settles O22: each of the three is a row of STORE with the store shape at its width. -/
theorem storeRules : Obligations.StoreRules := by
  refine ⟨?sb, ?sh, ?sw⟩
  case sb => exact storeRule_of_row .byte (by decide) (by decide) (fun _ _ _ => rfl) fun _ _ _ _ => rfl
  case sh => exact storeRule_of_row .half (by decide) (by decide) (fun _ _ _ => rfl) fun _ _ _ _ => rfl
  case sw => exact storeRule_of_row .word (by decide) (by decide) (fun _ _ _ => rfl) fun _ _ _ _ => rfl

end Sys2Proof.Proofs
end

section
/-! The statements of 45_upper_imm.md (R210, R211): the one rule of the shape that only writes rd, which LUI and AUIPC are
instances of. -/

namespace Sys2Proof.Proofs

open Sys2Proof.Machine Sys2Proof.Claims

/-- A row with its own opcode whose instruction only writes rd: the opcode names the instruction, and rd takes the value, or
a missing rd is raised (R26, R257). -/
theorem upperRule_of_row {mk : RegIdx → Word → Instr} {p : Word} {value : State → Word → Word}
    (hp : p &&& 0x0000007F#32 = p)
    (hrow : ∀ w, opcodeOf w = opcodeOf p → decodeRow w = some (mk (rdOf w) (immU w)))
    (hexec : ∀ s rd imm, exec (mk rd imm) s = orRaise s (regWrite s rd (value s imm)) .next) :
    UpperRule mk p value := by
  refine ⟨fun w h => ?word, fun s rd imm => ⟨fun hd => ?next, fun hd => ?rd⟩⟩
  case word => exact decode_eq_ok_iff.mpr (hrow w ((and_opcode_mask hp).mp h))
  case next =>
    refine ⟨s.setReg rd (value s imm), ?_, writesOnly_setReg fun _ => rfl⟩
    rw [hexec, regWrite_ok hd, orRaise_ok]
  case rd => rw [Raises, hexec, regWrite_error hd, orRaise_error, State.raised]

/-- Settles O23: LUI and AUIPC are rows of the shape; AUIPC adds the PC of its own step. -/
theorem upperImmediateRules : Obligations.UpperImmediateRules := by
  refine ⟨?lui, ?auipc⟩
  case lui => exact upperRule_of_row (by decide) (fun _ hop => decodeRow_lui hop) fun _ _ _ => rfl
  case auipc => exact upperRule_of_row (by decide) (fun _ hop => decodeRow_auipc hop) fun _ _ _ => rfl

end Sys2Proof.Proofs
end

section
/-! The statements of 46_branches.md (R215 to R220): what a BRANCH word decodes to, the frame of a transfer, and the one rule
of the branch shape that every instruction of the family is an instance of. -/

namespace Sys2Proof.Proofs

open Sys2Proof.Machine Sys2Proof.Claims

/-- A word of the opcode BRANCH whose funct3 names a row decodes to the row's instruction (R92). -/
theorem decode_branch_ok {w : Word} {i : Instr} (hop : opcodeOf w = 0x63#7)
    (hrow : branchRow (funct3Of w) (rs1Of w) (rs2Of w) (immB w) = some i) : decode w = .ok i :=
  decode_eq_ok_iff.mpr ((decodeRow_branch hop).trans hrow)

/-- A transfer sets Taken and NextPC and nothing else (R28). -/
theorem transfersOnly_transferTo (s : State) (p : Word) : TransfersOnly s (s.transferTo p) p :=
  ⟨rfl, State.reg_transferTo s p, fun _ => rfl, ⟨rfl, rfl, rfl, rfl, rfl⟩⟩

/-- A row of BRANCH: funct3 names the instruction, and the instruction has the branch shape with a test that decides the
condition, so control transfers exactly on the condition, or the first missing one of rs1 and rs2 is raised (R26, R257). -/
theorem branchRule_of_row {mk : RegIdx → RegIdx → Word → Instr} {p : Word} {cond : Word → Word → Prop}
    {test : Word → Word → Bool} (hp : p &&& 0x0000707F#32 = p) (hop : opcodeOf p = 0x63#7)
    (hrow : ∀ rs1 rs2 imm, branchRow (funct3Of p) rs1 rs2 imm = some (mk rs1 rs2 imm))
    (hexec : ∀ s rs1 rs2 imm, exec (mk rs1 rs2 imm) s = branch test rs1 rs2 imm s)
    (htest : ∀ a b, test a b = true ↔ cond a b) : BranchRule mk p cond := by
  refine ⟨fun w h => ?word, fun s rs1 rs2 imm => ⟨fun h1 h2 hc => ?taken, fun h1 h2 hc => ?passed, fun h1 => ?rs1,
    fun h1 h2 => ?rs2⟩⟩
  case word =>
    obtain ⟨hopw, hf3⟩ := (and_funct3_mask hp).mp h
    exact decode_branch_ok (hopw.trans hop) (by rw [hf3, hrow])
  case taken =>
    refine ⟨s.transferTo (s.pc + imm), ?_, transfersOnly_transferTo ..⟩
    rw [hexec, branch_next h1 h2, if_pos ((htest ..).mpr hc), pcTarget]
  case passed => rw [hexec, branch_next h1 h2, if_neg (mt (htest ..).mp hc)]
  case rs1 => exact (hexec ..).trans (branch_raises_rs1 h1)
  case rs2 => exact (hexec ..).trans (branch_raises_rs2 h1 h2)

/-! ### The tests decide the comparisons (R217 to R220) -/

/-- The signed test (R217). -/
theorem ltS_iff (a b : Word) : ltS a b = true ↔ a.toInt < b.toInt := decide_eq_true_iff

/-- The unsigned test (R219). -/
theorem ltU_iff (a b : Word) : ltU a b = true ↔ a.toNat < b.toNat := decide_eq_true_iff

/-- A negated test decides the negated condition: BGE is BLT's and BGEU is BLTU's (R218, R220). -/
theorem not_test_iff {test : Word → Word → Bool} {cond : Word → Word → Prop} (h : ∀ a b, test a b = true ↔ cond a b)
    (a b : Word) : (!test a b) = true ↔ ¬ cond a b := by
  rw [Bool.not_eq_true', ← Bool.not_eq_true, h]

/-- Settles O24: each of the six is a row of BRANCH whose test decides its condition. -/
theorem branchRules : Obligations.BranchRules := by
  refine ⟨?beq, ?bne, ?blt, ?bge, ?bltu, ?bgeu⟩
  case beq =>
    exact branchRule_of_row (by decide) (by decide) (fun _ _ _ => rfl) (fun _ _ _ _ => rfl) fun _ _ => beq_iff_eq
  case bne =>
    exact branchRule_of_row (by decide) (by decide) (fun _ _ _ => rfl) (fun _ _ _ _ => rfl) fun _ _ => bne_iff_ne
  case blt => exact branchRule_of_row (by decide) (by decide) (fun _ _ _ => rfl) (fun _ _ _ _ => rfl) ltS_iff
  case bge =>
    exact branchRule_of_row (by decide) (by decide) (fun _ _ _ => rfl) (fun _ _ _ _ => rfl) (not_test_iff ltS_iff)
  case bltu => exact branchRule_of_row (by decide) (by decide) (fun _ _ _ => rfl) (fun _ _ _ _ => rfl) ltU_iff
  case bgeu =>
    exact branchRule_of_row (by decide) (by decide) (fun _ _ _ => rfl) (fun _ _ _ _ => rfl) (not_test_iff ltU_iff)

end Sys2Proof.Proofs
end

section
/-! The statements of 47_jumps.md (R230, R231): what a JAL or JALR word decodes to, the target of JALR as a number, and the
frame of a link with its transfer. -/

namespace Sys2Proof.Proofs

open Sys2Proof.Machine Sys2Proof.Claims

/-- Clearing bit 0 of a word rounds its value down to an even number (R231). -/
theorem toNat_and_clear_bit_zero (v : Word) : (v &&& 0xFFFFFFFE#32).toNat = v.toNat / 2 * 2 := by
  have hm : ∀ i < 32, BitVec.getLsbD 0xFFFFFFFE#32 i = decide (1 ≤ i) := by decide
  have hword : v &&& 0xFFFFFFFE#32 = v.extractLsb' 1 31 ++ 0#1 := by
    apply BitVec.eq_of_getLsbD_eq
    intro i hi
    rw [BitVec.getLsbD_and, hm i hi, BitVec.getLsbD_append]
    by_cases hlow : i < 1
    · simp [hlow]
    · have hhigh : 1 ≤ i := by omega
      have hin : i - 1 < 31 := by omega
      simp [hlow, hhigh, hin]
  have hlt := v.isLt
  rw [hword, toNat_append_add, toNat_field, BitVec.toNat_ofNat]
  omega

/-- A link and its transfer write rd, set Taken and NextPC, and nothing else (R230, R231). -/
theorem linksOnly_setReg_transferTo (s : State) (rd : RegIdx) (v p : Word) :
    LinksOnly s ((s.setReg rd v).transferTo p) rd v p :=
  ⟨rfl, fun j => s.reg_setReg rd j v, fun _ => rfl, rfl, rfl, rfl, rfl, rfl⟩

/-- A word of the opcode JALR with another funct3 than 0 is InvalidOp with its own fields (R97, R231). -/
theorem decode_jalr_invalid {w : Word} (hop : opcodeOf w = 0x67#7) (hf3 : funct3Of w ≠ 0#3) :
    decode w = .invalidOp 0x67#7 (funct3Of w) (funct7Of w) := by
  rw [decode_of_decodeRow_none ((decodeRow_jalr hop).trans (if_neg hf3)), hop]

/-- Settles O25: the rules of JAL and JALR, each a link and a transfer or the first missing one of rs1 and rd raised; the
target of JALR is computed from the state before the link. -/
theorem jumpRules : Obligations.JumpRules := by
  refine ⟨fun w h => ?jal, fun w h => ?jalr, fun w => decode_jalr_invalid, fun s rd rs1 imm =>
    ⟨fun hd => ⟨_, execJal_next hd, linksOnly_setReg_transferTo ..⟩, execJal_raises_rd,
      fun h1 hd => ⟨_, _, execJalr_next h1 hd, linksOnly_setReg_transferTo .., toNat_and_clear_bit_zero _⟩,
      execJalr_raises_rs1, execJalr_raises_rd⟩⟩
  case jal => exact decode_eq_ok_iff.mpr (decodeRow_jal ((and_opcode_mask (by decide)).mp h))
  case jalr =>
    obtain ⟨hop, hf3⟩ := (and_funct3_mask (by decide)).mp h
    exact decode_eq_ok_iff.mpr ((decodeRow_jalr hop).trans (if_pos hf3))

end Sys2Proof.Proofs
end

section
/-! The family 60_exceptions.md (R250 to R257), its layer of facts: which instructions transfer control and where to, and what
a step that records a fault is (`FaultingStep`). -/

namespace Sys2Proof.Proofs

open Sys2Proof.Machine Sys2Proof.Claims

/-! ### Transfers (R28, R29, R215 to R220, R230, R231) -/

section Transfers

variable {s : State} {i : Instr} {p : Word}

/-- An instruction that writes a register and transfers control is a JAL or a JALR. -/
theorem jump_of_writes_of_transfers {rd : RegIdx} (hw : writesOf i = some rd) (ht : takenTarget s i = some p) :
    (∃ imm, i = .jal rd imm) ∨ ∃ rs1 imm, i = .jalr rd rs1 imm := by
  cases i
  case jal rd' imm =>
    cases hw
    exact .inl ⟨imm, rfl⟩
  case jalr rd' rs1 imm =>
    cases hw
    exact .inr ⟨rs1, imm, rfl⟩
  case beq | bne | blt | bge | bltu | bgeu => cases hw
  all_goals cases ht

/-- An even offset from an even address leads to an even address (R29). -/
theorem toNat_add_even {pc offset : Word} (hpc : pc.toNat % 2 = 0) (ho : offset.toNat % 2 = 0) :
    (pc + offset).toNat % 2 = 0 := by
  rw [BitVec.toNat_add]
  omega

/-- From a PC that is a multiple of 4, a well-formed instruction transfers to an even address: branch and JAL offsets are
even, and JALR clears bit 0 of its target (R85, R87, R231). -/
theorem takenTarget_even (hpc : s.pc.toNat % 4 = 0) (hwf : i.wf = true) (ht : takenTarget s i = some p) :
    p.toNat % 2 = 0 := by
  have hpc2 : s.pc.toNat % 2 = 0 := by omega
  cases i
  case jal rd imm =>
    cases ht
    exact toNat_add_even hpc2 (immFitsJ_iff.mp hwf).1
  case jalr rd rs1 imm =>
    cases ht
    rw [toNat_and_clear_bit_zero]
    omega
  case beq | bne | blt | bge | bltu | bgeu =>
    simp only [takenTarget, Option.ite_none_right_eq_some, Option.some.injEq] at ht
    obtain ⟨-, rfl⟩ := ht
    exact toNat_add_even hpc2 (immFitsB_iff.mp hwf).1
  all_goals cases ht

/-- From a PC that is a multiple of 4, only a taken transfer leads to one that is not (R254). -/
theorem takenTarget_of_newPc_misaligned (hpc : s.pc.toNat % 4 = 0) (hm : (newPc s i).toNat % 4 ≠ 0) :
    takenTarget s i = some (newPc s i) := by
  rw [newPc] at hm ⊢
  cases ht : takenTarget s i with
  | some p => rfl
  | none =>
    rw [ht, Option.getD_none, BitVec.toNat_add] at hm
    have hfour : (4#32).toNat = 4 := rfl
    omega

end Transfers

/-! ### Retiring, from a Running state with no fault record -/

section Retiring

variable {s u : State} {i : Instr}

/-- A retired instruction records InvalidJump with the new PC when that is not a multiple of 4, and nothing otherwise
(R33, R254). -/
theorem Completes.retire_fault (hc : Completes i { s with transfer := none } u) (hs : s.status = .running)
    (hnone : s.fault = none) :
    u.retire.fault = if (newPc s i).toNat % 4 = 0 then none else some (.invalidJump (newPc s i)) := by
  obtain ⟨hstatus, hfault⟩ := hc.status_fault
  by_cases ha : (newPc s i).toNat % 4 = 0
  · obtain ⟨hkept, -⟩ := State.retire_of_aligned (hstatus.trans hs) (hc.retire_newPc ▸ ha)
    rw [hkept, hfault, hnone, if_pos ha]
  · obtain ⟨-, hjump⟩ := State.retire_of_misaligned (u := u) (hc.retire_newPc ▸ ha)
    rw [hjump, hc.retire_newPc, if_neg ha]

/-- A retired instruction leaves a fault record exactly when it leaves Faulted (R31, R251). -/
theorem Completes.retire_faultMatchesStatus (hc : Completes i { s with transfer := none } u) (hs : s.status = .running)
    (hnone : s.fault = none) : u.retire.faultMatchesStatus := by
  obtain ⟨hstatus, hfault⟩ := hc.status_fault
  exact State.retire_faultMatchesStatus (hstatus.trans hs) (hfault.trans hnone)

end Retiring

/-! ### The steps that record a fault -/

/-- What a step from `s` that records a fault and ends in `t` is (R251, R254, R256). -/
inductive FaultingStep (s : State) : State → FaultRecord → Prop where
  /-- No instruction is decoded at the PC (R255). -/
  | undecodable (opcode : BitVec 7) (funct3 : BitVec 3) (funct7 : BitVec 7) :
      FaultingStep s ({ s with transfer := none }.raised (.invalidOp opcode funct3 funct7))
        (.invalidOp opcode funct3 funct7)
  /-- A check of Execute failed (R252, R253). -/
  | raises (i : Instr) (f : FaultRecord) : Runs s i → executeFault s i = some f →
      FaultingStep s ({ s with transfer := none }.raised f) f
  /-- A branch completed and was taken to an address that is not a multiple of 4 (R254). -/
  | branches (i : Instr) (p : Word) : Runs s i → writesOf i = none → takenTarget s i = some p → p.toNat % 4 ≠ 0 →
      FaultingStep s (({ s with transfer := none }.transferTo p).retire) (.invalidJump p)
  /-- A JAL or JALR completed and went to an address that is not a multiple of 4 (R254). -/
  | links (i : Instr) (rd : RegIdx) (p : Word) : Runs s i → writesOf i = some rd → takenTarget s i = some p →
      p.toNat % 4 ≠ 0 →
      FaultingStep s ((({ s with transfer := none }.setReg rd (linkValue s)).transferTo p).retire) (.invalidJump p)

/-- Every step from a state with no fault record that leaves one is a `FaultingStep`. -/
theorem faultingStep_of_step {s t : State} {f : FaultRecord} (h : step s = .next t) (hnone : s.fault = none)
    (hf : t.fault = some f) : FaultingStep s t f := by
  obtain ⟨⟨-, hs, hpc, -⟩, hout⟩ := step_outcome h
  cases hout with
  | undecodable opcode funct3 funct7 _ =>
    cases hf
    exact .undecodable opcode funct3 funct7
  | raises i g hi hg =>
    cases hf
    exact .raises i f hi hg
  | retires i u hi _ hc =>
    rw [hc.retire_fault hs hnone] at hf
    split at hf
    · cases hf
    next hm =>
      cases hf
      have htarget := takenTarget_of_newPc_misaligned hpc hm
      cases hc with
      | writes _ _ _ ht _ | stores _ _ _ _ ht _ _ | passes _ ht => cases ht.symm.trans htarget
      | branches p hw ht =>
        obtain rfl : p = newPc s i := Option.some.inj (ht.symm.trans htarget)
        exact .branches i _ hi hw htarget hm
      | links rd p hw ht _ =>
        obtain rfl : p = newPc s i := Option.some.inj (ht.symm.trans htarget)
        exact .links i rd _ hi hw htarget hm

end Sys2Proof.Proofs
end

section
/-! The statements of 60_exceptions.md (R250 to R257): the order of the faults, the state at a fault, and where each kind
arises. -/

namespace Sys2Proof.Proofs

open Sys2Proof.Machine Sys2Proof.Claims

/-! ### The order of the faults, case by case (R257) -/

section Order

variable {s : State} {i : Instr}

theorem stepFault_of_undecodable {opcode : BitVec 7} {funct3 : BitVec 3} {funct7 : BitVec 7}
    (hd : decode (wordAt s.mem s.pc.toNat) = .invalidOp opcode funct3 funct7) :
    stepFault s = some (.invalidOp opcode funct3 funct7) := by
  simp only [stepFault, hd]

theorem stepFault_of_raises {f : FaultRecord} (hi : Runs s i) (hf : executeFault s i = some f) :
    stepFault s = some f := by
  rw [Runs] at hi
  simp only [stepFault, hi, hf]

theorem stepFault_of_completes (hi : Runs s i) (hf : executeFault s i = none) :
    stepFault s = if (newPc s i).toNat % 4 = 0 then none else some (.invalidJump (newPc s i)) := by
  rw [Runs] at hi
  simp only [stepFault, hi, hf]

end Order

/-- Settles O39: each outcome of a step records what the order names for it, decode before Execute before the check on the
new PC. -/
theorem faultByPriority : Obligations.FaultByPriority := by
  intro s t h hnone
  obtain ⟨⟨-, hs, -⟩, hout⟩ := step_outcome h
  cases hout with
  | undecodable opcode funct3 funct7 hd => exact ⟨(stepFault_of_undecodable hd).symm, by simp⟩
  | raises i f hi hf => exact ⟨(stepFault_of_raises hi hf).symm, by simp⟩
  | retires i u hi hf hc =>
    exact ⟨(hc.retire_fault hs hnone).trans (stepFault_of_completes hi hf).symm,
      hc.retire_faultMatchesStatus hs hnone⟩

/-- Settles O40: a raise changes Status and the record alone; InvalidJump comes from a completed branch, whose retirement
changes no register, or from a completed jump, whose retirement leaves the link. -/
theorem stateAtAFault : Obligations.StateAtAFault := by
  intro s t f h hnone hf
  have hfaulted : t.status = .faulted := (faultByPriority s t h hnone).2.mpr (by simp [hf])
  refine ⟨hfaulted, t.reg_zero, readOutCoversTheState t, ?_⟩
  cases faultingStep_of_step h hnone hf with
  | undecodable => exact ⟨fun _ => rfl, fun p hp => by cases hp⟩
  | raises i _ _ hraise => exact ⟨fun _ => rfl, fun p hp => absurd hp (executeFault_ne_invalidJump hraise p)⟩
  | branches i p hi hw _ hm =>
    refine ⟨fun hother => absurd rfl (hother p), fun q hq => ?_⟩
    cases hq
    exact ⟨State.retire_pc _, hm, State.retire_mem _, by simp, i, hi, .inr ⟨hw, State.reg_retire _⟩⟩
  | links i rd p hi hw ht hm =>
    refine ⟨fun hother => absurd rfl (hother p), fun q hq => ?_⟩
    cases hq
    refine ⟨State.retire_pc _, hm, State.retire_mem _, by simp, i, hi,
      .inl ⟨rd, hw, jump_of_writes_of_transfers hw ht, fun j => ?_⟩⟩
    rw [State.reg_retire, State.reg_transferTo]
    exact State.reg_setReg _ rd j _

/-- Settles O42: of the faults of Execute, InvalidMemory is the one of a failed access. -/
theorem invalidMemoryOnlyFromAccesses : Obligations.InvalidMemoryOnlyFromAccesses := by
  intro s t a n al h hnone hf
  cases faultingStep_of_step h hnone hf with
  | raises i _ hi hraise =>
    obtain ⟨_, hreg, _⟩ | ⟨_, _, hmem, haccess, hbad⟩ := executeFault_cases hraise
    · cases hreg
    · cases hmem
      exact ⟨rfl, ⟨i, hi, haccess⟩, hbad⟩

/-- Settles O43: InvalidJump comes from a taken transfer, and the decoded instruction's target is even. -/
theorem invalidJumpOnlyFromTakenTransfers : Obligations.InvalidJumpOnlyFromTakenTransfers := by
  intro s t p h hnone hf
  obtain ⟨⟨-, -, hpc, -⟩, -⟩ := step_outcome h
  have htwo {i : Instr} (hi : Runs s i) (ht : takenTarget s i = some p) (hm : p.toNat % 4 ≠ 0) : p.toNat % 4 = 2 := by
    obtain ⟨hwf, -⟩ := encodeOfDecodeIsTheWord _ _ hi
    have heven := takenTarget_even hpc hwf ht
    omega
  cases faultingStep_of_step h hnone hf with
  | raises i _ _ hraise => exact absurd rfl (executeFault_ne_invalidJump hraise p)
  | branches i _ hi _ ht hm => exact ⟨htwo hi ht hm, State.retire_pc _, i, hi, ht⟩
  | links i rd _ hi _ ht hm => exact ⟨htwo hi ht hm, State.retire_pc _, i, hi, ht⟩

end Sys2Proof.Proofs
end

section
/-! The statements of 70_reset_and_hazards.md (R280 to R286): launches, lawful and refused, the runs of a launched CORE, and
words placed at the PC. -/

namespace Sys2Proof.Machine

/-- What is reached from a state that meets the invariant meets it, as every step keeps it. -/
theorem Reaches.inv {s t : State} (h : Reaches s t) (hs : s.Inv) : t.Inv := by
  induction h with
  | refl => exact hs
  | tail _ hstep ih => exact Proofs.stepKeepsTheInvariant _ _ ih hstep

/-- The fetch after a word is placed at the PC reads that word (R56, R283). -/
theorem fetch_withWordAtPc {s : State} (hwf : Memory.wf s.mem) (w : Word) : fetch (s.withWordAtPc w) = w := by
  refine eq_of_bytes_eq fun k hk => ?_
  rw [Proofs.byte_fetch _ hk, State.withWordAtPc_mem, State.withWordAtPc_pc, Memory.read_writeLE_inside hwf w hk,
    byteOf_eq_ushiftRight]

end Sys2Proof.Machine

namespace Sys2Proof

/-- A word is its four bytes, the one at the lowest address in bits 7:0 (R51). -/
theorem wordOfBytes_byteOf (v : Word) : wordOfBytes (byteOf v 0) (byteOf v 1) (byteOf v 2) (byteOf v 3) = v := by
  apply BitVec.eq_of_toNat_eq
  have hlt := v.isLt
  simp only [wordOfBytes, toNat_append_add, byteOf, toNat_field]
  omega

/-- Reading a table word is decoding its low `nbits` bits as a word. -/
theorem decodeTableWord_eq_some_iff {nbits w : Nat} {i : Instr} :
    decodeTableWord nbits w = some i ↔ decode (BitVec.ofNat 32 (w % 2 ^ nbits)) = .ok i := by
  simp only [decodeTableWord, decodeBytes, wordOfBytes_byteOf]
  cases decode (BitVec.ofNat 32 (w % 2 ^ nbits)) <;> simp

end Sys2Proof

namespace Sys2Proof.Proofs

open Sys2Proof.Machine Sys2Proof.Claims

/-! ### Launch (R280 to R284) -/

/-- Settles O49: the cells are 0, the image lies within PROGRAM_LENGTH, and the CORE is Halted for an empty program, else
Running at its first word. -/
theorem launchMeetsTheInvariant : Obligations.LaunchMeetsTheInvariant := by
  intro c image hl
  obtain ⟨hwf, hin⟩ := Memory.wf_ofImage 0 image
  have ⟨_, _, _, _, hfits⟩ := hl
  exact {
    launch := hl
    memWf := hwf
    memBound := fun b hb => by
      obtain ⟨-, hlt⟩ := hin b hb
      rw [Nat.zero_add] at hlt
      exact hlt.trans_le hfits
    zeroCell := launch_cell c image 0#5
    embedded := fun _ k _ => Vector.getElem_replicate k.isLt
    faultRec := by by_cases h0 : image.length = 0 <;> simp [State.faultMatchesStatus, State.launch, h0]
    pcOk := by
      by_cases h0 : image.length = 0
      · have hs : (State.launch c image).status = .halted := if_pos h0
        rw [State.pcMatchesStatus, hs]
        exact ⟨rfl, .inl h0.le⟩
      · have hs : (State.launch c image).status = .running := if_neg h0
        rw [State.pcMatchesStatus, hs]
        exact ⟨rfl, Nat.pos_of_ne_zero h0⟩
    noTransfer := rfl }

/-- An unlawful launch is refused at its first line (R282; log entry 5). -/
theorem step_of_not_launchOk {s : State} (hl : ¬ s.launchOk) : step s = .refused .launchRefused := if_neg hl

/-- A lawful launch is not refused as unlawful: the step stops at Status or the PC, or answers. -/
theorem step_ne_launchRefused {s : State} (hl : s.launchOk) : step s ≠ .refused .launchRefused := by
  obtain ⟨hhalted, hfaulted⟩ := terminalStatesTakeNoStep.2 s hl
  cases hs : s.status with
  | halted => simp [hhalted hs]
  | faulted => simp [hfaulted hs]
  | running =>
    by_cases hp : s.pcInProgram
    · obtain ⟨t, ht⟩ := step_answers ⟨hl, hs, hp⟩
      simp [ht]
    · rw [step, beginStep, if_pos hl, hs]
      simp [hp]

/-- Settles O45: the launch conditions are the first check of a step, and no other refusal bears that name. -/
theorem unlawfulLaunchesAreRefused : Obligations.UnlawfulLaunchesAreRefused := fun _ =>
  ⟨⟨fun h hl => step_ne_launchRefused hl h, step_of_not_launchOk⟩, fun _ h => (step_next h).1⟩

/-! ### Runs (R285, R286) -/

/-- Settles O52: every state of the run meets the invariant, by which Faulted carries a record and Running has a next step. -/
theorem launchedRunsEndOnlyHaltedOrFaulted : Obligations.LaunchedRunsEndOnlyHaltedOrFaulted := by
  intro c image t hl hr
  have hinv : t.Inv := hr.inv (launchMeetsTheInvariant c image hl)
  refine ⟨hinv, ?_⟩
  cases hs : t.status with
  | halted => exact .inl rfl
  | faulted => exact .inr (.inl ⟨rfl, Option.ne_none_iff_exists'.mp (hinv.faultRec.mp hs)⟩)
  | running =>
    obtain ⟨u, hu⟩ := runningStatesStep t hinv hs
    exact .inr (.inr ⟨u, hu, stepKeepsTheInvariant t u hinv hu⟩)

/-! ### Words placed at the PC (R283; log entry 2) -/

/-- A word placed at an aligned PC within Memory makes a step defined. -/
theorem stepDefined_withWordAtPc {s : State} (hl : s.launchOk) (ha : s.pc.toNat % 4 = 0)
    (hlt : s.pc.toNat < s.cfg.memSize) (w : Word) : StepDefined (s.withWordAtPc w) := by
  obtain ⟨hlow, hhigh, hsize, hlen, hfits⟩ := hl
  have hend : s.pc.toNat + 4 ≤ s.cfg.memSize := by omega
  have hnew : (s.withWordAtPc w).programLength = max s.programLength (s.pc.toNat + 4) := rfl
  refine ⟨⟨hlow, hhigh, hsize, ?whole, ?fits⟩, rfl, ha, ?inside⟩
  case whole => omega
  case fits => exact hnew.trans_le (max_le hfits hend)
  case inside => exact (Nat.lt_add_of_pos_right (by decide)).trans_le (le_max_right ..)

/-- Settles O55: the placed word is the one fetched, and the table's reading of its bits is the decoder's. -/
theorem placedWordsRun : Obligations.PlacedWordsRun := by
  intro s nbits w hl hwf ha hlt
  have hfetch : fetch (s.withFetchWord nbits w) = BitVec.ofNat 32 (w % 2 ^ nbits) := fetch_withWordAtPc hwf _
  refine ⟨stepDefined_withWordAtPc hl ha hlt _, hfetch, fun i => ?_⟩
  rw [decodeTableWord_eq_some_iff, Runs, ← fetch_eq_wordAt, hfetch]

end Sys2Proof.Proofs
end
